-- ==== Sys2Proof/Word.lean ====
section
/-! DEFINITION. Word.lean: the words of the machine, the register numbers and the two families of
operand widths (00_scope.md R4: 64-bit registers and words, 16 registers, sizes 1, 2, 4 and 8 bytes,
floating-point formats binary32 and binary64). -/

namespace Sys2Proof

/-- One byte of Memory. -/
abbrev Byte := BitVec 8

/-- A 64-bit register, instruction word, immediate word, address or I/O value. -/
abbrev Word := BitVec 64

/-- A register number 0 to 15 (10_state.md R20). Number 15 is the stack pointer. -/
abbrev Reg := Fin 16

/-- The 16-bit opcode field of an instruction word (30_encoding.md R80). -/
abbrev Opcode := BitVec 16

/-- An operand size of 1, 2, 4 or 8 bytes (00_scope.md R6). -/
inductive Size where
  | b1
  | b2
  | b4
  | b8
  deriving DecidableEq, Repr

/-- The two floating-point formats: binary32 is size 4 and binary64 is size 8 (41_fpu.md R160). -/
inductive FpFormat where
  | binary32
  | binary64
  deriving DecidableEq, Repr

end Sys2Proof
end

