-- ==== Sys2Proof/Config.lean ====
section
/-! DEFINITION. Config.lean: what an implementation fixes (00_scope.md R4) and the values the spec
leaves free. The parameters that are plain data form the structure `Config`, which State carries, so
that a claim about every state is a claim about every choice of them. The values the spec gives only
by their properties, or not at all, are constants with no body, so that no proof can see them. -/

namespace Sys2Proof

/-- SDIV_MODE: how the quotient of a signed division is rounded (40_alu_integer.md R116). -/
inductive DivMode where
  | trunc
  | floor
  deriving DecidableEq, Repr

/-- SHIFT_MODE: the amount of SHL and SHR is the register's own value, or one (R121). -/
inductive ShiftMode where
  | self
  | one
  deriving DecidableEq, Repr

/-- The operations of the floating-point unit (41_fpu.md R161). -/
inductive FpOp where
  | add
  | sub
  | mul
  | div
  | sqrt
  | sin
  | cos
  deriving DecidableEq, Repr

/-- One case of FP_NAN_OF(op, a, b, sz): the NaN returned for these operand patterns (R165). -/
structure NanCase where
  op  : FpOp
  fmt : FpFormat
  a   : Word
  b   : Word
  nan : Word
  deriving DecidableEq, Repr

/-- The instructions an opcode map can name, one for each mnemonic and size of 30_encoding.md R91, in the
table's order and under the names of the constructors of `Instr`. -/
inductive Mnemonic where
  | parar
  | nop
  | ret
  | setz
  | clrz
  | setn
  | clrn
  | setc
  | clrc
  | setv
  | clrv
  | inc
  | dec
  | clear
  | shl
  | shr
  | push1
  | push2
  | push4
  | push8
  | pop1
  | pop2
  | pop4
  | pop8
  | fsqrt4
  | fsqrt8
  | fsin4
  | fsin8
  | fcos4
  | fcos8
  | mov
  | and
  | or
  | xor
  | add1
  | add2
  | add4
  | add8
  | sub1
  | sub2
  | sub4
  | sub8
  | mul1
  | mul2
  | mul4
  | mul8
  | div1
  | div2
  | div4
  | div8
  | divu1
  | divu2
  | divu4
  | divu8
  | mod1
  | mod2
  | mod4
  | mod8
  | modu1
  | modu2
  | modu4
  | modu8
  | cmp1
  | cmp2
  | cmp4
  | cmp8
  | fadd4
  | fadd8
  | fsub4
  | fsub8
  | fmul4
  | fmul8
  | fdiv4
  | fdiv8
  | loadr1
  | loadr2
  | loadr4
  | loadr8
  | storer1
  | storer2
  | storer4
  | storer8
  | loadv
  | cmpv
  | load1
  | load2
  | load4
  | load8
  | store1
  | store2
  | store4
  | store8
  | jmp
  | jeq
  | jne
  | jmi
  | jpl
  | jcs
  | jcc
  | jlt
  | jge
  | call
  | svio
  | loadio
  | showio
  deriving DecidableEq, Repr

/-- OPCODE_MAP: which instruction each opcode number stands for. An opcode that is not listed is
undefined (R89); the first entry of an opcode counts. -/
abbrev OpcodeMap := List (Opcode × Mnemonic)

/-- The implementation parameters of 00_scope.md R4 that are plain data. No step changes them. -/
structure Config where
  /-- OPCODE_MAP (log entry 13). -/
  opcodeMap  : OpcodeMap
  /-- MEM_SIZE, in bytes. -/
  memSize    : Nat
  /-- SDIV_MODE. -/
  divMode    : DivMode
  /-- SHIFT_MODE. -/
  shiftMode  : ShiftMode
  /-- STACK_FLOOR, the lowest address the stack may retreat to. -/
  stackFloor : Nat
  /-- FP_NAN(4), the binary32 NaN in the low 32 bits. -/
  nan32      : Word
  /-- FP_NAN(8). -/
  nan64      : Word
  /-- The cases in which FP_NAN_OF differs from FP_NAN. -/
  nanCases   : List NanCase
  deriving DecidableEq, Repr

/-- FP_SIN32 before the limits of 41_fpu.md R174 are applied: any function on binary32 patterns. -/
opaque Config.fpSin32 : BitVec 32 → BitVec 32

/-- FP_SIN64 before the limits of R174 are applied. -/
opaque Config.fpSin64 : BitVec 64 → BitVec 64

/-- FP_COS32 before the limits of R174 are applied. -/
opaque Config.fpCos32 : BitVec 32 → BitVec 32

/-- FP_COS64 before the limits of R174 are applied. -/
opaque Config.fpCos64 : BitVec 64 → BitVec 64

/-- The answer number n of a device whose behaviour the spec does not give (44_io.md R240; log entry 8). -/
opaque Config.deviceAnswer : Nat → Word

end Sys2Proof
end

