-- ==== Sys2Proof/Machine/Bits.lean ====
section
/-! DEFINITION. Bits.lean: widths, masks, the signed reading of a value and the byte order
(00_scope.md R5 and R6, 20_memory.md R51). -/

namespace Sys2Proof

/-- `sz`, the operand size in bytes (00_scope.md R6). -/
def Size.bytes : Size → Nat
  | .b1 => 1
  | .b2 => 2
  | .b4 => 4
  | .b8 => 8

/-- `n = 8*sz`, the operand width in bits (R6). -/
def Size.bits (z : Size) : Nat := 8 * z.bytes

/-- The operand size of a floating-point format (41_fpu.md R160). -/
def FpFormat.size : FpFormat → Size
  | .binary32 => .b4
  | .binary64 => .b8

/-- `u(v, sz)`, the unsigned value of the low sz bytes (R6). -/
def uval (v : Word) (z : Size) : Nat := v.toNat % 2 ^ z.bits

/-- `mask(v, sz)` as a 64-bit value (R6). -/
def mask (v : Word) (z : Size) : Word := BitVec.ofNat 64 (uval v z)

/-- `UMAX(sz)` (R6). -/
def Size.umax (z : Size) : Nat := 2 ^ z.bits - 1

/-- `SMAX(sz)` (R6). -/
def Size.smax (z : Size) : Int := 2 ^ (z.bits - 1) - 1

/-- `SMIN(sz)` (R6). -/
def Size.smin (z : Size) : Int := -(2 ^ (z.bits - 1))

/-- The two's-complement reading at size sz of an unsigned value below 2^n (R6). -/
def signedOf (u : Nat) (z : Size) : Int :=
  if 2 ^ (z.bits - 1) ≤ u then (u : Int) - 2 ^ z.bits else u

/-- The sign bit at size sz of an unsigned value below 2^n (R6). -/
def msbOf (u : Nat) (z : Size) : Bool := u.testBit (z.bits - 1)

/-- The n bytes of a number, the least significant first (20_memory.md R51). -/
def bytesLE : Nat → Nat → List Byte
  | 0, _ => []
  | n + 1, v => BitVec.ofNat 8 v :: bytesLE n (v / 256)

/-- The number whose bytes these are, the least significant first (R51). -/
def natOfBytesLE : List Byte → Nat
  | [] => 0
  | b :: bs => b.toNat + 256 * natOfBytesLE bs

/-- The 64-bit value of some bytes, the least significant first. -/
def wordOfBytesLE (bs : List Byte) : Word := BitVec.ofNat 64 (natOfBytesLE bs)

end Sys2Proof
end

