-- ==== Sys2Proof/Syntax.lean ====
section
/-! DEFINITION. Syntax.lean: the four instruction formats (30_encoding.md R82 to R85), the transient
decoded record of R90, and the instruction set, one constructor for each row of the opcode map of
R91. Sizes are part of the opcode (R92), so each size is an instruction of its own. -/

namespace Sys2Proof

/-- The decode shapes (30_encoding.md R81). -/
inductive Format where
  /-- No operands, 8 bytes (R82). -/
  | op
  /-- One register at bits 47:44, 8 bytes (R83). -/
  | r
  /-- Two registers at bits 7:4 and 3:0, 8 bytes (R84). -/
  | rr
  /-- One register at bits 47:44 and a second word, 16 bytes (R85). -/
  | ri
  deriving DecidableEq, Repr

/-- The transient Instruction that decode hands to execute (10_state.md R36, 30_encoding.md R90). -/
structure DecodedInst where
  opcode : Opcode
  format : Format
  rd     : Option Reg
  rs     : Option Reg
  imm    : Option Word
  deriving DecidableEq, Repr

/-- The instructions of the opcode map (30_encoding.md R91), in the table's order. The register field
that the jumps, CALL and SHOWIO ignore (R85, R88) is no operand. -/
inductive Instr where
  /-- 45_system.md R260. -/
  | parar
  /-- 45_system.md R261. -/
  | nop
  /-- 43_control_stack.md R225. -/
  | ret
  /-- 45_system.md R262. -/
  | setz
  /-- 45_system.md R263. -/
  | clrz
  /-- 45_system.md R264. -/
  | setn
  /-- 45_system.md R265. -/
  | clrn
  /-- 45_system.md R266. -/
  | setc
  /-- 45_system.md R267. -/
  | clrc
  /-- 45_system.md R268. -/
  | setv
  /-- 45_system.md R269. -/
  | clrv
  /-- 40_alu_integer.md R131. -/
  | inc (rd : Reg)
  /-- 40_alu_integer.md R132. -/
  | dec (rd : Reg)
  /-- 42_memory_access.md R197. -/
  | clear (rd : Reg)
  /-- 40_alu_integer.md R136. -/
  | shl (rd : Reg)
  /-- 40_alu_integer.md R137. -/
  | shr (rd : Reg)
  /-- 43_control_stack.md R226. -/
  | push1 (rd : Reg)
  | push2 (rd : Reg)
  | push4 (rd : Reg)
  | push8 (rd : Reg)
  /-- 43_control_stack.md R227. -/
  | pop1 (rd : Reg)
  | pop2 (rd : Reg)
  | pop4 (rd : Reg)
  | pop8 (rd : Reg)
  /-- 41_fpu.md R179. -/
  | fsqrt4 (rd : Reg)
  | fsqrt8 (rd : Reg)
  /-- 41_fpu.md R180. -/
  | fsin4 (rd : Reg)
  | fsin8 (rd : Reg)
  /-- 41_fpu.md R181. -/
  | fcos4 (rd : Reg)
  | fcos8 (rd : Reg)
  /-- 42_memory_access.md R196. -/
  | mov (rd rs : Reg)
  /-- 40_alu_integer.md R133. -/
  | and (rd rs : Reg)
  /-- 40_alu_integer.md R134. -/
  | or (rd rs : Reg)
  /-- 40_alu_integer.md R135. -/
  | xor (rd rs : Reg)
  /-- 40_alu_integer.md R122. -/
  | add1 (rd rs : Reg)
  | add2 (rd rs : Reg)
  | add4 (rd rs : Reg)
  | add8 (rd rs : Reg)
  /-- 40_alu_integer.md R123. -/
  | sub1 (rd rs : Reg)
  | sub2 (rd rs : Reg)
  | sub4 (rd rs : Reg)
  | sub8 (rd rs : Reg)
  /-- 40_alu_integer.md R124. -/
  | mul1 (rd rs : Reg)
  | mul2 (rd rs : Reg)
  | mul4 (rd rs : Reg)
  | mul8 (rd rs : Reg)
  /-- 40_alu_integer.md R125. -/
  | div1 (rd rs : Reg)
  | div2 (rd rs : Reg)
  | div4 (rd rs : Reg)
  | div8 (rd rs : Reg)
  /-- 40_alu_integer.md R126. -/
  | divu1 (rd rs : Reg)
  | divu2 (rd rs : Reg)
  | divu4 (rd rs : Reg)
  | divu8 (rd rs : Reg)
  /-- 40_alu_integer.md R127. -/
  | mod1 (rd rs : Reg)
  | mod2 (rd rs : Reg)
  | mod4 (rd rs : Reg)
  | mod8 (rd rs : Reg)
  /-- 40_alu_integer.md R128. -/
  | modu1 (rd rs : Reg)
  | modu2 (rd rs : Reg)
  | modu4 (rd rs : Reg)
  | modu8 (rd rs : Reg)
  /-- 40_alu_integer.md R129. -/
  | cmp1 (rd rs : Reg)
  | cmp2 (rd rs : Reg)
  | cmp4 (rd rs : Reg)
  | cmp8 (rd rs : Reg)
  /-- 41_fpu.md R175. -/
  | fadd4 (rd rs : Reg)
  | fadd8 (rd rs : Reg)
  /-- 41_fpu.md R176. -/
  | fsub4 (rd rs : Reg)
  | fsub8 (rd rs : Reg)
  /-- 41_fpu.md R177. -/
  | fmul4 (rd rs : Reg)
  | fmul8 (rd rs : Reg)
  /-- 41_fpu.md R178. -/
  | fdiv4 (rd rs : Reg)
  | fdiv8 (rd rs : Reg)
  /-- 42_memory_access.md R193. -/
  | loadr1 (rd rs : Reg)
  | loadr2 (rd rs : Reg)
  | loadr4 (rd rs : Reg)
  | loadr8 (rd rs : Reg)
  /-- 42_memory_access.md R194. -/
  | storer1 (rd rs : Reg)
  | storer2 (rd rs : Reg)
  | storer4 (rd rs : Reg)
  | storer8 (rd rs : Reg)
  /-- 42_memory_access.md R195. -/
  | loadv (rd : Reg) (imm : Word)
  /-- 40_alu_integer.md R130. -/
  | cmpv (rd : Reg) (imm : Word)
  /-- 42_memory_access.md R191. -/
  | load1 (rd : Reg) (imm : Word)
  | load2 (rd : Reg) (imm : Word)
  | load4 (rd : Reg) (imm : Word)
  | load8 (rd : Reg) (imm : Word)
  /-- 42_memory_access.md R192. -/
  | store1 (rd : Reg) (imm : Word)
  | store2 (rd : Reg) (imm : Word)
  | store4 (rd : Reg) (imm : Word)
  | store8 (rd : Reg) (imm : Word)
  /-- 43_control_stack.md R212. -/
  | jmp (imm : Word)
  /-- 43_control_stack.md R213. -/
  | jeq (imm : Word)
  /-- 43_control_stack.md R214. -/
  | jne (imm : Word)
  /-- 43_control_stack.md R215. -/
  | jmi (imm : Word)
  /-- 43_control_stack.md R216. -/
  | jpl (imm : Word)
  /-- 43_control_stack.md R217. -/
  | jcs (imm : Word)
  /-- 43_control_stack.md R218. -/
  | jcc (imm : Word)
  /-- 43_control_stack.md R219. -/
  | jlt (imm : Word)
  /-- 43_control_stack.md R220. -/
  | jge (imm : Word)
  /-- 43_control_stack.md R224. -/
  | call (imm : Word)
  /-- 44_io.md R247. -/
  | svio (rd : Reg) (imm : Word)
  /-- 44_io.md R248. -/
  | loadio (rd : Reg) (imm : Word)
  /-- 44_io.md R249. -/
  | showio (imm : Word)
  deriving DecidableEq, Repr

end Sys2Proof
end

