-- ==== Sys2Proof/WellFormed.lean ====
section
/-! DEFINITION. WellFormed.lean: when a decoded record is one that decode can produce. The fields of
`Instr` are typed (a register is one of 16, an immediate has 64 bits), so every `Instr` is well formed
by its type; what can be ill formed is the record `DecodedInst` of 30_encoding.md R90, whose operands
are present or absent as its format says, and whose format is the one the opcode map gives its opcode
(R81, R89). The opcode map is an argument (00_scope.md R4, OPCODE_MAP). -/

namespace Sys2Proof

/-- rd is present in the formats R, RR and RI only (30_encoding.md R90). -/
def DecodedInst.rdOk (i : DecodedInst) : Bool :=
  i.rd.isSome == (i.format != .op)

/-- rs is present in the format RR only (R90). -/
def DecodedInst.rsOk (i : DecodedInst) : Bool :=
  i.rs.isSome == (i.format == .rr)

/-- imm is present in the format RI only (R90). -/
def DecodedInst.immOk (i : DecodedInst) : Bool :=
  i.imm.isSome == (i.format == .ri)

/-- The opcode is in the map, with the record's format (R81, R89). -/
def DecodedInst.opcodeOk (formatOf : Opcode → Option Format) (i : DecodedInst) : Bool :=
  formatOf i.opcode == some i.format

/-- A record that decode can produce under the given opcode map. -/
def DecodedInst.wellFormed (formatOf : Opcode → Option Format) (i : DecodedInst) : Bool :=
  i.opcodeOk formatOf && i.rdOk && i.rsOk && i.immOk

end Sys2Proof
end

