-- ==== Sys2Proof/Decode.lean ====
section
/-! DEFINITION. Decode.lean: the opcode map of 30_encoding.md R91, the field positions of R82 to R85,
decode (R97) as a total function that rejects by name, and the encoder. Both take the opcode map as an
argument (00_scope.md R4; log entry 13). Unused bits and the register
field of the jumps, CALL and SHOWIO are ignored by decode and written as 0 by the encoder (R88, R95). -/

namespace Sys2Proof

/-- Why decode rejects. -/
inductive DecodeError where
  /-- The opcode is not in the opcode map (R89): the core raises DecodeError. -/
  | unknownOpcode (op : Opcode)
  /-- The opcode is of format RI and its immediate word cannot be fetched (R97): the core raises
  AddressError. -/
  | noImmediate (op : Opcode)
  deriving DecidableEq, Repr

/-- Why a list of bytes gives no instruction. -/
inductive BytesError where
  /-- Fewer than eight bytes were given, so there is no instruction word. -/
  | noInstructionWord
  /-- The word was rejected. -/
  | rejected (e : DecodeError)
  deriving DecidableEq, Repr

/-- How an instruction is made from the operands of its format. -/
inductive Builder where
  | op (i : Instr)
  | r (f : Reg → Instr)
  | rr (f : Reg → Reg → Instr)
  | ri (f : Reg → Word → Instr)

/-- The format of an instruction made so (R81). -/
def Builder.format : Builder → Format
  | .op _ => .op
  | .r _ => .r
  | .rr _ => .rr
  | .ri _ => .ri

/-- The column `fmt` of R91, and the instruction each mnemonic stands for. The jumps, CALL and SHOWIO have
a register field that they do not use (R85, R88). -/
def Mnemonic.builder : Mnemonic → Builder
  | .parar => .op .parar
  | .nop => .op .nop
  | .ret => .op .ret
  | .setz => .op .setz
  | .clrz => .op .clrz
  | .setn => .op .setn
  | .clrn => .op .clrn
  | .setc => .op .setc
  | .clrc => .op .clrc
  | .setv => .op .setv
  | .clrv => .op .clrv
  | .inc => .r .inc
  | .dec => .r .dec
  | .clear => .r .clear
  | .shl => .r .shl
  | .shr => .r .shr
  | .push1 => .r .push1
  | .push2 => .r .push2
  | .push4 => .r .push4
  | .push8 => .r .push8
  | .pop1 => .r .pop1
  | .pop2 => .r .pop2
  | .pop4 => .r .pop4
  | .pop8 => .r .pop8
  | .fsqrt4 => .r .fsqrt4
  | .fsqrt8 => .r .fsqrt8
  | .fsin4 => .r .fsin4
  | .fsin8 => .r .fsin8
  | .fcos4 => .r .fcos4
  | .fcos8 => .r .fcos8
  | .mov => .rr .mov
  | .and => .rr .and
  | .or => .rr .or
  | .xor => .rr .xor
  | .add1 => .rr .add1
  | .add2 => .rr .add2
  | .add4 => .rr .add4
  | .add8 => .rr .add8
  | .sub1 => .rr .sub1
  | .sub2 => .rr .sub2
  | .sub4 => .rr .sub4
  | .sub8 => .rr .sub8
  | .mul1 => .rr .mul1
  | .mul2 => .rr .mul2
  | .mul4 => .rr .mul4
  | .mul8 => .rr .mul8
  | .div1 => .rr .div1
  | .div2 => .rr .div2
  | .div4 => .rr .div4
  | .div8 => .rr .div8
  | .divu1 => .rr .divu1
  | .divu2 => .rr .divu2
  | .divu4 => .rr .divu4
  | .divu8 => .rr .divu8
  | .mod1 => .rr .mod1
  | .mod2 => .rr .mod2
  | .mod4 => .rr .mod4
  | .mod8 => .rr .mod8
  | .modu1 => .rr .modu1
  | .modu2 => .rr .modu2
  | .modu4 => .rr .modu4
  | .modu8 => .rr .modu8
  | .cmp1 => .rr .cmp1
  | .cmp2 => .rr .cmp2
  | .cmp4 => .rr .cmp4
  | .cmp8 => .rr .cmp8
  | .fadd4 => .rr .fadd4
  | .fadd8 => .rr .fadd8
  | .fsub4 => .rr .fsub4
  | .fsub8 => .rr .fsub8
  | .fmul4 => .rr .fmul4
  | .fmul8 => .rr .fmul8
  | .fdiv4 => .rr .fdiv4
  | .fdiv8 => .rr .fdiv8
  | .loadr1 => .rr .loadr1
  | .loadr2 => .rr .loadr2
  | .loadr4 => .rr .loadr4
  | .loadr8 => .rr .loadr8
  | .storer1 => .rr .storer1
  | .storer2 => .rr .storer2
  | .storer4 => .rr .storer4
  | .storer8 => .rr .storer8
  | .loadv => .ri .loadv
  | .cmpv => .ri .cmpv
  | .load1 => .ri .load1
  | .load2 => .ri .load2
  | .load4 => .ri .load4
  | .load8 => .ri .load8
  | .store1 => .ri .store1
  | .store2 => .ri .store2
  | .store4 => .ri .store4
  | .store8 => .ri .store8
  | .jmp => .ri fun _ imm => .jmp imm
  | .jeq => .ri fun _ imm => .jeq imm
  | .jne => .ri fun _ imm => .jne imm
  | .jmi => .ri fun _ imm => .jmi imm
  | .jpl => .ri fun _ imm => .jpl imm
  | .jcs => .ri fun _ imm => .jcs imm
  | .jcc => .ri fun _ imm => .jcc imm
  | .jlt => .ri fun _ imm => .jlt imm
  | .jge => .ri fun _ imm => .jge imm
  | .call => .ri fun _ imm => .call imm
  | .svio => .ri .svio
  | .loadio => .ri .loadio
  | .showio => .ri fun _ imm => .showio imm

/-- The opcode map, format OP (R91). -/
def opcodeTableOp : OpcodeMap :=
  [(0x0000, .parar),
   (0x0001, .nop),
   (0x0002, .ret),
   (0x0010, .setz),
   (0x0011, .clrz),
   (0x0012, .setn),
   (0x0013, .clrn),
   (0x0014, .setc),
   (0x0015, .clrc),
   (0x0016, .setv),
   (0x0017, .clrv)]

/-- The opcode map, format R (R91, R92). -/
def opcodeTableR : OpcodeMap :=
  [(0x0100, .inc),
   (0x0101, .dec),
   (0x0102, .clear),
   (0x0103, .shl),
   (0x0104, .shr),
   (0x0110, .push1),
   (0x0111, .push2),
   (0x0112, .push4),
   (0x0113, .push8),
   (0x0114, .pop1),
   (0x0115, .pop2),
   (0x0116, .pop4),
   (0x0117, .pop8),
   (0x0120, .fsqrt4),
   (0x0121, .fsqrt8),
   (0x0122, .fsin4),
   (0x0123, .fsin8),
   (0x0124, .fcos4),
   (0x0125, .fcos8)]

/-- The opcode map, format RR: move, logic and integer arithmetic (R91, R92). -/
def opcodeTableRRInteger : OpcodeMap :=
  [(0x0200, .mov),
   (0x0201, .and),
   (0x0202, .or),
   (0x0203, .xor),
   (0x0210, .add1),
   (0x0211, .add2),
   (0x0212, .add4),
   (0x0213, .add8),
   (0x0214, .sub1),
   (0x0215, .sub2),
   (0x0216, .sub4),
   (0x0217, .sub8),
   (0x0218, .mul1),
   (0x0219, .mul2),
   (0x021A, .mul4),
   (0x021B, .mul8),
   (0x021C, .div1),
   (0x021D, .div2),
   (0x021E, .div4),
   (0x021F, .div8),
   (0x0220, .divu1),
   (0x0221, .divu2),
   (0x0222, .divu4),
   (0x0223, .divu8),
   (0x0224, .mod1),
   (0x0225, .mod2),
   (0x0226, .mod4),
   (0x0227, .mod8),
   (0x0228, .modu1),
   (0x0229, .modu2),
   (0x022A, .modu4),
   (0x022B, .modu8),
   (0x022C, .cmp1),
   (0x022D, .cmp2),
   (0x022E, .cmp4),
   (0x022F, .cmp8)]

/-- The opcode map, format RR: floating point and register-indirect access (R91, R92). -/
def opcodeTableRRRest : OpcodeMap :=
  [(0x0240, .fadd4),
   (0x0241, .fadd8),
   (0x0242, .fsub4),
   (0x0243, .fsub8),
   (0x0244, .fmul4),
   (0x0245, .fmul8),
   (0x0246, .fdiv4),
   (0x0247, .fdiv8),
   (0x0250, .loadr1),
   (0x0251, .loadr2),
   (0x0252, .loadr4),
   (0x0253, .loadr8),
   (0x0254, .storer1),
   (0x0255, .storer2),
   (0x0256, .storer4),
   (0x0257, .storer8)]

/-- The opcode map, format RI (R91, R92). -/
def opcodeTableRI : OpcodeMap :=
  [(0x0300, .loadv),
   (0x0301, .cmpv),
   (0x0310, .load1),
   (0x0311, .load2),
   (0x0312, .load4),
   (0x0313, .load8),
   (0x0314, .store1),
   (0x0315, .store2),
   (0x0316, .store4),
   (0x0317, .store8),
   (0x0320, .jmp),
   (0x0321, .jeq),
   (0x0322, .jne),
   (0x0323, .jmi),
   (0x0324, .jpl),
   (0x0325, .jcs),
   (0x0326, .jcc),
   (0x0327, .jlt),
   (0x0328, .jge),
   (0x0330, .call),
   (0x0340, .svio),
   (0x0341, .loadio),
   (0x0342, .showio)]

/-- The opcode map of R91, the spec's default for OPCODE_MAP (00_scope.md R4). -/
def opcodeTable : OpcodeMap :=
  opcodeTableOp ++ opcodeTableR ++ opcodeTableRRInteger ++ opcodeTableRRRest ++ opcodeTableRI

/-- Table lookup: exactly the listed opcodes are defined, whatever range they lie in (R81, R89). -/
def lookupOpcode : OpcodeMap → Opcode → Option Mnemonic
  | [], _ => none
  | (o, m) :: rest, op => if o = op then some m else lookupOpcode rest op

/-- The format of each opcode the map defines (R81). -/
def formatOf (map : OpcodeMap) (op : Opcode) : Option Format :=
  (lookupOpcode map op).map fun m => m.builder.format

/-- The opcode number of an instruction: its first in the map, and 0 where the map does not have it. -/
def numberIn : OpcodeMap → Mnemonic → Opcode
  | [], _ => 0
  | (o, m') :: rest, m => if m' = m then o else numberIn rest m

/-- Every instruction has an opcode number in the map, and that number is read back as it. -/
def OpcodeMap.Complete (map : OpcodeMap) : Prop :=
  ∀ m : Mnemonic, lookupOpcode map (numberIn map m) = some m

/-- Bits 63:48 of an instruction word (R80). -/
def opcodeField (w : Word) : Opcode := w.extractLsb' 48 16

/-- Bits 47:44, the register of the formats R and RI (R83, R85). -/
def highRegField (w : Word) : Reg := (w.extractLsb' 44 4).toFin

/-- Bits 7:4, the first register of the format RR (R84). -/
def lowRdField (w : Word) : Reg := (w.extractLsb' 4 4).toFin

/-- Bits 3:0, the second register of the format RR (R84). -/
def lowRsField (w : Word) : Reg := (w.extractLsb' 0 4).toFin

/-- What decode answers: the transient record of R90 and the instruction it stands for. -/
structure Decoded where
  record : DecodedInst
  instr  : Instr
  deriving DecidableEq, Repr

/-- The operands of an instruction of known format, read from its word and, for format RI alone, from
what the second fetch gives: none where its bounds check fails (R90, R97). -/
def decodeAs (b : Builder) (w : Word) (next : Option Word) : Except DecodeError Decoded :=
  match b with
  | .op i =>
    .ok { record := ⟨opcodeField w, .op, none, none, none⟩, instr := i }
  | .r f =>
    .ok { record := ⟨opcodeField w, .r, some (highRegField w), none, none⟩
          instr := f (highRegField w) }
  | .rr f =>
    .ok { record := ⟨opcodeField w, .rr, some (lowRdField w), some (lowRsField w), none⟩
          instr := f (lowRdField w) (lowRsField w) }
  | .ri f =>
    match next with
    | none => .error (.noImmediate (opcodeField w))
    | some imm =>
      .ok { record := ⟨opcodeField w, .ri, some (highRegField w), none, some imm⟩
            instr := f (highRegField w) imm }

/-- Decode under an opcode map: the lookup, then the operands (R97). -/
def decode (map : OpcodeMap) (w : Word) (next : Option Word) : Except DecodeError Decoded :=
  match lookupOpcode map (opcodeField w) with
  | none => .error (.unknownOpcode (opcodeField w))
  | some m => decodeAs m.builder w next

/-- Length in bytes: 16 for format RI, 8 for the others (R86). -/
def Format.length : Format → Nat
  | .ri => 16
  | _ => 8

/-- Decode the instruction that a list of bytes begins with, and the bytes after it (R80, R86, R87). -/
def decodeBytes (map : OpcodeMap) (bs : List Byte) : Except BytesError (Decoded × List Byte) :=
  if bs.length < 8 then .error .noInstructionWord
  else
    let second := bs.drop 8
    let next := if second.length < 8 then none else some (wordOfBytesLE (second.take 8))
    match decode map (wordOfBytesLE (bs.take 8)) next with
    | .error e => .error (.rejected e)
    | .ok d => .ok (d, bs.drop d.record.format.length)

/-- The word of format OP (R82). -/
def wordOp (op : Opcode) : Word := op ++ (0 : BitVec 48)

/-- The first word of the formats R and RI (R83, R85). -/
def wordR (op : Opcode) (rd : Reg) : Word := op ++ (BitVec.ofFin rd : BitVec 4) ++ (0 : BitVec 44)

/-- The word of format RR (R84). -/
def wordRR (op : Opcode) (rd rs : Reg) : Word :=
  op ++ (0 : BitVec 40) ++ (BitVec.ofFin rd : BitVec 4) ++ (BitVec.ofFin rs : BitVec 4)

/-- The instruction's words, the first at the lower address, from the encodings of R82 to R88 and the
opcode numbers of the map. -/
def encode (map : OpcodeMap) : Instr → List Word
  | .parar => [wordOp (numberIn map .parar)]
  | .nop => [wordOp (numberIn map .nop)]
  | .ret => [wordOp (numberIn map .ret)]
  | .setz => [wordOp (numberIn map .setz)]
  | .clrz => [wordOp (numberIn map .clrz)]
  | .setn => [wordOp (numberIn map .setn)]
  | .clrn => [wordOp (numberIn map .clrn)]
  | .setc => [wordOp (numberIn map .setc)]
  | .clrc => [wordOp (numberIn map .clrc)]
  | .setv => [wordOp (numberIn map .setv)]
  | .clrv => [wordOp (numberIn map .clrv)]
  | .inc rd => [wordR (numberIn map .inc) rd]
  | .dec rd => [wordR (numberIn map .dec) rd]
  | .clear rd => [wordR (numberIn map .clear) rd]
  | .shl rd => [wordR (numberIn map .shl) rd]
  | .shr rd => [wordR (numberIn map .shr) rd]
  | .push1 rd => [wordR (numberIn map .push1) rd]
  | .push2 rd => [wordR (numberIn map .push2) rd]
  | .push4 rd => [wordR (numberIn map .push4) rd]
  | .push8 rd => [wordR (numberIn map .push8) rd]
  | .pop1 rd => [wordR (numberIn map .pop1) rd]
  | .pop2 rd => [wordR (numberIn map .pop2) rd]
  | .pop4 rd => [wordR (numberIn map .pop4) rd]
  | .pop8 rd => [wordR (numberIn map .pop8) rd]
  | .fsqrt4 rd => [wordR (numberIn map .fsqrt4) rd]
  | .fsqrt8 rd => [wordR (numberIn map .fsqrt8) rd]
  | .fsin4 rd => [wordR (numberIn map .fsin4) rd]
  | .fsin8 rd => [wordR (numberIn map .fsin8) rd]
  | .fcos4 rd => [wordR (numberIn map .fcos4) rd]
  | .fcos8 rd => [wordR (numberIn map .fcos8) rd]
  | .mov rd rs => [wordRR (numberIn map .mov) rd rs]
  | .and rd rs => [wordRR (numberIn map .and) rd rs]
  | .or rd rs => [wordRR (numberIn map .or) rd rs]
  | .xor rd rs => [wordRR (numberIn map .xor) rd rs]
  | .add1 rd rs => [wordRR (numberIn map .add1) rd rs]
  | .add2 rd rs => [wordRR (numberIn map .add2) rd rs]
  | .add4 rd rs => [wordRR (numberIn map .add4) rd rs]
  | .add8 rd rs => [wordRR (numberIn map .add8) rd rs]
  | .sub1 rd rs => [wordRR (numberIn map .sub1) rd rs]
  | .sub2 rd rs => [wordRR (numberIn map .sub2) rd rs]
  | .sub4 rd rs => [wordRR (numberIn map .sub4) rd rs]
  | .sub8 rd rs => [wordRR (numberIn map .sub8) rd rs]
  | .mul1 rd rs => [wordRR (numberIn map .mul1) rd rs]
  | .mul2 rd rs => [wordRR (numberIn map .mul2) rd rs]
  | .mul4 rd rs => [wordRR (numberIn map .mul4) rd rs]
  | .mul8 rd rs => [wordRR (numberIn map .mul8) rd rs]
  | .div1 rd rs => [wordRR (numberIn map .div1) rd rs]
  | .div2 rd rs => [wordRR (numberIn map .div2) rd rs]
  | .div4 rd rs => [wordRR (numberIn map .div4) rd rs]
  | .div8 rd rs => [wordRR (numberIn map .div8) rd rs]
  | .divu1 rd rs => [wordRR (numberIn map .divu1) rd rs]
  | .divu2 rd rs => [wordRR (numberIn map .divu2) rd rs]
  | .divu4 rd rs => [wordRR (numberIn map .divu4) rd rs]
  | .divu8 rd rs => [wordRR (numberIn map .divu8) rd rs]
  | .mod1 rd rs => [wordRR (numberIn map .mod1) rd rs]
  | .mod2 rd rs => [wordRR (numberIn map .mod2) rd rs]
  | .mod4 rd rs => [wordRR (numberIn map .mod4) rd rs]
  | .mod8 rd rs => [wordRR (numberIn map .mod8) rd rs]
  | .modu1 rd rs => [wordRR (numberIn map .modu1) rd rs]
  | .modu2 rd rs => [wordRR (numberIn map .modu2) rd rs]
  | .modu4 rd rs => [wordRR (numberIn map .modu4) rd rs]
  | .modu8 rd rs => [wordRR (numberIn map .modu8) rd rs]
  | .cmp1 rd rs => [wordRR (numberIn map .cmp1) rd rs]
  | .cmp2 rd rs => [wordRR (numberIn map .cmp2) rd rs]
  | .cmp4 rd rs => [wordRR (numberIn map .cmp4) rd rs]
  | .cmp8 rd rs => [wordRR (numberIn map .cmp8) rd rs]
  | .fadd4 rd rs => [wordRR (numberIn map .fadd4) rd rs]
  | .fadd8 rd rs => [wordRR (numberIn map .fadd8) rd rs]
  | .fsub4 rd rs => [wordRR (numberIn map .fsub4) rd rs]
  | .fsub8 rd rs => [wordRR (numberIn map .fsub8) rd rs]
  | .fmul4 rd rs => [wordRR (numberIn map .fmul4) rd rs]
  | .fmul8 rd rs => [wordRR (numberIn map .fmul8) rd rs]
  | .fdiv4 rd rs => [wordRR (numberIn map .fdiv4) rd rs]
  | .fdiv8 rd rs => [wordRR (numberIn map .fdiv8) rd rs]
  | .loadr1 rd rs => [wordRR (numberIn map .loadr1) rd rs]
  | .loadr2 rd rs => [wordRR (numberIn map .loadr2) rd rs]
  | .loadr4 rd rs => [wordRR (numberIn map .loadr4) rd rs]
  | .loadr8 rd rs => [wordRR (numberIn map .loadr8) rd rs]
  | .storer1 rd rs => [wordRR (numberIn map .storer1) rd rs]
  | .storer2 rd rs => [wordRR (numberIn map .storer2) rd rs]
  | .storer4 rd rs => [wordRR (numberIn map .storer4) rd rs]
  | .storer8 rd rs => [wordRR (numberIn map .storer8) rd rs]
  | .loadv rd imm => [wordR (numberIn map .loadv) rd, imm]
  | .cmpv rd imm => [wordR (numberIn map .cmpv) rd, imm]
  | .load1 rd imm => [wordR (numberIn map .load1) rd, imm]
  | .load2 rd imm => [wordR (numberIn map .load2) rd, imm]
  | .load4 rd imm => [wordR (numberIn map .load4) rd, imm]
  | .load8 rd imm => [wordR (numberIn map .load8) rd, imm]
  | .store1 rd imm => [wordR (numberIn map .store1) rd, imm]
  | .store2 rd imm => [wordR (numberIn map .store2) rd, imm]
  | .store4 rd imm => [wordR (numberIn map .store4) rd, imm]
  | .store8 rd imm => [wordR (numberIn map .store8) rd, imm]
  | .jmp imm => [wordR (numberIn map .jmp) 0, imm]
  | .jeq imm => [wordR (numberIn map .jeq) 0, imm]
  | .jne imm => [wordR (numberIn map .jne) 0, imm]
  | .jmi imm => [wordR (numberIn map .jmi) 0, imm]
  | .jpl imm => [wordR (numberIn map .jpl) 0, imm]
  | .jcs imm => [wordR (numberIn map .jcs) 0, imm]
  | .jcc imm => [wordR (numberIn map .jcc) 0, imm]
  | .jlt imm => [wordR (numberIn map .jlt) 0, imm]
  | .jge imm => [wordR (numberIn map .jge) 0, imm]
  | .call imm => [wordR (numberIn map .call) 0, imm]
  | .svio rd imm => [wordR (numberIn map .svio) rd, imm]
  | .loadio rd imm => [wordR (numberIn map .loadio) rd, imm]
  | .showio imm => [wordR (numberIn map .showio) 0, imm]

/-- The instruction's bytes in address order (R80). -/
def encodeBytes (map : OpcodeMap) (i : Instr) : List Byte :=
  (encode map i).flatMap fun w => bytesLE 8 w.toNat

/-- The instruction that decode reads from an instruction whose bits are `w`, numbered with bit 0 the
least significant bit of the first word and the second word's bits counting on from bit 64. The bits
from `nbits` up are 0. The map is that of R91. -/
def decodeTableWord (nbits w : Nat) : Option Instr :=
  match decodeBytes opcodeTable (bytesLE 16 (w % 2 ^ nbits)) with
  | .ok (d, _) => some d.instr
  | .error _ => none

end Sys2Proof
end

