-- ==== Sys2Proof/Machine/Defaults.lean ====
section
/-! DEFINITION. Defaults.lean: the default value of each implementation parameter (00_scope.md R4) and
the launch values that State.reset takes (10_state.md R37; log entries 1 to 7). -/

namespace Sys2Proof

/-- FP_NAN(4), the canonical quiet NaN of binary32 (41_fpu.md R160). -/
def canonicalNan32 : Word := 0x7FC00000

/-- FP_NAN(8), the canonical quiet NaN of binary64 (R160). -/
def canonicalNan64 : Word := 0x7FF8000000000000

/-- The defaults of R4: the opcode map of 30_encoding.md R91, 65536 bytes, trunc, self, floor 0, the canonical NaN in every case. -/
def Config.defaults : Config where
  opcodeMap := opcodeTable
  memSize := 65536
  divMode := .trunc
  shiftMode := .self
  stackFloor := 0
  nan32 := canonicalNan32
  nan64 := canonicalNan64
  nanCases := []

/-- INIT_PC of State.reset: the spec's programs are loaded at address 0 (95_test_vectors.md,
section 3). DESIGN CHOICE, log entry 3. -/
def resetPc : Word := 0

/-- INIT_REGS of State.reset, SP included. DESIGN CHOICE, log entries 2 and 3. -/
def resetRegs : Vector Word 16 := Vector.replicate 16 0

/-- The I/O address of the one device of the default IO_MAP (R4, 44_io.md R245). -/
def defaultScreenAddress : Word := 0x30

end Sys2Proof
end

