-- ==== Sys2Proof/Machine/State.lean ====
section
/-! DEFINITION. State.lean: the state of the machine as plain data, the reasons a step can stop, and the
state after reset. INVENTORY.md lists each field with the rule that names it. -/

namespace Sys2Proof.Machine

/-- The four flags (10_state.md R25). -/
structure Flags where
  z : Bool
  n : Bool
  c : Bool
  v : Bool
  deriving DecidableEq, Repr

/-- The kinds of fatal error (60_exceptions.md R281). -/
inductive FatalKind where
  | decodeError
  | addressError
  | stackOverflow
  | stackUnderflow
  | runawayProgram
  deriving DecidableEq, Repr

/-- The report of a fatal error (60_exceptions.md R287). -/
structure FaultRecord where
  kind    : FatalKind
  ipc     : Word
  opcode  : Option Opcode
  address : Option Word
  deriving DecidableEq, Repr

/-- The non-fatal warnings (00_scope.md R7, 41_fpu.md R172, 44_io.md R241 to R243). -/
inductive Warning where
  /-- FDIV with a divisor of either zero (R178). -/
  | fpDivisionByZero
  /-- FSQRT of a value below zero (R179). -/
  | sqrtOfNegative
  /-- SVIO at an address with no device that can be written (R241). -/
  | unmappedIoWrite
  /-- LOADIO at an address with no device that can be read (R242). -/
  | unmappedIoRead
  /-- SHOWIO at an address with no device that can be shown (R243). -/
  | unmappedIoShow
  deriving DecidableEq, Repr

/-- A device of the registry with its state (44_io.md R240, R245, R246). -/
inductive Device where
  /-- Write and show only; `last` is the most recently written value (R245). -/
  | screen (last : Word)
  /-- A FIFO with its head first; read and write only (R246). -/
  | keyboard (fifo : List Word)
  /-- Any other pluggable device: which behaviours it has (R240). What it does with a value, and what
  it answers, the spec does not give (log entry 8). -/
  | other (canRead canWrite canShow : Bool)
  deriving DecidableEq, Repr

/-- A call the core made on a device (44_io.md R241 to R243). -/
inductive DeviceCall where
  | write (addr value : Word)
  | read (addr value : Word)
  | shown (addr : Word)
  deriving DecidableEq, Repr

/-- The current call of run: its ceiling and the steps it has executed (70_reset_and_hazards.md R312). -/
structure RunCall where
  maxCycles : Nat
  cycles    : Nat
  deriving DecidableEq, Repr

/-- Memory as the bytes that differ from what an unlisted address reads as, by rising address. -/
abbrev Memory := List Host.Cell

/-- The state of the machine (10_state.md). -/
structure State where
  /-- The implementation parameters (00_scope.md R4); no step changes them. -/
  cfg      : Config
  /-- x[0] to x[15]; x[15] is SP (R20, R32). -/
  regs     : Vector Word 16
  /-- Z, N, C, V (R25). -/
  flags    : Flags
  /-- The program counter (R29). -/
  pc       : Word
  /-- Running or not (R33). -/
  running  : Bool
  /-- The fault record; some means Faulted (R36). -/
  fault    : Option FaultRecord
  /-- Address of the instruction word being executed (R36). -/
  ipc      : Word
  /-- The transient Instruction, between decode and execute only (R36). -/
  inst     : Option DecodedInst
  /-- The run call the host is in; none while it steps with tick (R36, R312). -/
  call     : Option RunCall
  /-- Memory (20_memory.md R50). -/
  mem      : Memory
  /-- The device registry IO_MAP with the devices' state (44_io.md R240). -/
  io       : List (Word × Device)
  /-- The device calls made so far, oldest first; the model's own record (log entry 8). -/
  ioCalls  : List DeviceCall
  /-- The warning log, oldest first (R36). -/
  warnings : List Warning
  /-- How many free answers of `other` devices have been used; the model's own (log entry 8). -/
  draws    : Nat
  deriving DecidableEq, Repr

/-- Why a step stops. -/
inductive Fault where
  /-- Raised by `step` on a Faulted core: the recorded error is returned and nothing changes
  (70_reset_and_hazards.md R314). Safe: the machine itself has stopped there. -/
  | fatal (r : FaultRecord)
  deriving DecidableEq, Repr

/-- Why a step has no meaning. -/
inductive Refusal where
  /-- Raised only by an arm of `exec` whose instruction has no meaning yet; there is none. Safe. -/
  | notModelled (mnemonic : String)
  deriving DecidableEq, Repr

/-- What a meaning answers. -/
abbrev Result := Host.Outcome State Fault Refusal

/-- The state at launch (10_state.md R37, 70_reset_and_hazards.md R315): Running, no fault, and the
launch arguments at the values the log entries 1 to 7 name. Nothing is listed in Memory. -/
def State.reset : State where
  cfg := Config.defaults
  regs := resetRegs
  flags := { z := false, n := false, c := false, v := false }
  pc := resetPc
  running := true
  fault := none
  ipc := 0
  inst := none
  call := none
  mem := []
  io := [(defaultScreenAddress, .screen 0)]
  ioCalls := []
  warnings := []
  draws := 0

end Sys2Proof.Machine
end

