-- ==== Sys2Proof/Machine/Ops.lean ====
section
/-! DEFINITION. Ops.lean: the named operations over Memory, the register file, the fault record, the
warning log and the device registry. A fatal error is taken by ONE operation, `State.fatal`. -/

namespace Sys2Proof.Machine

/-! ### Memory (20_memory.md) -/

/-- What an address that Memory does not list reads as (DESIGN CHOICE, log entry 4). -/
def Memory.unlisted : Byte := 0

/-- The byte at an address. -/
def Memory.readByte : Memory → Nat → Byte
  | [], _ => Memory.unlisted
  | (k, b) :: m, a => if k = a then b else Memory.readByte m a

/-- A listed byte in front of the rest, unless it is what an unlisted address reads as. -/
def Memory.cons (a : Nat) (v : Byte) (m : Memory) : Memory :=
  if v = Memory.unlisted then m else (a, v) :: m

/-- Memory with one byte written, in canonical form. -/
def Memory.writeByte : Memory → Nat → Byte → Memory
  | [], a, v => Memory.cons a v []
  | (k, b) :: m, a, v =>
    if a < k then Memory.cons a v ((k, b) :: m)
    else if a = k then Memory.cons a v m
    else (k, b) :: Memory.writeByte m a v

/-- The n bytes from an address on, in address order (R54). -/
def Memory.readBytes (m : Memory) (a : Nat) : Nat → List Byte
  | 0 => []
  | n + 1 => m.readByte a :: m.readBytes (a + 1) n

/-- Memory with some bytes written from an address on, in address order (R53). -/
def Memory.writeBytes (m : Memory) (a : Nat) : List Byte → Memory
  | [] => m
  | b :: bs => (m.writeByte a b).writeBytes (a + 1) bs

/-- Strictly rising addresses from `lo` on, and no entry equal to what an unlisted address reads as. -/
def Memory.wfFrom : Nat → Memory → Bool
  | _, [] => true
  | lo, (k, b) :: m => decide (lo ≤ k) && decide (b ≠ Memory.unlisted) && Memory.wfFrom (k + 1) m

/-- The canonical form of Memory. -/
def Memory.wf (m : Memory) : Bool := Memory.wfFrom 0 m

/-- Every listed address is below a bound. -/
def Memory.below (bound : Nat) (m : Memory) : Bool := m.all fun c => decide (c.1 < bound)

/-- The bounds check, on unbounded integers (R55). -/
def State.inRange (s : State) (addr : Word) (n : Nat) : Bool :=
  decide (addr.toNat + n ≤ s.cfg.memSize)

/-- The byte of Memory at an address, in range or not. -/
def State.byteAt (s : State) (a : Nat) : Byte := s.mem.readByte a

/-- `MemRead(addr, sz)`; none stands for AddressError(addr) (R52). -/
def State.memRead (s : State) (addr : Word) (z : Size) : Option Word :=
  if s.inRange addr z.bytes then some (wordOfBytesLE (s.mem.readBytes addr.toNat z.bytes))
  else none

/-- `MemWrite(addr, sz, v)`; none stands for AddressError(addr), with no byte written (R53, R55). -/
def State.memWrite (s : State) (addr : Word) (z : Size) (v : Word) : Option State :=
  if s.inRange addr z.bytes then
    some { s with mem := s.mem.writeBytes addr.toNat (bytesLE z.bytes (uval v z)) }
  else none

/-- The byte port `get_bytes(addr, n)`; none stands for AddressError(addr) (R54). -/
def State.getBytes (s : State) (addr : Word) (n : Nat) : Option (List Byte) :=
  if s.inRange addr n then some (s.mem.readBytes addr.toNat n) else none

/-- The host's write of some bytes between steps (60_exceptions.md R298). Where any of them lies outside
Memory the whole write is dropped and no error is recorded, a case the spec leaves open. DESIGN CHOICE,
log entry 18. -/
def State.poke (s : State) (addr : Word) (bs : List Byte) : State :=
  if s.inRange addr bs.length then { s with mem := s.mem.writeBytes addr.toNat bs } else s

/-! ### Registers and flags (10_state.md) -/

/-- `x[i]`, all 64 bits. -/
def State.x (s : State) (i : Reg) : Word := s.regs.get i

/-- `x[i] <- v`, all 64 bits. -/
def State.setX (s : State) (i : Reg) (v : Word) : State := { s with regs := s.regs.set i v }

/-- The sized read port (R21). -/
def State.readReg (s : State) (i : Reg) (z : Size) : Word := mask (s.x i) z

/-- The sized write port: the masked value replaces the whole register (R22). -/
def State.writeReg (s : State) (i : Reg) (v : Word) (z : Size) : State := s.setX i (mask v z)

/-- The stack pointer's register number (R20). -/
def spReg : Reg := 15

/-- SP (R32). -/
def State.sp (s : State) : Word := s.x spReg

/-- SP written. -/
def State.setSp (s : State) (v : Word) : State := s.setX spReg v

/-- The write-all port of the flag unit (R26). -/
def State.setFlags (s : State) (f : Flags) : State := { s with flags := f }

/-- The program counter written (R29). -/
def State.setPc (s : State) (a : Word) : State := { s with pc := a }

/-! ### Fatal errors and warnings (60_exceptions.md) -/

/-- Taking a fatal error (R286, R287): the step is undone, which within a step means the pc returns to
the instruction word; the report is recorded; the core stops and is Faulted. Every check of an
instruction comes before its first write (R286), so nothing else has changed. -/
def State.fatal (s : State) (kind : FatalKind) (opcode : Option Opcode) (address : Option Word) :
    State :=
  { s with
    pc := s.ipc
    running := false
    fault := some { kind := kind, ipc := s.ipc, opcode := opcode, address := address } }

/-- A fatal error raised while an instruction executes: the opcode is that of the transient
Instruction (R287). -/
def State.raise (s : State) (kind : FatalKind) (address : Word) : State :=
  s.fatal kind (s.inst.map DecodedInst.opcode) (some address)

/-- `warn(msg)`: an entry in the warning log and nothing else (00_scope.md R7). -/
def State.warn (s : State) (w : Warning) : State := { s with warnings := s.warnings ++ [w] }

/-- `warn(msg)` under a condition. -/
def State.warnIf (s : State) (c : Bool) (w : Warning) : State := if c then s.warn w else s

/-! ### The I/O address space (44_io.md) -/

/-- The device registered at an address, if any (R240). -/
def deviceAt : List (Word × Device) → Word → Option Device
  | [], _ => none
  | (k, d) :: io, a => if k = a then some d else deviceAt io a

/-- The registry with the device at an address in a new state. -/
def setDeviceAt : List (Word × Device) → Word → Device → List (Word × Device)
  | [], _, _ => []
  | (k, d) :: io, a, d' => if k = a then (k, d') :: io else (k, d) :: setDeviceAt io a d'

/-- Does the device have a write behaviour (R240, R245, R246)? -/
def Device.canWrite : Device → Bool
  | .screen _ => true
  | .keyboard _ => true
  | .other _ w _ => w

/-- Does the device have a read behaviour? A Screen has none (R245). -/
def Device.canRead : Device → Bool
  | .screen _ => false
  | .keyboard _ => true
  | .other r _ _ => r

/-- Does the device have a show behaviour? A Keyboard has none (R246). -/
def Device.canShow : Device → Bool
  | .screen _ => true
  | .keyboard _ => false
  | .other _ _ s => s

/-- `D.write(v)`: a Screen keeps the value, a Keyboard appends it at the tail (R245, R246). -/
def Device.write : Device → Word → Device
  | .screen _, v => .screen v
  | .keyboard q, v => .keyboard (q ++ [v])
  | .other r w s, _ => .other r w s

/-- The device after `D.read()`: a Keyboard's head is consumed (R246). -/
def Device.afterRead : Device → Device
  | .keyboard q => .keyboard q.tail
  | .screen l => .screen l
  | .other r w s => .other r w s

/-- What `D.read()` answers: a Keyboard's head, or 0 from an empty FIFO (R246); the answer of any
other device is free, numbered by `draws` (log entry 8). -/
def Device.answer : Device → Nat → Word
  | .keyboard q, _ => q.headD 0
  | .screen _, _ => 0
  | .other _ _ _, n => Config.deviceAnswer n

/-- How many free answers a read uses. -/
def Device.drawsOnRead : Device → Nat
  | .other _ _ _ => 1
  | .keyboard _ => 0
  | .screen _ => 0

/-- A device call recorded. -/
def State.logCall (s : State) (c : DeviceCall) : State := { s with ioCalls := s.ioCalls ++ [c] }

/-- `IoWrite(a, v)` (R241). -/
def State.ioWrite (s : State) (a v : Word) : State :=
  match deviceAt s.io a with
  | some d =>
    if d.canWrite then
      { s with io := setDeviceAt s.io a (d.write v) }.logCall (.write a v)
    else s.warn .unmappedIoWrite
  | none => s.warn .unmappedIoWrite

/-- The value `IoRead(a)` returns (R242). -/
def State.ioReadValue (s : State) (a : Word) : Word :=
  match deviceAt s.io a with
  | some d => if d.canRead then d.answer s.draws else 0
  | none => 0

/-- The state after `IoRead(a)` (R242, R246). -/
def State.ioReadEffect (s : State) (a : Word) : State :=
  match deviceAt s.io a with
  | some d =>
    if d.canRead then
      { s with io := setDeviceAt s.io a d.afterRead
               draws := s.draws + d.drawsOnRead }.logCall (.read a (d.answer s.draws))
    else s.warn .unmappedIoRead
  | none => s.warn .unmappedIoRead

/-- `IoShow(a)`: no core or device state changes; the call is recorded (R243). -/
def State.ioShow (s : State) (a : Word) : State :=
  match deviceAt s.io a with
  | some d => if d.canShow then s.logCall (.shown a) else s.warn .unmappedIoShow
  | none => s.warn .unmappedIoShow

end Sys2Proof.Machine
end

