-- ==== Sys2Proof/Machine/Flags.lean ====
section
/-! DEFINITION. Flags.lean: the flag laws of the integer ALU (40_alu_integer.md R112 to R117), of the
floating-point unit (41_fpu.md R167 to R169), the predicates of the nine jumps (43_control_stack.md
R211) and the single-flag ports (10_state.md R26). Values are unsigned numbers below 2^n. -/

namespace Sys2Proof.Machine

/-- What the ALU or the FPU answers: the result and the four flags (R110, R161). -/
structure UnitOut where
  r     : Nat
  flags : Flags
  deriving DecidableEq, Repr

/-- Z and N of a masked result (R112). -/
def flagZ (r : Nat) : Bool := r == 0

/-- N of a masked result at size sz (R112). -/
def flagN (r : Nat) (z : Size) : Bool := msbOf r z

/-- A masked result with Z and N from it and the given C and V (R111, R112). -/
def aluOut (r : Nat) (z : Size) (c v : Bool) : UnitOut :=
  { r := r, flags := { z := flagZ r, n := flagN r z, c := c, v := v } }

/-- C of add: the unmasked sum exceeds UMAX (R113). -/
def addCarry (a b : Nat) (z : Size) : Bool := decide (z.umax < a + b)

/-- V of add: the operands share a sign and the result's sign differs (R113). -/
def addOverflow (a b r : Nat) (z : Size) : Bool :=
  msbOf a z == msbOf b z && msbOf r z != msbOf a z

/-- C of sub: a borrow, a < b unsigned (R114). -/
def subBorrow (a b : Nat) : Bool := decide (a < b)

/-- V of sub: the operands' signs differ and the result's differs from the minuend's (R114). -/
def subOverflow (a b r : Nat) (z : Size) : Bool :=
  msbOf a z != msbOf b z && msbOf r z != msbOf a z

/-- C of mul: the unsigned product exceeds UMAX (R115). -/
def mulCarry (a b : Nat) (z : Size) : Bool := decide (z.umax < a * b)

/-- V of mul: the signed product lies outside SMIN to SMAX (R115). -/
def mulOverflow (a b : Nat) (z : Size) : Bool :=
  !(decide (z.smin ≤ signedOf a z * signedOf b z) && decide (signedOf a z * signedOf b z ≤ z.smax))

/-- V of a signed division with this quotient: only SMIN / -1 sets it (R116). -/
def divOverflow (q : Int) (z : Size) : Bool := decide (z.smax < q)

/-- Division or modulo by zero: result 0, Z = 1, N = 0, C = 0, V = 1, no error (R116, R117, R289). -/
def byZeroOut : UnitOut := { r := 0, flags := { z := true, n := false, c := false, v := true } }

/-- One flag of the flag unit. -/
inductive FlagName where
  | z
  | n
  | c
  | v
  deriving DecidableEq, Repr

/-- The single-bit set and clear ports (10_state.md R26). -/
def Flags.put (f : Flags) (i : FlagName) (b : Bool) : Flags :=
  match i with
  | .z => { f with z := b }
  | .n => { f with n := b }
  | .c => { f with c := b }
  | .v => { f with v := b }

/-- The clear-all port, used by CLEAR (R26, 42_memory_access.md R197). -/
def Flags.cleared : Flags := { z := false, n := false, c := false, v := false }

/-- The predicates the jumps test (43_control_stack.md R211). -/
inductive Condition where
  | always
  | zSet
  | zClear
  | nSet
  | nClear
  | cSet
  | cClear
  | signedLess
  | signedGreaterEq
  deriving DecidableEq, Repr

/-- The branch-condition evaluator (R211). -/
def Condition.holds (k : Condition) (f : Flags) : Bool :=
  match k with
  | .always => true
  | .zSet => f.z
  | .zClear => !f.z
  | .nSet => f.n
  | .nClear => !f.n
  | .cSet => f.c
  | .cClear => !f.c
  | .signedLess => f.v ^^ f.n
  | .signedGreaterEq => !(f.v ^^ f.n)

end Sys2Proof.Machine
end

