-- ==== Sys2Proof/Machine/Operands.lean ====
section
/-! DEFINITION. Operands.lean: the ways an instruction forms a Memory address (42_memory_access.md R190)
and moves data between a register and Memory, with the error each raises. -/

namespace Sys2Proof.Machine

/-- The register-indirect address: all 64 bits of x[rs] (R190). -/
def State.indirect (s : State) (rs : Reg) : Word := s.x rs

/-- The address a push writes at: SP (43_control_stack.md R221). -/
def State.pushAddress (s : State) : Word := s.sp

/-- The address a pop of k bytes reads at: SP - k (R221). -/
def State.popAddress (s : State) (k : Nat) : Word := s.sp - BitVec.ofNat 64 k

/-- A load of size z into rd; AddressError(a) leaves rd unchanged (42_memory_access.md R191, R193). -/
def loadInto (z : Size) (rd : Reg) (a : Word) (s : State) : Result :=
  match s.memRead a z with
  | none => .next (s.raise .addressError a)
  | some v => .next (s.writeReg rd v z)

/-- A store of the low bytes of rd; AddressError(a) writes no byte (R192, R194). -/
def storeFrom (z : Size) (rd : Reg) (a : Word) (s : State) : Result :=
  match s.memWrite a z (s.readReg rd z) with
  | none => .next (s.raise .addressError a)
  | some t => .next t

/-- Would a push of k bytes exceed Memory (43_control_stack.md R222)? -/
def State.pushOverflows (s : State) (k : Nat) : Bool := decide (s.cfg.memSize < s.sp.toNat + k)

/-- Is the stack insufficient for a pop of k bytes (R223)? -/
def State.popUnderflows (s : State) (k : Nat) : Bool := decide (s.sp.toNat < s.cfg.stackFloor + k)

/-- A push of a value: StackOverflow(SP), or the value at [SP, SP+k) and then SP <- SP + k, followed by
the rest of the instruction (R221, R222). -/
def pushThen (z : Size) (v : Word) (s : State) (rest : State → State) : Result :=
  if s.pushOverflows z.bytes then .next (s.raise .stackOverflow s.sp)
  else
    match s.memWrite s.pushAddress z v with
    | none => .next (s.raise .addressError s.pushAddress)
    | some t => .next (rest (t.setSp (s.sp + BitVec.ofNat 64 z.bytes)))

/-- A pop: StackUnderflow(SP), AddressError(SP - k), or SP <- SP - k and then the rest of the
instruction with the value read (R221, R223, R225, R227). -/
def popThen (z : Size) (s : State) (rest : Word → State → State) : Result :=
  if s.popUnderflows z.bytes then .next (s.raise .stackUnderflow s.sp)
  else
    match s.memRead (s.popAddress z.bytes) z with
    | none => .next (s.raise .addressError (s.popAddress z.bytes))
    | some v => .next (rest v (s.setSp (s.popAddress z.bytes)))

end Sys2Proof.Machine
end

