-- ==== Sys2Proof/Machine/Access.lean ====
section
/-! DEFINITION. Access.lean: memory access and data movement (42_memory_access.md R191 to R197). -/

namespace Sys2Proof.Machine

/-- LOAD1: Rd <- M[imm], 1 bytes, zero-extended (R191). -/
def execLoad1 (rd : Reg) (imm : Word) (s : State) : Result :=
  loadInto .b1 rd imm s

/-- LOAD2: Rd <- M[imm], 2 bytes, zero-extended (R191). -/
def execLoad2 (rd : Reg) (imm : Word) (s : State) : Result :=
  loadInto .b2 rd imm s

/-- LOAD4: Rd <- M[imm], 4 bytes, zero-extended (R191). -/
def execLoad4 (rd : Reg) (imm : Word) (s : State) : Result :=
  loadInto .b4 rd imm s

/-- LOAD8: Rd <- M[imm], 8 bytes, zero-extended (R191). -/
def execLoad8 (rd : Reg) (imm : Word) (s : State) : Result :=
  loadInto .b8 rd imm s

/-- STORE1: M[imm] <- the low 1 bytes of Rd (R192). -/
def execStore1 (rd : Reg) (imm : Word) (s : State) : Result :=
  storeFrom .b1 rd imm s

/-- STORE2: M[imm] <- the low 2 bytes of Rd (R192). -/
def execStore2 (rd : Reg) (imm : Word) (s : State) : Result :=
  storeFrom .b2 rd imm s

/-- STORE4: M[imm] <- the low 4 bytes of Rd (R192). -/
def execStore4 (rd : Reg) (imm : Word) (s : State) : Result :=
  storeFrom .b4 rd imm s

/-- STORE8: M[imm] <- the low 8 bytes of Rd (R192). -/
def execStore8 (rd : Reg) (imm : Word) (s : State) : Result :=
  storeFrom .b8 rd imm s

/-- LOADR1: Rd <- M[Rs], 1 bytes, zero-extended (R193). -/
def execLoadr1 (rd rs : Reg) (s : State) : Result :=
  loadInto .b1 rd (s.indirect rs) s

/-- LOADR2: Rd <- M[Rs], 2 bytes, zero-extended (R193). -/
def execLoadr2 (rd rs : Reg) (s : State) : Result :=
  loadInto .b2 rd (s.indirect rs) s

/-- LOADR4: Rd <- M[Rs], 4 bytes, zero-extended (R193). -/
def execLoadr4 (rd rs : Reg) (s : State) : Result :=
  loadInto .b4 rd (s.indirect rs) s

/-- LOADR8: Rd <- M[Rs], 8 bytes, zero-extended (R193). -/
def execLoadr8 (rd rs : Reg) (s : State) : Result :=
  loadInto .b8 rd (s.indirect rs) s

/-- STORER1: M[Rs] <- the low 1 bytes of Rd (R194). -/
def execStorer1 (rd rs : Reg) (s : State) : Result :=
  storeFrom .b1 rd (s.indirect rs) s

/-- STORER2: M[Rs] <- the low 2 bytes of Rd (R194). -/
def execStorer2 (rd rs : Reg) (s : State) : Result :=
  storeFrom .b2 rd (s.indirect rs) s

/-- STORER4: M[Rs] <- the low 4 bytes of Rd (R194). -/
def execStorer4 (rd rs : Reg) (s : State) : Result :=
  storeFrom .b4 rd (s.indirect rs) s

/-- STORER8: M[Rs] <- the low 8 bytes of Rd (R194). -/
def execStorer8 (rd rs : Reg) (s : State) : Result :=
  storeFrom .b8 rd (s.indirect rs) s

/-- LOADV: Rd <- imm (R195). -/
def execLoadv (rd : Reg) (imm : Word) (s : State) : Result :=
  .next (s.setX rd imm)

/-- MOV: Rd <- Rs, all 64 bits (R196). -/
def execMov (rd rs : Reg) (s : State) : Result :=
  .next (s.setX rd (s.x rs))

/-- CLEAR: Rd <- 0 and all four flags 0 (R197). -/
def execClear (rd : Reg) (s : State) : Result :=
  .next ((s.setX rd 0).setFlags Flags.cleared)

end Sys2Proof.Machine
end

