-- ==== Sys2Proof/Machine/Control.lean ====
section
/-! DEFINITION. Control.lean: jumps, calls and the stack (43_control_stack.md R212 to R227). -/

namespace Sys2Proof.Machine

/-- A jump: pc <- imm where the predicate holds; otherwise pc stays past the instruction
(43_control_stack.md R211). -/
def jumpIf (k : Condition) (imm : Word) (s : State) : Result :=
  .next (if k.holds s.flags then s.setPc imm else s)

/-- JMP: jump to imm: always (R212). -/
def execJmp (imm : Word) (s : State) : Result :=
  jumpIf .always imm s

/-- JEQ: jump to imm: Z = 1 (R213). -/
def execJeq (imm : Word) (s : State) : Result :=
  jumpIf .zSet imm s

/-- JNE: jump to imm: Z = 0 (R214). -/
def execJne (imm : Word) (s : State) : Result :=
  jumpIf .zClear imm s

/-- JMI: jump to imm: N = 1 (R215). -/
def execJmi (imm : Word) (s : State) : Result :=
  jumpIf .nSet imm s

/-- JPL: jump to imm: N = 0 (R216). -/
def execJpl (imm : Word) (s : State) : Result :=
  jumpIf .nClear imm s

/-- JCS: jump to imm: C = 1 (R217). -/
def execJcs (imm : Word) (s : State) : Result :=
  jumpIf .cSet imm s

/-- JCC: jump to imm: C = 0 (R218). -/
def execJcc (imm : Word) (s : State) : Result :=
  jumpIf .cClear imm s

/-- JLT: jump to imm: (V xor N) = 1 (R219). -/
def execJlt (imm : Word) (s : State) : Result :=
  jumpIf .signedLess imm s

/-- JGE: jump to imm: (V xor N) = 0 (R220). -/
def execJge (imm : Word) (s : State) : Result :=
  jumpIf .signedGreaterEq imm s

/-- CALL: push the return address, the pc past both words, and jump to imm (R224). -/
def execCall (imm : Word) (s : State) : Result :=
  pushThen .b8 s.pc s fun t => t.setPc imm

/-- RET: pop the return address into pc (R225). -/
def execRet (s : State) : Result :=
  popThen .b8 s fun v t => t.setPc v

/-- PUSH1: push the low 1 bytes of Rd, as Rd stood before the push (R226). -/
def execPush1 (rd : Reg) (s : State) : Result :=
  pushThen .b1 (s.readReg rd .b1) s id

/-- PUSH2: push the low 2 bytes of Rd, as Rd stood before the push (R226). -/
def execPush2 (rd : Reg) (s : State) : Result :=
  pushThen .b2 (s.readReg rd .b2) s id

/-- PUSH4: push the low 4 bytes of Rd, as Rd stood before the push (R226). -/
def execPush4 (rd : Reg) (s : State) : Result :=
  pushThen .b4 (s.readReg rd .b4) s id

/-- PUSH8: push the low 8 bytes of Rd, as Rd stood before the push (R226). -/
def execPush8 (rd : Reg) (s : State) : Result :=
  pushThen .b8 (s.readReg rd .b8) s id

/-- POP1: pop 1 bytes, zero-extended, into Rd, which is written after SP (R227). -/
def execPop1 (rd : Reg) (s : State) : Result :=
  popThen .b1 s fun v t => t.writeReg rd v .b1

/-- POP2: pop 2 bytes, zero-extended, into Rd, which is written after SP (R227). -/
def execPop2 (rd : Reg) (s : State) : Result :=
  popThen .b2 s fun v t => t.writeReg rd v .b2

/-- POP4: pop 4 bytes, zero-extended, into Rd, which is written after SP (R227). -/
def execPop4 (rd : Reg) (s : State) : Result :=
  popThen .b4 s fun v t => t.writeReg rd v .b4

/-- POP8: pop 8 bytes, zero-extended, into Rd, which is written after SP (R227). -/
def execPop8 (rd : Reg) (s : State) : Result :=
  popThen .b8 s fun v t => t.writeReg rd v .b8

end Sys2Proof.Machine
end

