-- ==== Sys2Proof/Machine/Float.lean ====
section
/-! DEFINITION. Float.lean: the block fp_unit_ieee754 (41_fpu.md R160 to R174) on raw bit patterns, as
numbers below 2^32 or 2^64. A finite pattern stands for the exact value (-1)^neg * m * 2^e; add, sub,
mul, div and sqrt compute exactly (a quotient or root with enough bits and one sticky bit) and round
once, to nearest with ties to even (R163), with gradual underflow (R164) and overflow to infinity (R166). -/

namespace Sys2Proof.Machine

/-- Width of the pattern in bits (R160). -/
def fpWidth : FpFormat → Nat
  | .binary32 => 32
  | .binary64 => 64

/-- Number of fraction bits (R160). -/
def fpFracBits : FpFormat → Nat
  | .binary32 => 23
  | .binary64 => 52

/-- Number of exponent bits (R160). -/
def fpExpBits : FpFormat → Nat
  | .binary32 => 8
  | .binary64 => 11

/-- The exponent bias (R160). -/
def fpBias : FpFormat → Nat
  | .binary32 => 127
  | .binary64 => 1023

/-- The exponent field of all ones. -/
def fpExpMax (f : FpFormat) : Nat := 2 ^ fpExpBits f - 1

/-- The exponent of the least subnormal, 1 - bias - fraction bits (R160, R164). -/
def fpMinExp (f : FpFormat) : Int := 1 - (fpBias f : Int) - fpFracBits f

/-- The sign bit of a pattern (R160). -/
def fpSign (f : FpFormat) (x : Nat) : Bool := x.testBit (fpWidth f - 1)

/-- The exponent field (R160). -/
def fpExpField (f : FpFormat) (x : Nat) : Nat := x / 2 ^ fpFracBits f % 2 ^ fpExpBits f

/-- The fraction field (R160). -/
def fpFracField (f : FpFormat) (x : Nat) : Nat := x % 2 ^ fpFracBits f

/-- The pattern without its sign bit: bits [8*sz-2:0]. -/
def fpMagnitude (f : FpFormat) (x : Nat) : Nat := x % 2 ^ (fpWidth f - 1)

/-- A NaN: exponent all ones, fraction nonzero (R160). -/
def fpIsNan (f : FpFormat) (x : Nat) : Bool :=
  fpExpField f x == fpExpMax f && fpFracField f x != 0

/-- An infinity: exponent all ones, fraction zero (R160). -/
def fpIsInf (f : FpFormat) (x : Nat) : Bool :=
  fpExpField f x == fpExpMax f && fpFracField f x == 0

/-- +0 or -0 (R167). -/
def fpIsZero (f : FpFormat) (x : Nat) : Bool := fpMagnitude f x == 0

/-- A pattern from its sign and its other bits. -/
def fpPattern (f : FpFormat) (neg : Bool) (magnitude : Nat) : Nat :=
  (if neg then 2 ^ (fpWidth f - 1) else 0) + magnitude

/-- The magnitude bits of infinity. -/
def fpInfMagnitude (f : FpFormat) : Nat := fpExpMax f * 2 ^ fpFracBits f

/-- The infinity of a sign (R166, R170). -/
def fpInf (f : FpFormat) (neg : Bool) : Nat := fpPattern f neg (fpInfMagnitude f)

/-- The zero of a sign. -/
def fpZero (f : FpFormat) (neg : Bool) : Nat := fpPattern f neg 0

/-- The pattern of 1.0. -/
def fpOne (f : FpFormat) : Nat := fpBias f * 2 ^ fpFracBits f

/-- What a pattern stands for. -/
inductive FpClass where
  | nan
  | inf (neg : Bool)
  /-- The value (-1)^neg * m * 2^e. -/
  | finite (neg : Bool) (m : Nat) (e : Int)
  deriving DecidableEq, Repr

/-- The class and value of a pattern (R160, R164). -/
def fpUnpack (f : FpFormat) (x : Nat) : FpClass :=
  if fpIsNan f x then .nan
  else if fpIsInf f x then .inf (fpSign f x)
  else if fpExpField f x = 0 then .finite (fpSign f x) (fpFracField f x) (fpMinExp f)
  else
    .finite (fpSign f x) (2 ^ fpFracBits f + fpFracField f x)
      (fpMinExp f + ((fpExpField f x : Int) - 1))

/-! ### Rounding (R163, R164, R166) -/

/-- The quotient m / 2^k rounded to nearest, ties to even. -/
def roundShift (m k : Nat) : Nat :=
  let q := m / 2 ^ k
  let rem := m % 2 ^ k
  if 2 ^ k < 2 * rem || (2 * rem == 2 ^ k && q % 2 == 1) then q + 1 else q

/-- The exponent of the last place in which m * 2^e is represented: the leading bit of a normal
number is its fraction's width above it, and no exponent is below that of the least subnormal. -/
def fpQuantum (f : FpFormat) (m : Nat) (e : Int) : Int :=
  max (e + Nat.log2 m - fpFracBits f) (fpMinExp f)

/-- m * 2^e in units of 2^q, rounded to nearest, ties to even. -/
def roundTo (m : Nat) (e q : Int) : Nat :=
  if q ≤ e then m * 2 ^ (e - q).toNat else roundShift m (q - e).toNat

/-- The correctly rounded pattern of (-1)^neg * m * 2^e (R163). The significand's carry runs into the
exponent field, and what reaches the magnitude of infinity is infinity (R166). -/
def fpRound (f : FpFormat) (neg : Bool) (m : Nat) (e : Int) : Nat :=
  if m = 0 then fpZero f neg
  else
    let q := fpQuantum f m e
    let magnitude := (q - fpMinExp f).toNat * 2 ^ fpFracBits f + roundTo m e q
    fpPattern f neg (min magnitude (fpInfMagnitude f))

/-! ### NaN results (R165) -/

/-- The parameter's NaN for these operands, before the check that it is one. -/
def nanCandidate (cfg : Config) (op : FpOp) (f : FpFormat) (a b : Nat) : Word :=
  match cfg.nanCases.find? fun k =>
      k.op == op && k.fmt == f && k.a == BitVec.ofNat 64 a && k.b == BitVec.ofNat 64 b with
  | some k => k.nan
  | none =>
    match f with
    | .binary32 => cfg.nan32
    | .binary64 => cfg.nan64

/-- The canonical quiet NaN of a format (R160). -/
def canonicalNan : FpFormat → Nat
  | .binary32 => canonicalNan32.toNat
  | .binary64 => canonicalNan64.toNat

/-- `FP_NAN_OF(op, a, b, sz)`: the parameter's pattern, which is always a NaN of the format (R165); a
parameter that is no NaN counts as the canonical one (log entry 7). -/
def fpNanOf (cfg : Config) (op : FpOp) (f : FpFormat) (a b : Nat) : Nat :=
  let r := uval (nanCandidate cfg op f a b) f.size
  if fpIsNan f r then r else canonicalNan f

/-! ### The operations -/

/-- m with its sign, as an integer. -/
def signedMag (neg : Bool) (m : Nat) : Int := if neg then -(m : Int) else m

/-- The exact sum of two finite values, rounded; an exact zero is -0 only for two negative operands
(R166). -/
def addFinite (f : FpFormat) (na : Bool) (ma : Nat) (ea : Int) (nb : Bool) (mb : Nat) (eb : Int) :
    Nat :=
  let e := min ea eb
  let sum := signedMag na (ma * 2 ^ (ea - e).toNat) + signedMag nb (mb * 2 ^ (eb - e).toNat)
  if sum = 0 then fpZero f (na && nb) else fpRound f (decide (sum < 0)) sum.natAbs e

/-- Addition with the sign of b turned round when `flip` holds, so that it is also subtraction
(R163, R165, R166). -/
def fpAddSub (cfg : Config) (op : FpOp) (f : FpFormat) (flip : Bool) (a b : Nat) : Nat :=
  match fpUnpack f a, fpUnpack f b with
  | .nan, _ => fpNanOf cfg op f a b
  | _, .nan => fpNanOf cfg op f a b
  | .inf na, .inf nb => if na = (nb ^^ flip) then fpInf f na else fpNanOf cfg op f a b
  | .inf na, .finite _ _ _ => fpInf f na
  | .finite _ _ _, .inf nb => fpInf f (nb ^^ flip)
  | .finite na ma ea, .finite nb mb eb => addFinite f na ma ea (nb ^^ flip) mb eb

/-- FPU.add (R161). -/
def fpAdd (cfg : Config) (f : FpFormat) (a b : Nat) : Nat := fpAddSub cfg .add f false a b

/-- FPU.sub (R161). -/
def fpSub (cfg : Config) (f : FpFormat) (a b : Nat) : Nat := fpAddSub cfg .sub f true a b

/-- FPU.mul (R161, R163, R165, R166). -/
def fpMul (cfg : Config) (f : FpFormat) (a b : Nat) : Nat :=
  match fpUnpack f a, fpUnpack f b with
  | .nan, _ => fpNanOf cfg .mul f a b
  | _, .nan => fpNanOf cfg .mul f a b
  | .inf na, .inf nb => fpInf f (na ^^ nb)
  | .inf na, .finite nb mb _ => if mb = 0 then fpNanOf cfg .mul f a b else fpInf f (na ^^ nb)
  | .finite na ma _, .inf nb => if ma = 0 then fpNanOf cfg .mul f a b else fpInf f (na ^^ nb)
  | .finite na ma ea, .finite nb mb eb => fpRound f (na ^^ nb) (ma * mb) (ea + eb)

/-- One more bit below m, set when something was cut off. -/
def withSticky (m : Nat) (inexact : Bool) : Nat := 2 * m + (if inexact then 1 else 0)

/-- The quotient of two finite values with mb ≠ 0, rounded: at least three bits more than the format
holds, and a sticky bit. -/
def divFinite (f : FpFormat) (neg : Bool) (ma : Nat) (ea : Int) (mb : Nat) (eb : Int) : Nat :=
  let k := 2 * (fpFracBits f + 2)
  let num := ma * 2 ^ k
  fpRound f neg (if ma = 0 then 0 else withSticky (num / mb) (num % mb != 0)) (ea - eb - k - 1)

/-- FPU.div (R161, R163, R165, R166, R170). -/
def fpDiv (cfg : Config) (f : FpFormat) (a b : Nat) : Nat :=
  match fpUnpack f a, fpUnpack f b with
  | .nan, _ => fpNanOf cfg .div f a b
  | _, .nan => fpNanOf cfg .div f a b
  | .inf _, .inf _ => fpNanOf cfg .div f a b
  | .inf na, .finite nb _ _ => fpInf f (na ^^ nb)
  | .finite na _ _, .inf nb => fpZero f (na ^^ nb)
  | .finite na ma ea, .finite nb mb eb =>
    if mb = 0 then (if ma = 0 then fpNanOf cfg .div f a b else fpInf f (na ^^ nb))
    else divFinite f (na ^^ nb) ma ea mb eb

/-- The integer square root, one binary digit at a time from the digit 2^(k-1) down; `r` is the root's
digits found so far. -/
def isqrtFrom : Nat → Nat → Nat → Nat
  | 0, _, r => r
  | k + 1, n, r =>
    if (r + 2 ^ k) * (r + 2 ^ k) ≤ n then isqrtFrom k n (r + 2 ^ k) else isqrtFrom k n r

/-- The integer square root. -/
def isqrt (n : Nat) : Nat := isqrtFrom (Nat.log2 n / 2 + 1) n 0

/-- The root of a value m * 2^e with m ≠ 0, rounded: m is widened so that its exponent is even and its
root has at least three bits more than the format holds, and a sticky bit is kept. -/
def sqrtFinite (f : FpFormat) (m : Nat) (e : Int) : Nat :=
  let j := 2 * (fpFracBits f + 3) + (e % 2).toNat
  let n := m * 2 ^ j
  let r := isqrt n
  fpRound f false (withSticky r (r * r != n)) ((e - j) / 2 - 1)

/-- FPU.sqrt (R161, R163, R165, R166, R171). -/
def fpSqrt (cfg : Config) (f : FpFormat) (a : Nat) : Nat :=
  match fpUnpack f a with
  | .nan => fpNanOf cfg .sqrt f a 0
  | .inf neg => if neg then fpNanOf cfg .sqrt f a 0 else fpInf f false
  | .finite neg m e =>
    if m = 0 then fpZero f neg
    else if neg then fpNanOf cfg .sqrt f a 0
    else sqrtFinite f m e

/-- Is the value below zero, so that its root is a NaN and FSQRT warns (R171, R179)? -/
def fpBelowZero (f : FpFormat) (a : Nat) : Bool :=
  fpSign f a && !fpIsZero f a && !fpIsNan f a

/-- A free pattern brought into [-1, 1]: its sign, and its magnitude reduced to that of 1.0 at most. A
pattern already in [-1, 1] is left as it is (R174, log entry 14). -/
def fpUnitRange (f : FpFormat) (x : Nat) : Nat :=
  fpPattern f (fpSign f x) (fpMagnitude f x % (fpOne f + 1))

/-- The free result of FSIN on a finite nonzero operand. -/
def freeSin (f : FpFormat) (a : Nat) : Nat :=
  match f with
  | .binary32 => (Config.fpSin32 (BitVec.ofNat 32 a)).toNat
  | .binary64 => (Config.fpSin64 (BitVec.ofNat 64 a)).toNat

/-- The free result of FCOS on a finite nonzero operand. -/
def freeCos (f : FpFormat) (a : Nat) : Nat :=
  match f with
  | .binary32 => (Config.fpCos32 (BitVec.ofNat 32 a)).toNat
  | .binary64 => (Config.fpCos64 (BitVec.ofNat 64 a)).toNat

/-- `FP_SIN32` and `FP_SIN64`, with the properties of R174: a NaN for a NaN or an infinity, the zero
itself for a zero, and a value in [-1, 1] otherwise. -/
def fpSin (cfg : Config) (f : FpFormat) (a : Nat) : Nat :=
  if fpIsNan f a || fpIsInf f a then fpNanOf cfg .sin f a 0
  else if fpIsZero f a then a
  else fpUnitRange f (freeSin f a)

/-- `FP_COS32` and `FP_COS64` (R174): +1.0 for a zero. -/
def fpCos (cfg : Config) (f : FpFormat) (a : Nat) : Nat :=
  if fpIsNan f a || fpIsInf f a then fpNanOf cfg .cos f a 0
  else if fpIsZero f a then fpOne f
  else fpUnitRange f (freeCos f a)

/-! ### The flags (R167 to R169) -/

/-- A floating-point result with its flags: Z for either zero, N the sign bit, C always 0, V for a NaN
or an infinity. -/
def fpOut (f : FpFormat) (r : Nat) : UnitOut :=
  { r := r
    flags := { z := fpIsZero f r, n := fpSign f r, c := false, v := fpIsNan f r || fpIsInf f r } }

end Sys2Proof.Machine
end

