-- ==== Sys2Proof/Machine/Fpu.lean ====
section
/-! DEFINITION. Fpu.lean: the floating-point instructions (41_fpu.md R175 to R181). -/

namespace Sys2Proof.Machine

/-- The operand of a floating-point instruction: the low bytes of the register, not converted
(41_fpu.md R162). -/
def State.fpOpnd (s : State) (i : Reg) (f : FpFormat) : Nat := (s.readReg i f.size).toNat

/-- A floating-point instruction's end: the result into rd at the format's size, and all four flags
(R162, R167 to R169). -/
def fpWrite (f : FpFormat) (rd : Reg) (r : Nat) (s : State) : Result :=
  .next ((s.writeReg rd (BitVec.ofNat 64 r) f.size).setFlags (fpOut f r).flags)

/-- FDIV at a format: the warning for a divisor of either zero, then the quotient (R172, R178). -/
def fdiv (f : FpFormat) (rd rs : Reg) (s : State) : Result :=
  fpWrite f rd (fpDiv s.cfg f (s.fpOpnd rd f) (s.fpOpnd rs f))
    (s.warnIf (fpIsZero f (s.fpOpnd rs f)) .fpDivisionByZero)

/-- FSQRT at a format: the warning for a value below zero, then the root (R172, R179). -/
def fsqrt (f : FpFormat) (rd : Reg) (s : State) : Result :=
  fpWrite f rd (fpSqrt s.cfg f (s.fpOpnd rd f))
    (s.warnIf (fpBelowZero f (s.fpOpnd rd f)) .sqrtOfNegative)

/-- FADD4: Rd <- Rd + Rs in binary32 (R175). -/
def execFadd4 (rd rs : Reg) (s : State) : Result :=
  fpWrite .binary32 rd (fpAdd s.cfg .binary32 (s.fpOpnd rd .binary32) (s.fpOpnd rs .binary32)) s

/-- FADD8: Rd <- Rd + Rs in binary64 (R175). -/
def execFadd8 (rd rs : Reg) (s : State) : Result :=
  fpWrite .binary64 rd (fpAdd s.cfg .binary64 (s.fpOpnd rd .binary64) (s.fpOpnd rs .binary64)) s

/-- FSUB4: Rd <- Rd - Rs in binary32 (R176). -/
def execFsub4 (rd rs : Reg) (s : State) : Result :=
  fpWrite .binary32 rd (fpSub s.cfg .binary32 (s.fpOpnd rd .binary32) (s.fpOpnd rs .binary32)) s

/-- FSUB8: Rd <- Rd - Rs in binary64 (R176). -/
def execFsub8 (rd rs : Reg) (s : State) : Result :=
  fpWrite .binary64 rd (fpSub s.cfg .binary64 (s.fpOpnd rd .binary64) (s.fpOpnd rs .binary64)) s

/-- FMUL4: Rd <- Rd * Rs in binary32 (R177). -/
def execFmul4 (rd rs : Reg) (s : State) : Result :=
  fpWrite .binary32 rd (fpMul s.cfg .binary32 (s.fpOpnd rd .binary32) (s.fpOpnd rs .binary32)) s

/-- FMUL8: Rd <- Rd * Rs in binary64 (R177). -/
def execFmul8 (rd rs : Reg) (s : State) : Result :=
  fpWrite .binary64 rd (fpMul s.cfg .binary64 (s.fpOpnd rd .binary64) (s.fpOpnd rs .binary64)) s

/-- FDIV4: Rd <- Rd / Rs in binary32 (R178). -/
def execFdiv4 (rd rs : Reg) (s : State) : Result :=
  fdiv .binary32 rd rs s

/-- FDIV8: Rd <- Rd / Rs in binary64 (R178). -/
def execFdiv8 (rd rs : Reg) (s : State) : Result :=
  fdiv .binary64 rd rs s

/-- FSQRT4: Rd <- the square root of Rd in binary32 (R179). -/
def execFsqrt4 (rd : Reg) (s : State) : Result :=
  fsqrt .binary32 rd s

/-- FSQRT8: Rd <- the square root of Rd in binary64 (R179). -/
def execFsqrt8 (rd : Reg) (s : State) : Result :=
  fsqrt .binary64 rd s

/-- FSIN4: Rd <- sin Rd in binary32 (R180). -/
def execFsin4 (rd : Reg) (s : State) : Result :=
  fpWrite .binary32 rd (fpSin s.cfg .binary32 (s.fpOpnd rd .binary32)) s

/-- FSIN8: Rd <- sin Rd in binary64 (R180). -/
def execFsin8 (rd : Reg) (s : State) : Result :=
  fpWrite .binary64 rd (fpSin s.cfg .binary64 (s.fpOpnd rd .binary64)) s

/-- FCOS4: Rd <- cos Rd in binary32 (R181). -/
def execFcos4 (rd : Reg) (s : State) : Result :=
  fpWrite .binary32 rd (fpCos s.cfg .binary32 (s.fpOpnd rd .binary32)) s

/-- FCOS8: Rd <- cos Rd in binary64 (R181). -/
def execFcos8 (rd : Reg) (s : State) : Result :=
  fpWrite .binary64 rd (fpCos s.cfg .binary64 (s.fpOpnd rd .binary64)) s

end Sys2Proof.Machine
end

