-- ==== Sys2Proof/Machine/Alu.lean ====
section
/-! DEFINITION. Alu.lean: the block alu_int_widthparam (40_alu_integer.md R110 to R121). An operation
takes the operands already reduced to the width, a' and b', and answers a result below 2^n. -/

namespace Sys2Proof.Machine

/-- `mask(exact, sz)` of an exact integer (R111). -/
def maskInt (exact : Int) (z : Size) : Nat := (exact % 2 ^ z.bits).toNat

/-- The add law (R113). -/
def aluAdd (a b : Nat) (z : Size) : UnitOut :=
  let r := (a + b) % 2 ^ z.bits
  aluOut r z (addCarry a b z) (addOverflow a b r z)

/-- The sub law (R114). -/
def aluSub (a b : Nat) (z : Size) : UnitOut :=
  let r := maskInt (a - b) z
  aluOut r z (subBorrow a b) (subOverflow a b r z)

/-- The mul law (R115). -/
def aluMul (a b : Nat) (z : Size) : UnitOut :=
  aluOut (a * b % 2 ^ z.bits) z (mulCarry a b z) (mulOverflow a b z)

/-- The rounded quotient of a signed division (R116, SDIV_MODE). -/
def signedQuotient (m : DivMode) (a b : Int) : Int :=
  match m with
  | .trunc => a.tdiv b
  | .floor => a.fdiv b

/-- The div law, signed (R116). -/
def aluDivSigned (m : DivMode) (a b : Nat) (z : Size) : UnitOut :=
  if b = 0 then byZeroOut
  else
    let q := signedQuotient m (signedOf a z) (signedOf b z)
    aluOut (maskInt q z) z false (divOverflow q z)

/-- The div law, unsigned (R116). -/
def aluDivUnsigned (a b : Nat) (z : Size) : UnitOut :=
  if b = 0 then byZeroOut else aluOut (a / b) z false false

/-- The mod law, signed (R117). -/
def aluModSigned (m : DivMode) (a b : Nat) (z : Size) : UnitOut :=
  if b = 0 then byZeroOut
  else
    let q := signedQuotient m (signedOf a z) (signedOf b z)
    aluOut (maskInt (signedOf a z - signedOf b z * q) z) z false false

/-- The mod law, unsigned (R117). -/
def aluModUnsigned (a b : Nat) (z : Size) : UnitOut :=
  if b = 0 then byZeroOut else aluOut (a - b * (a / b)) z false false

/-- The and law (R120). -/
def aluAnd (a b : Nat) : UnitOut := aluOut (a &&& b) .b8 false false

/-- The or law (R120). -/
def aluOr (a b : Nat) : UnitOut := aluOut (a ||| b) .b8 false false

/-- The xor law (R120). -/
def aluXor (a b : Nat) : UnitOut := aluOut (a ^^^ b) .b8 false false

/-- The shift amount of SHL and SHR (R121, SHIFT_MODE). -/
def shiftAmount (m : ShiftMode) (a : Nat) : Nat :=
  match m with
  | .self => a
  | .one => 1

/-- The shl law: mask(a * 2^k, 8), which is 0 from k = 64 on (R121). -/
def aluShl (m : ShiftMode) (a : Nat) : UnitOut :=
  let k := shiftAmount m a
  aluOut (if 64 ≤ k then 0 else a * 2 ^ k % 2 ^ 64) .b8 false false

/-- The shr law: floor(a / 2^k), which is 0 from k = 64 on (R121). -/
def aluShr (m : ShiftMode) (a : Nat) : UnitOut :=
  let k := shiftAmount m a
  aluOut (if 64 ≤ k then 0 else a / 2 ^ k) .b8 false false

end Sys2Proof.Machine
end

