-- ==== Sys2Proof/Machine/Integer.lean ====
section
/-! DEFINITION. Integer.lean: the integer instructions (40_alu_integer.md R122 to R137). -/

namespace Sys2Proof.Machine

/-- An ALU instruction's end: the result into rd at its size, and all four flags (40_alu_integer.md
R119, 10_state.md R22). -/
def aluWrite (z : Size) (rd : Reg) (o : UnitOut) (s : State) : Result :=
  .next ((s.writeReg rd (BitVec.ofNat 64 o.r) z).setFlags o.flags)

/-- A compare's end: all four flags and no register (R129, R130). -/
def flagWrite (o : UnitOut) (s : State) : Result := .next (s.setFlags o.flags)

/-- The unsigned value of a register at a size, as the ALU takes it (R110). -/
def State.opnd (s : State) (i : Reg) (z : Size) : Nat := (s.readReg i z).toNat

/-- ADD1: Rd <- Rd + Rs at size 1 (R122). -/
def execAdd1 (rd rs : Reg) (s : State) : Result :=
  aluWrite .b1 rd (aluAdd (s.opnd rd .b1) (s.opnd rs .b1) .b1) s

/-- ADD2: Rd <- Rd + Rs at size 2 (R122). -/
def execAdd2 (rd rs : Reg) (s : State) : Result :=
  aluWrite .b2 rd (aluAdd (s.opnd rd .b2) (s.opnd rs .b2) .b2) s

/-- ADD4: Rd <- Rd + Rs at size 4 (R122). -/
def execAdd4 (rd rs : Reg) (s : State) : Result :=
  aluWrite .b4 rd (aluAdd (s.opnd rd .b4) (s.opnd rs .b4) .b4) s

/-- ADD8: Rd <- Rd + Rs at size 8 (R122). -/
def execAdd8 (rd rs : Reg) (s : State) : Result :=
  aluWrite .b8 rd (aluAdd (s.opnd rd .b8) (s.opnd rs .b8) .b8) s

/-- SUB1: Rd <- Rd - Rs at size 1 (R123). -/
def execSub1 (rd rs : Reg) (s : State) : Result :=
  aluWrite .b1 rd (aluSub (s.opnd rd .b1) (s.opnd rs .b1) .b1) s

/-- SUB2: Rd <- Rd - Rs at size 2 (R123). -/
def execSub2 (rd rs : Reg) (s : State) : Result :=
  aluWrite .b2 rd (aluSub (s.opnd rd .b2) (s.opnd rs .b2) .b2) s

/-- SUB4: Rd <- Rd - Rs at size 4 (R123). -/
def execSub4 (rd rs : Reg) (s : State) : Result :=
  aluWrite .b4 rd (aluSub (s.opnd rd .b4) (s.opnd rs .b4) .b4) s

/-- SUB8: Rd <- Rd - Rs at size 8 (R123). -/
def execSub8 (rd rs : Reg) (s : State) : Result :=
  aluWrite .b8 rd (aluSub (s.opnd rd .b8) (s.opnd rs .b8) .b8) s

/-- MUL1: the low half of Rd * Rs at size 1 (R124). -/
def execMul1 (rd rs : Reg) (s : State) : Result :=
  aluWrite .b1 rd (aluMul (s.opnd rd .b1) (s.opnd rs .b1) .b1) s

/-- MUL2: the low half of Rd * Rs at size 2 (R124). -/
def execMul2 (rd rs : Reg) (s : State) : Result :=
  aluWrite .b2 rd (aluMul (s.opnd rd .b2) (s.opnd rs .b2) .b2) s

/-- MUL4: the low half of Rd * Rs at size 4 (R124). -/
def execMul4 (rd rs : Reg) (s : State) : Result :=
  aluWrite .b4 rd (aluMul (s.opnd rd .b4) (s.opnd rs .b4) .b4) s

/-- MUL8: the low half of Rd * Rs at size 8 (R124). -/
def execMul8 (rd rs : Reg) (s : State) : Result :=
  aluWrite .b8 rd (aluMul (s.opnd rd .b8) (s.opnd rs .b8) .b8) s

/-- DIV1: signed quotient at size 1 (R125). -/
def execDiv1 (rd rs : Reg) (s : State) : Result :=
  aluWrite .b1 rd (aluDivSigned s.cfg.divMode (s.opnd rd .b1) (s.opnd rs .b1) .b1) s

/-- DIV2: signed quotient at size 2 (R125). -/
def execDiv2 (rd rs : Reg) (s : State) : Result :=
  aluWrite .b2 rd (aluDivSigned s.cfg.divMode (s.opnd rd .b2) (s.opnd rs .b2) .b2) s

/-- DIV4: signed quotient at size 4 (R125). -/
def execDiv4 (rd rs : Reg) (s : State) : Result :=
  aluWrite .b4 rd (aluDivSigned s.cfg.divMode (s.opnd rd .b4) (s.opnd rs .b4) .b4) s

/-- DIV8: signed quotient at size 8 (R125). -/
def execDiv8 (rd rs : Reg) (s : State) : Result :=
  aluWrite .b8 rd (aluDivSigned s.cfg.divMode (s.opnd rd .b8) (s.opnd rs .b8) .b8) s

/-- DIVU1: unsigned quotient at size 1 (R126). -/
def execDivu1 (rd rs : Reg) (s : State) : Result :=
  aluWrite .b1 rd (aluDivUnsigned (s.opnd rd .b1) (s.opnd rs .b1) .b1) s

/-- DIVU2: unsigned quotient at size 2 (R126). -/
def execDivu2 (rd rs : Reg) (s : State) : Result :=
  aluWrite .b2 rd (aluDivUnsigned (s.opnd rd .b2) (s.opnd rs .b2) .b2) s

/-- DIVU4: unsigned quotient at size 4 (R126). -/
def execDivu4 (rd rs : Reg) (s : State) : Result :=
  aluWrite .b4 rd (aluDivUnsigned (s.opnd rd .b4) (s.opnd rs .b4) .b4) s

/-- DIVU8: unsigned quotient at size 8 (R126). -/
def execDivu8 (rd rs : Reg) (s : State) : Result :=
  aluWrite .b8 rd (aluDivUnsigned (s.opnd rd .b8) (s.opnd rs .b8) .b8) s

/-- MOD1: signed remainder at size 1 (R127). -/
def execMod1 (rd rs : Reg) (s : State) : Result :=
  aluWrite .b1 rd (aluModSigned s.cfg.divMode (s.opnd rd .b1) (s.opnd rs .b1) .b1) s

/-- MOD2: signed remainder at size 2 (R127). -/
def execMod2 (rd rs : Reg) (s : State) : Result :=
  aluWrite .b2 rd (aluModSigned s.cfg.divMode (s.opnd rd .b2) (s.opnd rs .b2) .b2) s

/-- MOD4: signed remainder at size 4 (R127). -/
def execMod4 (rd rs : Reg) (s : State) : Result :=
  aluWrite .b4 rd (aluModSigned s.cfg.divMode (s.opnd rd .b4) (s.opnd rs .b4) .b4) s

/-- MOD8: signed remainder at size 8 (R127). -/
def execMod8 (rd rs : Reg) (s : State) : Result :=
  aluWrite .b8 rd (aluModSigned s.cfg.divMode (s.opnd rd .b8) (s.opnd rs .b8) .b8) s

/-- MODU1: unsigned remainder at size 1 (R128). -/
def execModu1 (rd rs : Reg) (s : State) : Result :=
  aluWrite .b1 rd (aluModUnsigned (s.opnd rd .b1) (s.opnd rs .b1) .b1) s

/-- MODU2: unsigned remainder at size 2 (R128). -/
def execModu2 (rd rs : Reg) (s : State) : Result :=
  aluWrite .b2 rd (aluModUnsigned (s.opnd rd .b2) (s.opnd rs .b2) .b2) s

/-- MODU4: unsigned remainder at size 4 (R128). -/
def execModu4 (rd rs : Reg) (s : State) : Result :=
  aluWrite .b4 rd (aluModUnsigned (s.opnd rd .b4) (s.opnd rs .b4) .b4) s

/-- MODU8: unsigned remainder at size 8 (R128). -/
def execModu8 (rd rs : Reg) (s : State) : Result :=
  aluWrite .b8 rd (aluModUnsigned (s.opnd rd .b8) (s.opnd rs .b8) .b8) s

/-- CMP1: the flags of Rd - Rs at size 1 (R129). -/
def execCmp1 (rd rs : Reg) (s : State) : Result :=
  flagWrite (aluSub (s.opnd rd .b1) (s.opnd rs .b1) .b1) s

/-- CMP2: the flags of Rd - Rs at size 2 (R129). -/
def execCmp2 (rd rs : Reg) (s : State) : Result :=
  flagWrite (aluSub (s.opnd rd .b2) (s.opnd rs .b2) .b2) s

/-- CMP4: the flags of Rd - Rs at size 4 (R129). -/
def execCmp4 (rd rs : Reg) (s : State) : Result :=
  flagWrite (aluSub (s.opnd rd .b4) (s.opnd rs .b4) .b4) s

/-- CMP8: the flags of Rd - Rs at size 8 (R129). -/
def execCmp8 (rd rs : Reg) (s : State) : Result :=
  flagWrite (aluSub (s.opnd rd .b8) (s.opnd rs .b8) .b8) s

/-- CMPV: the flags of Rd - imm at size 8 (R130). -/
def execCmpv (rd : Reg) (imm : Word) (s : State) : Result :=
  flagWrite (aluSub (s.opnd rd .b8) imm.toNat .b8) s

/-- INC: Rd <- Rd + 1 (R131). -/
def execInc (rd : Reg) (s : State) : Result :=
  aluWrite .b8 rd (aluAdd (s.opnd rd .b8) 1 .b8) s

/-- DEC: Rd <- Rd - 1 (R132). -/
def execDec (rd : Reg) (s : State) : Result :=
  aluWrite .b8 rd (aluSub (s.opnd rd .b8) 1 .b8) s

/-- AND: Rd <- Rd AND Rs (R133). -/
def execAnd (rd rs : Reg) (s : State) : Result :=
  aluWrite .b8 rd (aluAnd (s.opnd rd .b8) (s.opnd rs .b8)) s

/-- OR: Rd <- Rd OR Rs (R134). -/
def execOr (rd rs : Reg) (s : State) : Result :=
  aluWrite .b8 rd (aluOr (s.opnd rd .b8) (s.opnd rs .b8)) s

/-- XOR: Rd <- Rd XOR Rs (R135). -/
def execXor (rd rs : Reg) (s : State) : Result :=
  aluWrite .b8 rd (aluXor (s.opnd rd .b8) (s.opnd rs .b8)) s

/-- SHL: Rd shifted left by SHIFT_MODE's amount (R136). -/
def execShl (rd : Reg) (s : State) : Result :=
  aluWrite .b8 rd (aluShl s.cfg.shiftMode (s.opnd rd .b8)) s

/-- SHR: Rd shifted right, zeros entering, by SHIFT_MODE's amount (R137). -/
def execShr (rd : Reg) (s : State) : Result :=
  aluWrite .b8 rd (aluShr s.cfg.shiftMode (s.opnd rd .b8)) s

end Sys2Proof.Machine
end

