-- ==== Sys2Proof/Machine/Io.lean ====
section
/-! DEFINITION. Io.lean: the I/O instructions (44_io.md R247 to R249). -/

namespace Sys2Proof.Machine

/-- SVIO: the device at imm is given all 64 bits of Rd (R247). -/
def execSvio (rd : Reg) (imm : Word) (s : State) : Result :=
  .next (s.ioWrite imm (s.x rd))

/-- LOADIO: Rd <- what the device at imm answers (R248). -/
def execLoadio (rd : Reg) (imm : Word) (s : State) : Result :=
  .next ((s.ioReadEffect imm).setX rd (s.ioReadValue imm))

/-- SHOWIO: the device at imm is asked to show (R249). -/
def execShowio (imm : Word) (s : State) : Result :=
  .next (s.ioShow imm)

end Sys2Proof.Machine
end

