-- ==== Sys2Proof/Machine/System.lean ====
section
/-! DEFINITION. System.lean: halt, no-op and the eight flag instructions (45_system.md R260 to R269). -/

namespace Sys2Proof.Machine

/-- One flag written, the other three and everything else unchanged (10_state.md R26). -/
def putFlag (i : FlagName) (v : Bool) (s : State) : Result := .next (s.setFlags (s.flags.put i v))

/-- PARAR: running <- false; pc stays past the instruction (R260). -/
def execParar (s : State) : Result :=
  .next { s with running := false }

/-- NOP: no effect beyond the fetch (R261). -/
def execNop (s : State) : Result :=
  .next s

/-- SETZ: F.Z <- 1 (R262). -/
def execSetz (s : State) : Result :=
  putFlag .z true s

/-- CLRZ: F.Z <- 0 (R263). -/
def execClrz (s : State) : Result :=
  putFlag .z false s

/-- SETN: F.N <- 1 (R264). -/
def execSetn (s : State) : Result :=
  putFlag .n true s

/-- CLRN: F.N <- 0 (R265). -/
def execClrn (s : State) : Result :=
  putFlag .n false s

/-- SETC: F.C <- 1 (R266). -/
def execSetc (s : State) : Result :=
  putFlag .c true s

/-- CLRC: F.C <- 0 (R267). -/
def execClrc (s : State) : Result :=
  putFlag .c false s

/-- SETV: F.V <- 1 (R268). -/
def execSetv (s : State) : Result :=
  putFlag .v true s

/-- CLRV: F.V <- 0 (R269). -/
def execClrv (s : State) : Result :=
  putFlag .v false s

end Sys2Proof.Machine
end

