-- ==== Sys2Proof/Machine/Dispatch.lean ====
section
/-! DEFINITION. Dispatch.lean: one arm per instruction, each a direct call of its meaning. -/

namespace Sys2Proof.Machine

def exec (i : Instr) (s : State) : Host.Outcome State Fault Refusal :=
  match i with
  | .parar => Sys2Proof.Machine.execParar s
  | .nop => Sys2Proof.Machine.execNop s
  | .ret => Sys2Proof.Machine.execRet s
  | .setz => Sys2Proof.Machine.execSetz s
  | .clrz => Sys2Proof.Machine.execClrz s
  | .setn => Sys2Proof.Machine.execSetn s
  | .clrn => Sys2Proof.Machine.execClrn s
  | .setc => Sys2Proof.Machine.execSetc s
  | .clrc => Sys2Proof.Machine.execClrc s
  | .setv => Sys2Proof.Machine.execSetv s
  | .clrv => Sys2Proof.Machine.execClrv s
  | .inc rd => Sys2Proof.Machine.execInc rd s
  | .dec rd => Sys2Proof.Machine.execDec rd s
  | .clear rd => Sys2Proof.Machine.execClear rd s
  | .shl rd => Sys2Proof.Machine.execShl rd s
  | .shr rd => Sys2Proof.Machine.execShr rd s
  | .push1 rd => Sys2Proof.Machine.execPush1 rd s
  | .push2 rd => Sys2Proof.Machine.execPush2 rd s
  | .push4 rd => Sys2Proof.Machine.execPush4 rd s
  | .push8 rd => Sys2Proof.Machine.execPush8 rd s
  | .pop1 rd => Sys2Proof.Machine.execPop1 rd s
  | .pop2 rd => Sys2Proof.Machine.execPop2 rd s
  | .pop4 rd => Sys2Proof.Machine.execPop4 rd s
  | .pop8 rd => Sys2Proof.Machine.execPop8 rd s
  | .fsqrt4 rd => Sys2Proof.Machine.execFsqrt4 rd s
  | .fsqrt8 rd => Sys2Proof.Machine.execFsqrt8 rd s
  | .fsin4 rd => Sys2Proof.Machine.execFsin4 rd s
  | .fsin8 rd => Sys2Proof.Machine.execFsin8 rd s
  | .fcos4 rd => Sys2Proof.Machine.execFcos4 rd s
  | .fcos8 rd => Sys2Proof.Machine.execFcos8 rd s
  | .mov rd rs => Sys2Proof.Machine.execMov rd rs s
  | .and rd rs => Sys2Proof.Machine.execAnd rd rs s
  | .or rd rs => Sys2Proof.Machine.execOr rd rs s
  | .xor rd rs => Sys2Proof.Machine.execXor rd rs s
  | .add1 rd rs => Sys2Proof.Machine.execAdd1 rd rs s
  | .add2 rd rs => Sys2Proof.Machine.execAdd2 rd rs s
  | .add4 rd rs => Sys2Proof.Machine.execAdd4 rd rs s
  | .add8 rd rs => Sys2Proof.Machine.execAdd8 rd rs s
  | .sub1 rd rs => Sys2Proof.Machine.execSub1 rd rs s
  | .sub2 rd rs => Sys2Proof.Machine.execSub2 rd rs s
  | .sub4 rd rs => Sys2Proof.Machine.execSub4 rd rs s
  | .sub8 rd rs => Sys2Proof.Machine.execSub8 rd rs s
  | .mul1 rd rs => Sys2Proof.Machine.execMul1 rd rs s
  | .mul2 rd rs => Sys2Proof.Machine.execMul2 rd rs s
  | .mul4 rd rs => Sys2Proof.Machine.execMul4 rd rs s
  | .mul8 rd rs => Sys2Proof.Machine.execMul8 rd rs s
  | .div1 rd rs => Sys2Proof.Machine.execDiv1 rd rs s
  | .div2 rd rs => Sys2Proof.Machine.execDiv2 rd rs s
  | .div4 rd rs => Sys2Proof.Machine.execDiv4 rd rs s
  | .div8 rd rs => Sys2Proof.Machine.execDiv8 rd rs s
  | .divu1 rd rs => Sys2Proof.Machine.execDivu1 rd rs s
  | .divu2 rd rs => Sys2Proof.Machine.execDivu2 rd rs s
  | .divu4 rd rs => Sys2Proof.Machine.execDivu4 rd rs s
  | .divu8 rd rs => Sys2Proof.Machine.execDivu8 rd rs s
  | .mod1 rd rs => Sys2Proof.Machine.execMod1 rd rs s
  | .mod2 rd rs => Sys2Proof.Machine.execMod2 rd rs s
  | .mod4 rd rs => Sys2Proof.Machine.execMod4 rd rs s
  | .mod8 rd rs => Sys2Proof.Machine.execMod8 rd rs s
  | .modu1 rd rs => Sys2Proof.Machine.execModu1 rd rs s
  | .modu2 rd rs => Sys2Proof.Machine.execModu2 rd rs s
  | .modu4 rd rs => Sys2Proof.Machine.execModu4 rd rs s
  | .modu8 rd rs => Sys2Proof.Machine.execModu8 rd rs s
  | .cmp1 rd rs => Sys2Proof.Machine.execCmp1 rd rs s
  | .cmp2 rd rs => Sys2Proof.Machine.execCmp2 rd rs s
  | .cmp4 rd rs => Sys2Proof.Machine.execCmp4 rd rs s
  | .cmp8 rd rs => Sys2Proof.Machine.execCmp8 rd rs s
  | .fadd4 rd rs => Sys2Proof.Machine.execFadd4 rd rs s
  | .fadd8 rd rs => Sys2Proof.Machine.execFadd8 rd rs s
  | .fsub4 rd rs => Sys2Proof.Machine.execFsub4 rd rs s
  | .fsub8 rd rs => Sys2Proof.Machine.execFsub8 rd rs s
  | .fmul4 rd rs => Sys2Proof.Machine.execFmul4 rd rs s
  | .fmul8 rd rs => Sys2Proof.Machine.execFmul8 rd rs s
  | .fdiv4 rd rs => Sys2Proof.Machine.execFdiv4 rd rs s
  | .fdiv8 rd rs => Sys2Proof.Machine.execFdiv8 rd rs s
  | .loadr1 rd rs => Sys2Proof.Machine.execLoadr1 rd rs s
  | .loadr2 rd rs => Sys2Proof.Machine.execLoadr2 rd rs s
  | .loadr4 rd rs => Sys2Proof.Machine.execLoadr4 rd rs s
  | .loadr8 rd rs => Sys2Proof.Machine.execLoadr8 rd rs s
  | .storer1 rd rs => Sys2Proof.Machine.execStorer1 rd rs s
  | .storer2 rd rs => Sys2Proof.Machine.execStorer2 rd rs s
  | .storer4 rd rs => Sys2Proof.Machine.execStorer4 rd rs s
  | .storer8 rd rs => Sys2Proof.Machine.execStorer8 rd rs s
  | .loadv rd imm => Sys2Proof.Machine.execLoadv rd imm s
  | .cmpv rd imm => Sys2Proof.Machine.execCmpv rd imm s
  | .load1 rd imm => Sys2Proof.Machine.execLoad1 rd imm s
  | .load2 rd imm => Sys2Proof.Machine.execLoad2 rd imm s
  | .load4 rd imm => Sys2Proof.Machine.execLoad4 rd imm s
  | .load8 rd imm => Sys2Proof.Machine.execLoad8 rd imm s
  | .store1 rd imm => Sys2Proof.Machine.execStore1 rd imm s
  | .store2 rd imm => Sys2Proof.Machine.execStore2 rd imm s
  | .store4 rd imm => Sys2Proof.Machine.execStore4 rd imm s
  | .store8 rd imm => Sys2Proof.Machine.execStore8 rd imm s
  | .jmp imm => Sys2Proof.Machine.execJmp imm s
  | .jeq imm => Sys2Proof.Machine.execJeq imm s
  | .jne imm => Sys2Proof.Machine.execJne imm s
  | .jmi imm => Sys2Proof.Machine.execJmi imm s
  | .jpl imm => Sys2Proof.Machine.execJpl imm s
  | .jcs imm => Sys2Proof.Machine.execJcs imm s
  | .jcc imm => Sys2Proof.Machine.execJcc imm s
  | .jlt imm => Sys2Proof.Machine.execJlt imm s
  | .jge imm => Sys2Proof.Machine.execJge imm s
  | .call imm => Sys2Proof.Machine.execCall imm s
  | .svio rd imm => Sys2Proof.Machine.execSvio rd imm s
  | .loadio rd imm => Sys2Proof.Machine.execLoadio rd imm s
  | .showio imm => Sys2Proof.Machine.execShowio imm s

end Sys2Proof.Machine
end

