-- ==== Sys2Proof/Machine/Fetch.lean ====
section
/-! DEFINITION. Fetch.lean: the stages fetch and decode of a step (30_encoding.md R97,
70_reset_and_hazards.md R311) and what closes a step. A stage that raises a fatal error answers the
Faulted state. -/

namespace Sys2Proof.Machine

/-- `fetch()`: ipc <- pc; the instruction word at pc; pc <- pc + 8. An AddressError here records no
opcode (R97, 60_exceptions.md R287). It does not test the run state: what the host's own call of it does on
a Halted or Faulted core the spec does not say. DESIGN CHOICE, log entry 17. -/
def fetch (s : State) : Except State (Word × State) :=
  let t := { s with ipc := s.pc, inst := none }
  match t.memRead t.pc .b8 with
  | none => .error (t.fatal .addressError none (some t.pc))
  | some w => .ok (w, t.setPc (t.pc + 8))

/-- `decode()`: the opcode lookup in the machine's map, then for format RI the immediate word at pc and
pc <- pc + 8. The opcode is checked before the immediate is fetched (R97, 60_exceptions.md R282, R288). It
does not test the run state: what the host's own call of it does on a Halted or Faulted core the spec does
not say. DESIGN CHOICE, log entry 17. -/
def decodeStage (w : Word) (s : State) : Except State (Instr × State) :=
  match decode s.cfg.opcodeMap w (s.memRead s.pc .b8) with
  | .error (.unknownOpcode op) => .error (s.fatal .decodeError (some op) none)
  | .error (.noImmediate op) => .error (s.fatal .addressError (some op) (some s.pc))
  | .ok d =>
    .ok (d.instr,
      { s with
        pc := s.pc + BitVec.ofNat 64 (d.record.format.length - 8)
        inst := some d.record })

/-- Fetch and decode in turn; like them it does not test the run state (log entry 17). -/
def fetchDecode (s : State) : Except State (Instr × State) :=
  match fetch s with
  | .error t => .error t
  | .ok (w, t) => decodeStage w t

/-- One more step executed in the current run call, if there is one (R312). -/
def RunCall.counted (c : RunCall) : RunCall := { c with cycles := c.cycles + 1 }

/-- The end of a step: the transient Instruction is discarded (10_state.md R36), and a step that raised
no fatal error counts as one cycle of the run call (R312). -/
def State.retire (s : State) : State :=
  { s with
    inst := none
    call := if s.fault = none then s.call.map RunCall.counted else s.call }

/-- Has the run call executed as many steps as its ceiling allows (R312, R313)? -/
def State.ceilingReached (s : State) : Bool :=
  match s.call with
  | none => false
  | some c => decide (c.maxCycles ≤ c.cycles)

/-- RunawayProgram: raised between steps, with the pc of the step that would have run next and no
opcode (60_exceptions.md R285, R287). -/
def State.runaway (s : State) : State :=
  { s with
    running := false
    fault := some { kind := .runawayProgram, ipc := s.pc, opcode := none, address := none } }

end Sys2Proof.Machine
end

