-- ==== Sys2Proof/Machine/Step.lean ====
section
/-! DEFINITION. Step.lean: one step of the machine (70_reset_and_hazards.md R310 to R314). While the
host is in a run call, a step is one turn of run's loop; otherwise it is one tick. -/

namespace Sys2Proof.Machine

/-- `execute(i)`, and the end of the step. It does not test the run state: what the host's own call of it does
on a Halted or Faulted core the spec does not say. DESIGN CHOICE, log entry 17. -/
def execute (i : Instr) (s : State) : Result :=
  match exec i s with
  | .next t => .next t.retire
  | .fault f => .fault f
  | .refused r => .refused r

/-- `tick()` on a Running core: fetch, decode, execute. A fatal error of any stage gives the Faulted
state (R311, 60_exceptions.md R286). `step` applies it to a Running core only, and answers for a Halted or a
Faulted core as R314 says. -/
def tick (s : State) : Result :=
  match fetchDecode s with
  | .error t => .next t
  | .ok (i, t) => execute i t

/-- One step. A Faulted core returns the recorded error; a Halted core is left as it is; a Running core
at the ceiling of its run call raises RunawayProgram; any other Running core ticks (R312 to R314). -/
def step (s : State) : Host.Outcome State Fault Refusal :=
  match s.fault with
  | some r => .fault (.fatal r)
  | none =>
    if s.running then
      if s.ceilingReached then .next s.runaway else tick s
    else .next s

/-- The state with an instruction's bits stored at the program counter, and the core Running outside a
run call, so that the next step runs it. It stands for the loader (70_reset_and_hazards.md R315, R317;
log entry 3). Where 16 bytes do not fit at the program counter nothing is stored (log entry 18). -/
def State.withFetchWord (s : State) (nbits w : Nat) : State :=
  { s.poke s.pc (bytesLE 16 (w % 2 ^ nbits)) with running := true, fault := none, call := none }

end Sys2Proof.Machine
end

