-- ==== Sys2Proof/Machine/Embedder.lean ====
section
/-! DEFINITION. Embedder.lean: what the host may do between steps (60_exceptions.md R298), the launch
(70_reset_and_hazards.md R315) and the calls tick and run (R311, R312). None of these is a step of the
core; a move during a step has no meaning (R298, log entry 15). -/

namespace Sys2Proof.Machine

/-- The launch arguments (R315) and the parameters of 00_scope.md R4. -/
structure Launch where
  cfg   : Config
  io    : List (Word × Device)
  mem   : Memory
  pc    : Word
  regs  : Vector Word 16
  flags : Flags
  deriving DecidableEq, Repr

/-- The launch state: Running, no fault, the arguments in place (10_state.md R37, R315). -/
def launch (l : Launch) : State :=
  { State.reset with
    cfg := l.cfg, io := l.io, mem := l.mem, pc := l.pc, regs := l.regs, flags := l.flags }

/-- The numeric code of a fatal error (60_exceptions.md R281). -/
def FatalKind.code : FatalKind → Nat
  | .decodeError => 1
  | .addressError => 2
  | .stackOverflow => 3
  | .stackUnderflow => 4
  | .runawayProgram => 5

/-- The host writes a register, SP among them, at a size (R298). -/
def State.hostReg (s : State) (i : Reg) (v : Word) (z : Size) : State := s.writeReg i v z

/-- The host writes the flags (R298). -/
def State.hostFlags (s : State) (f : Flags) : State := s.setFlags f

/-- The host writes pc (R298). -/
def State.hostPc (s : State) (a : Word) : State := s.setPc a

/-- The host writes Memory from an address on (R298). An out-of-range write is dropped whole, with no error:
DESIGN CHOICE, log entry 18. -/
def State.hostMemory (s : State) (a : Word) (bs : List Byte) : State := s.poke a bs

/-- The host writes `running`. On a Faulted core that changes nothing (R310: Faulted stays Faulted). -/
def State.hostRunning (s : State) (b : Bool) : State :=
  if s.fault.isSome then s else { s with running := b }

/-- The host appends key input to the Keyboard at an address (44_io.md R246). At an address with no Keyboard
nothing changes: DESIGN CHOICE, log entry 18. -/
def State.hostKey (s : State) (a v : Word) : State :=
  match deviceAt s.io a with
  | some (.keyboard q) => { s with io := setDeviceAt s.io a (.keyboard (q ++ [v])) }
  | _ => s

/-- The host reads the Screen at an address (R245); none where there is no Screen: DESIGN CHOICE, log
entry 18. -/
def State.hostScreen (s : State) (a : Word) : Option Word :=
  match deviceAt s.io a with
  | some (.screen l) => some l
  | _ => none

/-- The host steps with `tick` from here on, with no ceiling (70_reset_and_hazards.md R313). -/
def State.callTick (s : State) : State := { s with call := none }

/-- The host calls `run(max_cycles)`: the count starts at 0 (R312). -/
def State.callRun (s : State) (maxCycles : Nat) : State :=
  { s with call := some { maxCycles := maxCycles, cycles := 0 } }

/-- Is the core Running and not Faulted (R310)? -/
def State.isRunning (s : State) : Bool := s.running && s.fault.isNone

/-- Up to n turns of run's loop; it stops where the core has stopped (R312). -/
def runLoop : Nat → State → Result
  | 0, s => .next s
  | n + 1, s =>
    if s.isRunning then
      match step s with
      | .next t => runLoop n t
      | .fault f => .fault f
      | .refused r => .refused r
    else .next s

/-- `run(max_cycles)`: at most max_cycles steps and then, if the core is still Running, the turn that
raises RunawayProgram (R312, R313). On a Faulted core it returns the recorded error (R314). -/
def run (maxCycles : Nat) (s : State) : Result :=
  match s.fault with
  | some r => .fault (.fatal r)
  | none => runLoop (maxCycles + 1) (s.callRun maxCycles)

end Sys2Proof.Machine
end

