-- ==== Sys2Proof/Safety.lean ====
section
/-! DEFINITION. Safety.lean: the three states of the core and the invariant that every step keeps, in
the terms the claims use. -/

namespace Sys2Proof.Machine

/-- Running: `running = true` and no fault (70_reset_and_hazards.md R310). -/
def State.Running (s : State) : Prop := s.running = true ∧ s.fault = none

/-- Halted: `running = false` and no fault (R310, R321). -/
def State.Halted (s : State) : Prop := s.running = false ∧ s.fault = none

/-- Faulted: there is a fault record (R310, R321). -/
def State.Faulted (s : State) : Prop := s.fault ≠ none

/-- What holds between steps. -/
structure State.Inv (s : State) : Prop where
  /-- Memory is in canonical form. -/
  memCanonical : s.mem.wf = true
  /-- No byte is listed outside the address space 0 to MEM_SIZE - 1 (20_memory.md R50). -/
  memInside : s.mem.below s.cfg.memSize = true
  /-- A Faulted core does not run (60_exceptions.md R286). -/
  faultedStopped : s.fault ≠ none → s.running = false
  /-- At most one device is registered at each I/O address (44_io.md R240). -/
  oneDevicePerAddress : (s.io.map Prod.fst).Nodup
  /-- The transient Instruction exists only within a step (10_state.md R36). -/
  noTransient : s.inst = none
  /-- A run call never executes more steps than its ceiling (R313). -/
  withinCeiling : ∀ c, s.call = some c → c.cycles ≤ c.maxCycles

end Sys2Proof.Machine
end

