-- ==== Sys2Proof/Certificates/Slice0/Obligations.lean ====
section
/-! DEFINITION. Obligations.lean: the statements for the provers. The definitions of Sys2Proof.Forms say
in the spec's own terms what the statements speak of: the families of the opcode map by size, the
registers and flags an instruction may write (10_state.md R23, R27), where it stores, the values of
floating-point patterns (41_fpu.md R160). -/

namespace Sys2Proof.Forms

open Sys2Proof.Machine

/-! ### The sized families (30_encoding.md R92) -/

/-- ADD by size. -/
def add : Size → Reg → Reg → Instr
  | .b1, rd, rs => .add1 rd rs
  | .b2, rd, rs => .add2 rd rs
  | .b4, rd, rs => .add4 rd rs
  | .b8, rd, rs => .add8 rd rs

/-- SUB by size. -/
def sub : Size → Reg → Reg → Instr
  | .b1, rd, rs => .sub1 rd rs
  | .b2, rd, rs => .sub2 rd rs
  | .b4, rd, rs => .sub4 rd rs
  | .b8, rd, rs => .sub8 rd rs

/-- MUL by size. -/
def mul : Size → Reg → Reg → Instr
  | .b1, rd, rs => .mul1 rd rs
  | .b2, rd, rs => .mul2 rd rs
  | .b4, rd, rs => .mul4 rd rs
  | .b8, rd, rs => .mul8 rd rs

/-- DIV by size. -/
def div : Size → Reg → Reg → Instr
  | .b1, rd, rs => .div1 rd rs
  | .b2, rd, rs => .div2 rd rs
  | .b4, rd, rs => .div4 rd rs
  | .b8, rd, rs => .div8 rd rs

/-- DIVU by size. -/
def divu : Size → Reg → Reg → Instr
  | .b1, rd, rs => .divu1 rd rs
  | .b2, rd, rs => .divu2 rd rs
  | .b4, rd, rs => .divu4 rd rs
  | .b8, rd, rs => .divu8 rd rs

/-- MOD by size. -/
def mod : Size → Reg → Reg → Instr
  | .b1, rd, rs => .mod1 rd rs
  | .b2, rd, rs => .mod2 rd rs
  | .b4, rd, rs => .mod4 rd rs
  | .b8, rd, rs => .mod8 rd rs

/-- MODU by size. -/
def modu : Size → Reg → Reg → Instr
  | .b1, rd, rs => .modu1 rd rs
  | .b2, rd, rs => .modu2 rd rs
  | .b4, rd, rs => .modu4 rd rs
  | .b8, rd, rs => .modu8 rd rs

/-- CMP by size. -/
def cmp : Size → Reg → Reg → Instr
  | .b1, rd, rs => .cmp1 rd rs
  | .b2, rd, rs => .cmp2 rd rs
  | .b4, rd, rs => .cmp4 rd rs
  | .b8, rd, rs => .cmp8 rd rs

/-- LOAD by size. -/
def load : Size → Reg → Word → Instr
  | .b1, rd, imm => .load1 rd imm
  | .b2, rd, imm => .load2 rd imm
  | .b4, rd, imm => .load4 rd imm
  | .b8, rd, imm => .load8 rd imm

/-- STORE by size. -/
def store : Size → Reg → Word → Instr
  | .b1, rd, imm => .store1 rd imm
  | .b2, rd, imm => .store2 rd imm
  | .b4, rd, imm => .store4 rd imm
  | .b8, rd, imm => .store8 rd imm

/-- LOADR by size. -/
def loadr : Size → Reg → Reg → Instr
  | .b1, rd, rs => .loadr1 rd rs
  | .b2, rd, rs => .loadr2 rd rs
  | .b4, rd, rs => .loadr4 rd rs
  | .b8, rd, rs => .loadr8 rd rs

/-- STORER by size. -/
def storer : Size → Reg → Reg → Instr
  | .b1, rd, rs => .storer1 rd rs
  | .b2, rd, rs => .storer2 rd rs
  | .b4, rd, rs => .storer4 rd rs
  | .b8, rd, rs => .storer8 rd rs

/-- PUSH by size. -/
def push : Size → Reg → Instr
  | .b1, rd => .push1 rd
  | .b2, rd => .push2 rd
  | .b4, rd => .push4 rd
  | .b8, rd => .push8 rd

/-- POP by size. -/
def pop : Size → Reg → Instr
  | .b1, rd => .pop1 rd
  | .b2, rd => .pop2 rd
  | .b4, rd => .pop4 rd
  | .b8, rd => .pop8 rd

/-- FADD by format. -/
def fadd : FpFormat → Reg → Reg → Instr
  | .binary32, rd, rs => .fadd4 rd rs
  | .binary64, rd, rs => .fadd8 rd rs

/-- FSUB by format. -/
def fsub : FpFormat → Reg → Reg → Instr
  | .binary32, rd, rs => .fsub4 rd rs
  | .binary64, rd, rs => .fsub8 rd rs

/-- FMUL by format. -/
def fmul : FpFormat → Reg → Reg → Instr
  | .binary32, rd, rs => .fmul4 rd rs
  | .binary64, rd, rs => .fmul8 rd rs

/-- FDIV by format. -/
def fdiv : FpFormat → Reg → Reg → Instr
  | .binary32, rd, rs => .fdiv4 rd rs
  | .binary64, rd, rs => .fdiv8 rd rs

/-- FSQRT by format. -/
def fsqrt : FpFormat → Reg → Instr
  | .binary32, rd => .fsqrt4 rd
  | .binary64, rd => .fsqrt8 rd

/-- FSIN by format. -/
def fsin : FpFormat → Reg → Instr
  | .binary32, rd => .fsin4 rd
  | .binary64, rd => .fsin8 rd

/-- FCOS by format. -/
def fcos : FpFormat → Reg → Instr
  | .binary32, rd => .fcos4 rd
  | .binary64, rd => .fcos8 rd

/-! ### Integers (00_scope.md R6) -/

/-- The width in bits of an operand size. -/
def width (z : Size) : Nat := 8 * z.bytes

/-- The unsigned value of the low bytes of a word. -/
def low (v : Word) (z : Size) : Nat := v.toNat % 2 ^ width z

/-- The two's-complement value of the low bytes of a word. -/
def int (v : Word) (z : Size) : Int :=
  if (low v z).testBit (width z - 1) then (low v z : Int) - 2 ^ width z else low v z

/-- The flags of an integer result below 2^n: Z and N from it, C and V as given (40_alu_integer.md R112). -/
def intFlags (z : Size) (r : Nat) (c v : Bool) : Flags :=
  { z := decide (r = 0), n := r.testBit (width z - 1), c := c, v := v }

/-- The state after an instruction that writes a register and all four flags. -/
def wrote (s : State) (rd : Reg) (r : Nat) (f : Flags) : State :=
  { s with regs := s.regs.set rd (BitVec.ofNat 64 r), flags := f }

/-- The quotient of a signed division as a rational number, rounded by SDIV_MODE (R116). -/
def roundedQuotient (m : DivMode) (a b : Int) : Int :=
  match m with
  | .trunc => if (0 : ℚ) ≤ (a : ℚ) / b then ⌊(a : ℚ) / b⌋ else ⌈(a : ℚ) / b⌉
  | .floor => ⌊(a : ℚ) / b⌋

/-! ### Memory -/

/-- The value of k bytes from an address on, the least significant first (20_memory.md R52). -/
def memValue (s : State) (a k : Nat) : Nat :=
  ((List.range k).map fun i => (s.byteAt (a + i)).toNat * 2 ^ (8 * i)).sum

/-- The bytes of a value stand in Memory from an address on, and every byte outside is that of s (R53). -/
def StoredOnly (s : State) (m : Memory) (a k : Nat) (v : Word) : Prop :=
  (∀ i, i < k → (m.readByte (a + i)).toNat = v.toNat / 2 ^ (8 * i) % 256) ∧
  ∀ b, b < a ∨ a + k ≤ b → m.readByte b = s.byteAt b

/-- The Faulted state a fatal error during execution leaves (60_exceptions.md R286, R287). -/
def faulted (s : State) (kind : FatalKind) (address : Word) : State :=
  { s with
    pc := s.ipc
    running := false
    fault := some ⟨kind, s.ipc, s.inst.map (fun i => i.opcode), some address⟩ }

/-! ### What an instruction may write -/

/-- The registers an instruction may write (10_state.md R23). -/
def writesRegs : Instr → List Reg
  | .parar => []
  | .nop => []
  | .ret => [15]
  | .setz => []
  | .clrz => []
  | .setn => []
  | .clrn => []
  | .setc => []
  | .clrc => []
  | .setv => []
  | .clrv => []
  | .inc rd => [rd]
  | .dec rd => [rd]
  | .clear rd => [rd]
  | .shl rd => [rd]
  | .shr rd => [rd]
  | .push1 _ => [15]
  | .push2 _ => [15]
  | .push4 _ => [15]
  | .push8 _ => [15]
  | .pop1 rd => [15, rd]
  | .pop2 rd => [15, rd]
  | .pop4 rd => [15, rd]
  | .pop8 rd => [15, rd]
  | .fsqrt4 rd => [rd]
  | .fsqrt8 rd => [rd]
  | .fsin4 rd => [rd]
  | .fsin8 rd => [rd]
  | .fcos4 rd => [rd]
  | .fcos8 rd => [rd]
  | .mov rd _ => [rd]
  | .and rd _ => [rd]
  | .or rd _ => [rd]
  | .xor rd _ => [rd]
  | .add1 rd _ => [rd]
  | .add2 rd _ => [rd]
  | .add4 rd _ => [rd]
  | .add8 rd _ => [rd]
  | .sub1 rd _ => [rd]
  | .sub2 rd _ => [rd]
  | .sub4 rd _ => [rd]
  | .sub8 rd _ => [rd]
  | .mul1 rd _ => [rd]
  | .mul2 rd _ => [rd]
  | .mul4 rd _ => [rd]
  | .mul8 rd _ => [rd]
  | .div1 rd _ => [rd]
  | .div2 rd _ => [rd]
  | .div4 rd _ => [rd]
  | .div8 rd _ => [rd]
  | .divu1 rd _ => [rd]
  | .divu2 rd _ => [rd]
  | .divu4 rd _ => [rd]
  | .divu8 rd _ => [rd]
  | .mod1 rd _ => [rd]
  | .mod2 rd _ => [rd]
  | .mod4 rd _ => [rd]
  | .mod8 rd _ => [rd]
  | .modu1 rd _ => [rd]
  | .modu2 rd _ => [rd]
  | .modu4 rd _ => [rd]
  | .modu8 rd _ => [rd]
  | .cmp1 _ _ => []
  | .cmp2 _ _ => []
  | .cmp4 _ _ => []
  | .cmp8 _ _ => []
  | .fadd4 rd _ => [rd]
  | .fadd8 rd _ => [rd]
  | .fsub4 rd _ => [rd]
  | .fsub8 rd _ => [rd]
  | .fmul4 rd _ => [rd]
  | .fmul8 rd _ => [rd]
  | .fdiv4 rd _ => [rd]
  | .fdiv8 rd _ => [rd]
  | .loadr1 rd _ => [rd]
  | .loadr2 rd _ => [rd]
  | .loadr4 rd _ => [rd]
  | .loadr8 rd _ => [rd]
  | .storer1 _ _ => []
  | .storer2 _ _ => []
  | .storer4 _ _ => []
  | .storer8 _ _ => []
  | .loadv rd _ => [rd]
  | .cmpv _ _ => []
  | .load1 rd _ => [rd]
  | .load2 rd _ => [rd]
  | .load4 rd _ => [rd]
  | .load8 rd _ => [rd]
  | .store1 _ _ => []
  | .store2 _ _ => []
  | .store4 _ _ => []
  | .store8 _ _ => []
  | .jmp _ => []
  | .jeq _ => []
  | .jne _ => []
  | .jmi _ => []
  | .jpl _ => []
  | .jcs _ => []
  | .jcc _ => []
  | .jlt _ => []
  | .jge _ => []
  | .call _ => [15]
  | .svio _ _ => []
  | .loadio rd _ => [rd]
  | .showio _ => []

/-- The flags an instruction may write (R27). -/
def writesFlags : Instr → List FlagName
  | .parar => []
  | .nop => []
  | .ret => []
  | .setz => [.z]
  | .clrz => [.z]
  | .setn => [.n]
  | .clrn => [.n]
  | .setc => [.c]
  | .clrc => [.c]
  | .setv => [.v]
  | .clrv => [.v]
  | .inc _ => [.z, .n, .c, .v]
  | .dec _ => [.z, .n, .c, .v]
  | .clear _ => [.z, .n, .c, .v]
  | .shl _ => [.z, .n, .c, .v]
  | .shr _ => [.z, .n, .c, .v]
  | .push1 _ => []
  | .push2 _ => []
  | .push4 _ => []
  | .push8 _ => []
  | .pop1 _ => []
  | .pop2 _ => []
  | .pop4 _ => []
  | .pop8 _ => []
  | .fsqrt4 _ => [.z, .n, .c, .v]
  | .fsqrt8 _ => [.z, .n, .c, .v]
  | .fsin4 _ => [.z, .n, .c, .v]
  | .fsin8 _ => [.z, .n, .c, .v]
  | .fcos4 _ => [.z, .n, .c, .v]
  | .fcos8 _ => [.z, .n, .c, .v]
  | .mov _ _ => []
  | .and _ _ => [.z, .n, .c, .v]
  | .or _ _ => [.z, .n, .c, .v]
  | .xor _ _ => [.z, .n, .c, .v]
  | .add1 _ _ => [.z, .n, .c, .v]
  | .add2 _ _ => [.z, .n, .c, .v]
  | .add4 _ _ => [.z, .n, .c, .v]
  | .add8 _ _ => [.z, .n, .c, .v]
  | .sub1 _ _ => [.z, .n, .c, .v]
  | .sub2 _ _ => [.z, .n, .c, .v]
  | .sub4 _ _ => [.z, .n, .c, .v]
  | .sub8 _ _ => [.z, .n, .c, .v]
  | .mul1 _ _ => [.z, .n, .c, .v]
  | .mul2 _ _ => [.z, .n, .c, .v]
  | .mul4 _ _ => [.z, .n, .c, .v]
  | .mul8 _ _ => [.z, .n, .c, .v]
  | .div1 _ _ => [.z, .n, .c, .v]
  | .div2 _ _ => [.z, .n, .c, .v]
  | .div4 _ _ => [.z, .n, .c, .v]
  | .div8 _ _ => [.z, .n, .c, .v]
  | .divu1 _ _ => [.z, .n, .c, .v]
  | .divu2 _ _ => [.z, .n, .c, .v]
  | .divu4 _ _ => [.z, .n, .c, .v]
  | .divu8 _ _ => [.z, .n, .c, .v]
  | .mod1 _ _ => [.z, .n, .c, .v]
  | .mod2 _ _ => [.z, .n, .c, .v]
  | .mod4 _ _ => [.z, .n, .c, .v]
  | .mod8 _ _ => [.z, .n, .c, .v]
  | .modu1 _ _ => [.z, .n, .c, .v]
  | .modu2 _ _ => [.z, .n, .c, .v]
  | .modu4 _ _ => [.z, .n, .c, .v]
  | .modu8 _ _ => [.z, .n, .c, .v]
  | .cmp1 _ _ => [.z, .n, .c, .v]
  | .cmp2 _ _ => [.z, .n, .c, .v]
  | .cmp4 _ _ => [.z, .n, .c, .v]
  | .cmp8 _ _ => [.z, .n, .c, .v]
  | .fadd4 _ _ => [.z, .n, .c, .v]
  | .fadd8 _ _ => [.z, .n, .c, .v]
  | .fsub4 _ _ => [.z, .n, .c, .v]
  | .fsub8 _ _ => [.z, .n, .c, .v]
  | .fmul4 _ _ => [.z, .n, .c, .v]
  | .fmul8 _ _ => [.z, .n, .c, .v]
  | .fdiv4 _ _ => [.z, .n, .c, .v]
  | .fdiv8 _ _ => [.z, .n, .c, .v]
  | .loadr1 _ _ => []
  | .loadr2 _ _ => []
  | .loadr4 _ _ => []
  | .loadr8 _ _ => []
  | .storer1 _ _ => []
  | .storer2 _ _ => []
  | .storer4 _ _ => []
  | .storer8 _ _ => []
  | .loadv _ _ => []
  | .cmpv _ _ => [.z, .n, .c, .v]
  | .load1 _ _ => []
  | .load2 _ _ => []
  | .load4 _ _ => []
  | .load8 _ _ => []
  | .store1 _ _ => []
  | .store2 _ _ => []
  | .store4 _ _ => []
  | .store8 _ _ => []
  | .jmp _ => []
  | .jeq _ => []
  | .jne _ => []
  | .jmi _ => []
  | .jpl _ => []
  | .jcs _ => []
  | .jcc _ => []
  | .jlt _ => []
  | .jge _ => []
  | .call _ => []
  | .svio _ _ => []
  | .loadio _ _ => []
  | .showio _ => []

/-- One flag of the four. -/
def flag (f : Flags) : FlagName → Bool
  | .z => f.z
  | .n => f.n
  | .c => f.c
  | .v => f.v

/-- The first byte and the number of bytes an instruction stores to, computed as its meaning does. -/
def storesTo (i : Instr) (s : State) : Option (Nat × Nat) :=
  match i with
  | .store1 _ a => some (a.toNat, 1)
  | .store2 _ a => some (a.toNat, 2)
  | .store4 _ a => some (a.toNat, 4)
  | .store8 _ a => some (a.toNat, 8)
  | .storer1 _ rs => some ((s.indirect rs).toNat, 1)
  | .storer2 _ rs => some ((s.indirect rs).toNat, 2)
  | .storer4 _ rs => some ((s.indirect rs).toNat, 4)
  | .storer8 _ rs => some ((s.indirect rs).toNat, 8)
  | .push1 _ => some (s.pushAddress.toNat, 1)
  | .push2 _ => some (s.pushAddress.toNat, 2)
  | .push4 _ => some (s.pushAddress.toNat, 4)
  | .push8 _ => some (s.pushAddress.toNat, 8)
  | .call _ => some (s.pushAddress.toNat, 8)
  | _ => none

/-- The instructions that reach the I/O space (20_memory.md R61). -/
def reachesIo : Instr → Bool
  | .svio _ _ => true
  | .loadio _ _ => true
  | .showio _ => true
  | _ => false

/-- The floating-point instructions that can warn (41_fpu.md R172). -/
def fpWarns : Instr → Bool
  | .fdiv4 _ _ => true
  | .fdiv8 _ _ => true
  | .fsqrt4 _ => true
  | .fsqrt8 _ => true
  | _ => false

/-- The instructions that write pc beyond the fetch's advance (10_state.md R30). -/
def writesPc : Instr → Bool
  | .jmp _ => true
  | .jeq _ => true
  | .jne _ => true
  | .jmi _ => true
  | .jpl _ => true
  | .jcs _ => true
  | .jcc _ => true
  | .jlt _ => true
  | .jge _ => true
  | .call _ => true
  | .ret => true
  | _ => false

/-! ### Floating point (41_fpu.md R160, R167 to R169) -/

/-- Width of the pattern. -/
def fpBits : FpFormat → Nat
  | .binary32 => 32
  | .binary64 => 64

/-- Width of the fraction field. -/
def fracBits : FpFormat → Nat
  | .binary32 => 23
  | .binary64 => 52

/-- Width of the exponent field. -/
def expBits : FpFormat → Nat
  | .binary32 => 8
  | .binary64 => 11

/-- The bias of the exponent. -/
def bias (f : FpFormat) : Nat := 2 ^ (expBits f - 1) - 1

/-- The exponent field. -/
def expField (f : FpFormat) (x : Nat) : Nat := x / 2 ^ fracBits f % 2 ^ expBits f

/-- The fraction field. -/
def fracField (f : FpFormat) (x : Nat) : Nat := x % 2 ^ fracBits f

/-- The sign bit. -/
def signBit (f : FpFormat) (x : Nat) : Bool := x.testBit (fpBits f - 1)

/-- Bits [8*sz-2:0] are all zero: +0 or -0. -/
def IsZero (f : FpFormat) (x : Nat) : Prop := x % 2 ^ (fpBits f - 1) = 0

/-- Neither NaN nor infinite. -/
def IsFinite (f : FpFormat) (x : Nat) : Prop := expField f x ≠ 2 ^ expBits f - 1

/-- An infinity. -/
def IsInf (f : FpFormat) (x : Nat) : Prop :=
  expField f x = 2 ^ expBits f - 1 ∧ fracField f x = 0

/-- A NaN. -/
def IsNan (f : FpFormat) (x : Nat) : Prop :=
  expField f x = 2 ^ expBits f - 1 ∧ fracField f x ≠ 0

/-- The flags of a floating-point result (R167 to R169). -/
def fpFlags (f : FpFormat) (r : Nat) : Flags :=
  { z := decide (r % 2 ^ (fpBits f - 1) = 0)
    n := signBit f r
    c := false
    v := decide (expField f r = 2 ^ expBits f - 1) }

/-- The operand of a register at a format (R162). -/
def fpOperand (s : State) (i : Reg) (f : FpFormat) : Nat := (s.x i).toNat % 2 ^ fpBits f

/-- The infinity of a sign. -/
def inf (f : FpFormat) (neg : Bool) : Nat :=
  (if neg then 2 ^ (fpBits f - 1) else 0) + (2 ^ expBits f - 1) * 2 ^ fracBits f

/-- The zero of a sign. -/
def zero (f : FpFormat) (neg : Bool) : Nat := if neg then 2 ^ (fpBits f - 1) else 0

/-- The exact value of a finite pattern (R160, R164). -/
def value (f : FpFormat) (x : Nat) : ℚ :=
  (if signBit f x then -1 else 1) *
    (if expField f x = 0 then (fracField f x : ℚ) * 2 ^ (1 - (bias f : ℤ) - fracBits f)
     else ((2 ^ fracBits f + fracField f x : Nat) : ℚ) *
       2 ^ ((expField f x : ℤ) - bias f - fracBits f))

/-- The least magnitude that rounds to infinity: half a unit in the last place above the largest finite
value (R166). -/
def overflowAt (f : FpFormat) : ℚ := (2 - 1 / 2 ^ (fracBits f + 1)) * 2 ^ bias f

/-- r is x rounded to nearest, ties to even, in a format: no finite pattern is nearer, and where another
value is as near, r's last bit is 0; from the overflow threshold on r is the infinity of x's sign
(R163, R164, R166). -/
def CorrectlyRounded (f : FpFormat) (x : ℚ) (r : Nat) : Prop :=
  if |x| < overflowAt f then
    IsFinite f r ∧ ∀ y, y < 2 ^ fpBits f → IsFinite f y →
      |value f r - x| ≤ |value f y - x| ∧
      (|value f r - x| = |value f y - x| → value f y ≠ value f r → r % 2 = 0)
  else r = inf f (decide (x < 0))

end Sys2Proof.Forms

open Sys2Proof Sys2Proof.Machine

/-! ### Encoding and decode (30_encoding.md) -/

/-- Under every opcode map that gives each instruction a number, R91's among them, decode of an encoded
instruction, whatever bytes follow, gives that instruction and those bytes, with every register number and all
64 bits of every immediate, and a well-formed record (R80, R86, R87, R97). It rests on the spec's own choices
D1, D3 (92_eei_decisions.md). The model's own conventions in it: log entry 13. -/
def Obligations.EncodeThenDecodeGivesTheInstruction : Prop :=
  opcodeTable.Complete ∧
  ∀ (map : OpcodeMap), map.Complete → ∀ (i : Instr) (rest : List Byte), ∃ d : Decoded,
    decodeBytes map (encodeBytes map i ++ rest) = .ok (d, rest) ∧ d.instr = i ∧
      d.record.wellFormed (formatOf map) = true

/-- Under every opcode map a word is rejected for its opcode, whatever follows it, exactly where the map does
not list that opcode; and exactly the opcodes outside the listed gaps of R91 are defined in the map of R91 (R89,
R91). It rests on the spec's own choice D1 (92_eei_decisions.md). The model's own conventions in it: log entry
13. -/
def Obligations.OpcodesOutsideTheMapAreRejected : Prop :=
  (∀ (map : OpcodeMap) (w : Word) (next : Option Word),
    decode map w next = .error (.unknownOpcode (opcodeField w)) ↔
      ∀ m : Mnemonic, (opcodeField w, m) ∉ map) ∧
  ∀ op : Opcode,
    (∀ (w : Word) (next : Option Word), opcodeField w = op →
      decode opcodeTable w next = .error (.unknownOpcode op)) ↔
    ((0x0003 ≤ op.toNat ∧ op.toNat ≤ 0x000F) ∨ (0x0018 ≤ op.toNat ∧ op.toNat ≤ 0x00FF) ∨
     (0x0105 ≤ op.toNat ∧ op.toNat ≤ 0x010F) ∨ (0x0118 ≤ op.toNat ∧ op.toNat ≤ 0x011F) ∨
     (0x0126 ≤ op.toNat ∧ op.toNat ≤ 0x01FF) ∨ (0x0204 ≤ op.toNat ∧ op.toNat ≤ 0x020F) ∨
     (0x0230 ≤ op.toNat ∧ op.toNat ≤ 0x023F) ∨ (0x0248 ≤ op.toNat ∧ op.toNat ≤ 0x024F) ∨
     (0x0258 ≤ op.toNat ∧ op.toNat ≤ 0x02FF) ∨ (0x0302 ≤ op.toNat ∧ op.toNat ≤ 0x030F) ∨
     (0x0318 ≤ op.toNat ∧ op.toNat ≤ 0x031F) ∨ (0x0329 ≤ op.toNat ∧ op.toNat ≤ 0x032F) ∨
     (0x0331 ≤ op.toNat ∧ op.toNat ≤ 0x033F) ∨ (0x0343 ≤ op.toNat ∧ op.toNat ≤ 0xFFFF))

/-- Under every opcode map decode looks at the opcode and the fields of its format only: two words that agree
there decode alike. The nine jumps, CALL and SHOWIO, whatever numbers the map gives them, do not look at the
register field either (R85, R88, R91). It rests on the spec's own choices D1, D3 (92_eei_decisions.md). The
model's own conventions in it: log entry 13. -/
def Obligations.DecodeIgnoresUnusedBits : Prop :=
  (∀ (map : OpcodeMap) (w w' : Word) (next : Option Word) (f : Format),
    formatOf map (opcodeField w) = some f → opcodeField w' = opcodeField w →
    (f = .r ∨ f = .ri → w'.toNat / 2 ^ 44 % 16 = w.toNat / 2 ^ 44 % 16) →
    (f = .rr → w'.toNat % 256 = w.toNat % 256) →
    decode map w' next = decode map w next) ∧
  ∀ (map : OpcodeMap) (w w' imm : Word) (m : Mnemonic) (d d' : Decoded),
    m ∈ ([.jmp, .jeq, .jne, .jmi, .jpl, .jcs, .jcc, .jlt, .jge, .call, .showio] : List Mnemonic) →
    lookupOpcode map (opcodeField w) = some m → opcodeField w' = opcodeField w →
    decode map w (some imm) = .ok d → decode map w' (some imm) = .ok d' → d'.instr = d.instr

/-- What decode answers, under every opcode map, is the record of R90: the word's opcode with the format of the
opcode map, rd for the formats R, RR and RI, rs for RR, imm for RI, each read from the bits of R83 to R85 and
R87. It rests on the spec's own choice D1 (92_eei_decisions.md). The model's own conventions in it: log entry
13. -/
def Obligations.DecodedRecordHoldsTheFields : Prop :=
  ∀ (map : OpcodeMap) (w : Word) (next : Option Word) (d : Decoded), decode map w next = .ok d →
    d.record.wellFormed (formatOf map) = true ∧
    d.record.opcode.toNat = w.toNat / 2 ^ 48 ∧
    (d.record.format = .r ∨ d.record.format = .ri →
      ∃ r : Reg, d.record.rd = some r ∧ r.val = w.toNat / 2 ^ 44 % 16) ∧
    (d.record.format = .rr →
      ∃ r r' : Reg, d.record.rd = some r ∧ d.record.rs = some r' ∧
        r.val = w.toNat / 2 ^ 4 % 16 ∧ r'.val = w.toNat % 16) ∧
    (d.record.format = .ri → d.record.imm = next)

/-- Words written out in the spec decode to the instructions they stand for (95_test_vectors.md). It rests on
the spec's own choice D1 (92_eei_decisions.md). The model's own conventions in it: log entry 13. -/
def Obligations.WordsOfTheSpecDecode : Prop :=
  decodeTableWord 64 0x0000000000000000 = some .parar ∧
  decodeTableWord 64 0x0213000000000021 = some (.add8 2 1) ∧
  decodeTableWord 64 0x021F000000000012 = some (.div8 1 2) ∧
  decodeTableWord 64 0x0121100000000000 = some (.fsqrt8 1) ∧
  decodeTableWord 64 0x0117400000000000 = some (.pop8 4) ∧
  decodeTableWord 64 0x0250000000000041 = some (.loadr1 4 1) ∧
  decodeTableWord 128 (0x0300100000000000 + 5 * 2 ^ 64) = some (.loadv 1 5) ∧
  decodeTableWord 128 (0x0322000000000000 + 0x18 * 2 ^ 64) = some (.jne 0x18) ∧
  decodeTableWord 128 (0x0340200000000000 + 0x30 * 2 ^ 64) = some (.svio 2 0x30)

/-! ### The step (70_reset_and_hazards.md) -/

/-- On a Running core below its ceiling, whose instruction word w is fetched at pc and decodes to d (the second
fetch being at pc + 8), step executes d's instruction in the state after fetch and decode: ipc is the old pc,
the transient record is in place and pc is past the instruction. After it the transient record is gone and,
unless a fatal error was raised, the run call counts one cycle (R97, R311, R312). It rests on the spec's own
choices D33, D43 (92_eei_decisions.md). The model's own conventions in it: log entries 11, 12, 13. -/
def Obligations.StepRunsTheDecodedInstruction : Prop :=
  ∀ (s : State) (w : Word) (d : Decoded),
    s.fault = none → s.running = true → s.ceilingReached = false →
    s.memRead s.pc .b8 = some w → decode s.cfg.opcodeMap w (s.memRead (s.pc + 8) .b8) = .ok d →
    step s =
      match exec d.instr
          { s with
            ipc := s.pc
            inst := some d.record
            pc := s.pc + (if d.record.format = .ri then 16 else 8) } with
      | .next t =>
        .next { t with
          inst := none
          call := if t.fault = none then t.call.map (fun c => ⟨c.maxCycles, c.cycles + 1⟩) else t.call }
      | .fault r => .fault r
      | .refused r => .refused r

/-- The fatal errors of fetch and decode, each of which leaves everything but ipc as it was and reports what
R287 says: an instruction word out of range (no opcode); an opcode not in the map, whether or not a second word
is there (its opcode, no address); an immediate word out of range (its opcode, the address pc + 8). It rests on
the spec's own choices D31, D32 (92_eei_decisions.md). The model's own conventions in it: log entries 10, 12,
13. -/
def Obligations.FetchAndDecodeErrorsAreFatal : Prop :=
  ∀ s : State, s.fault = none → s.running = true → s.ceilingReached = false →
    (s.cfg.memSize < s.pc.toNat + 8 →
      step s = .next { s with
        ipc := s.pc, inst := none, running := false
        fault := some ⟨.addressError, s.pc, none, some s.pc⟩ }) ∧
    (∀ w, s.memRead s.pc .b8 = some w → formatOf s.cfg.opcodeMap (opcodeField w) = none →
      step s = .next { s with
        ipc := s.pc, inst := none, running := false
        fault := some ⟨.decodeError, s.pc, some (opcodeField w), none⟩ }) ∧
    (∀ w, s.memRead s.pc .b8 = some w → formatOf s.cfg.opcodeMap (opcodeField w) = some .ri →
      s.memRead (s.pc + 8) .b8 = none →
      step s = .next { s with
        ipc := s.pc, inst := none, running := false
        fault := some ⟨.addressError, s.pc, some (opcodeField w), some (s.pc + 8)⟩ })

/-- A step of a Faulted core returns the recorded error; a step of a Halted core changes nothing (R314). It
rests on the spec's own choice D34 (92_eei_decisions.md). The model's own conventions in it: log entry 10. -/
def Obligations.StoppedCoreDoesNotStep : Prop :=
  (∀ (s : State) (r : FaultRecord), s.fault = some r → step s = .fault (.fatal r)) ∧
  ∀ s : State, s.fault = none → s.running = false → step s = .next s

/-- In a run call that has executed max_cycles steps, a Running core raises RunawayProgram before the next step,
with the pc of that step; below the ceiling, and outside a run call, no step raises it (R285, R313). It rests on
the spec's own choice D33 (92_eei_decisions.md). The model's own conventions in it: log entry 11. -/
def Obligations.RunawayExactlyAtTheCeiling : Prop :=
  (∀ (s : State) (c : RunCall), s.fault = none → s.running = true → s.call = some c →
    c.maxCycles ≤ c.cycles →
    step s = .next { s with
      running := false, fault := some ⟨.runawayProgram, s.pc, none, none⟩ }) ∧
  ∀ s t : State, s.fault = none → (∀ c, s.call = some c → c.cycles < c.maxCycles) →
    step s = .next t → ∀ r, t.fault = some r → r.kind ≠ .runawayProgram

/-- `run(n)` on a core that is not Faulted returns with the core Halted or Faulted after at most n executed
steps, and if it raises RunawayProgram it has executed exactly n (R312, R313). It rests on the spec's own choice
D33 (92_eei_decisions.md). The model's own conventions in it: log entry 11. -/
def Obligations.RunStopsWithinItsCeiling : Prop :=
  ∀ (n : Nat) (s : State), s.fault = none →
    ∃ (t : State) (c : RunCall), run n s = .next t ∧ (t.Halted ∨ (t.Faulted ∧ t.running = false)) ∧
      t.call = some c ∧ c.maxCycles = n ∧ c.cycles ≤ n ∧
      ∀ r, t.fault = some r → r.kind = .runawayProgram → c.cycles = n

/-- Every step keeps the invariant: Memory canonical and inside its size, a Faulted core stopped, one device per
address, no transient record between steps, and a run call within its ceiling. It rests on the spec's own choice
D31 (92_eei_decisions.md). The model's own conventions in it: log entries 4, 6, 10, 11, 12. -/
def Obligations.EveryStepKeepsTheInvariant : Prop :=
  ∀ s t : State, s.Inv → step s = .next t → t.Inv

/-- At launch the core is Running with no fault, and pc, registers, flags, Memory and the registry are the
launch arguments (R37, R310, R315); with a canonical image inside Memory and one device per address the
invariant holds. It holds at reset, which is a launch. It rests on the spec's own choices D7, D8, D41
(92_eei_decisions.md). The model's own conventions in it: log entries 1, 2, 3, 4, 5, 6, 7, 13. -/
def Obligations.LaunchAndResetMeetTheInvariant : Prop :=
  (∀ l : Launch,
    (launch l).Running ∧ (launch l).pc = l.pc ∧ (launch l).regs = l.regs ∧
    (launch l).flags = l.flags ∧ (launch l).mem = l.mem ∧ (launch l).io = l.io ∧
    (launch l).cfg = l.cfg ∧
    (l.mem.wf = true → l.mem.below l.cfg.memSize = true → (l.io.map Prod.fst).Nodup →
      (launch l).Inv)) ∧
  State.reset.Inv

/-- No step changes the implementation parameters, or which I/O addresses have a device (00_scope.md R4,
44_io.md R240). It rests on the spec's own choice D28 (92_eei_decisions.md). The model's own conventions in it:
log entries 1, 6, 13. -/
def Obligations.ParametersAndRegistryNeverChange : Prop :=
  ∀ s t : State, step s = .next t →
    t.cfg = s.cfg ∧ t.io.map Prod.fst = s.io.map Prod.fst

/-- Fatal errors are precise: a step that raises one keeps registers, flags, pc, Memory, devices and logs, stops
the core, and reports the pc of the failing step (60_exceptions.md R286, R287). It rests on the spec's own
choice D31 (92_eei_decisions.md). The model's own conventions in it: log entries 8, 9, 10, 11, 12. -/
def Obligations.FatalErrorsArePrecise : Prop :=
  ∀ (s t : State) (r : FaultRecord), s.fault = none → step s = .next t → t.fault = some r →
    t.regs = s.regs ∧ t.flags = s.flags ∧ t.pc = s.pc ∧ t.mem = s.mem ∧ t.io = s.io ∧
    t.ioCalls = s.ioCalls ∧ t.warnings = s.warnings ∧ t.draws = s.draws ∧ t.call = s.call ∧
    t.running = false ∧ r.ipc = s.pc

/-- PARAR is the only instruction that moves the core from Running to Halted (10_state.md R33). It rests on the
spec's own choice D31 (92_eei_decisions.md). The model's own conventions in it: log entry 10. -/
def Obligations.OnlyPararHalts : Prop :=
  ∀ (i : Instr) (s t : State), exec i s = .next t → s.running = true → t.running = false →
    i = .parar ∨ t.fault ≠ none

/-- No instruction ends the machine: each answers a next state in every state, with its effect or with the fatal
error it raises (60_exceptions.md R280, R286, R292). It rests on the spec's own choice D31
(92_eei_decisions.md). The model's own conventions in it: log entry 10. -/
def Obligations.EveryInstructionAnswersANextState : Prop :=
  ∀ (i : Instr) (s : State), ∃ t : State, exec i s = .next t

/-! ### Frames: what every instruction leaves unchanged -/

/-- An instruction leaves every register unchanged but those R23 lists for it. It rests on the spec's own choice
D2 (92_eei_decisions.md). -/
def Obligations.OnlyListedRegistersChange : Prop :=
  ∀ (i : Instr) (s t : State) (r : Reg), exec i s = .next t → r ∉ Forms.writesRegs i → t.x r = s.x r

/-- An instruction leaves every flag unchanged but those R27 lists for it. It rests on the spec's own choices
D13, D14, D15, D16, D17 (92_eei_decisions.md). -/
def Obligations.OnlyListedFlagsChange : Prop :=
  ∀ (i : Instr) (s t : State) (k : FlagName), exec i s = .next t → k ∉ Forms.writesFlags i →
    Forms.flag t.flags k = Forms.flag s.flags k

/-- An instruction leaves every byte of Memory unchanged but those it stores to: STORE its size from the
immediate, STORER its size from the address register, PUSH its size and CALL eight bytes from SP (20_memory.md
R57). Every other instruction leaves all of Memory unchanged. -/
def Obligations.OnlyStoredBytesChange : Prop :=
  ∀ (i : Instr) (s t : State) (b : Nat), s.mem.wf = true → exec i s = .next t →
    (∀ a k, Forms.storesTo i s = some (a, k) → b < a ∨ a + k ≤ b) → t.byteAt b = s.byteAt b

/-- Only SVIO, LOADIO and SHOWIO reach the devices, and only they and FDIV and FSQRT can warn (20_memory.md R61,
41_fpu.md R172, 44_io.md R241 to R243). It rests on the spec's own choices D28, D39 (92_eei_decisions.md). The
model's own conventions in it: log entries 8, 9. -/
def Obligations.OnlyIoInstructionsReachDevices : Prop :=
  ∀ (i : Instr) (s t : State), exec i s = .next t → Forms.reachesIo i = false →
    t.io = s.io ∧ t.ioCalls = s.ioCalls ∧ t.draws = s.draws ∧
      (Forms.fpWarns i = false → t.warnings = s.warnings)

/-- An instruction leaves the parameters, ipc, the transient record and the run call as they are; pc only a
jump, CALL, RET or a fatal error changes, and the run state and the fault record only a fatal error and, for the
run state, PARAR (10_state.md R30, R33, 60_exceptions.md R286). It rests on the spec's own choice D31
(92_eei_decisions.md). The model's own conventions in it: log entries 10, 11, 12. -/
def Obligations.ControlStateFrame : Prop :=
  ∀ (i : Instr) (s t : State), exec i s = .next t →
    t.cfg = s.cfg ∧ t.ipc = s.ipc ∧ t.inst = s.inst ∧ t.call = s.call ∧
    ((t.fault = s.fault ∧ (i = .parar ∨ t.running = s.running) ∧
        (Forms.writesPc i = true ∨ t.pc = s.pc)) ∨
      (∃ kind a, t = Forms.faulted s kind a))

/-! ### Registers (10_state.md) -/

/-- The sized ports: a read gives the low bytes; a write replaces the whole register by the low bytes of the
value and leaves every other register as it was; R15 is a register like the others (R20 to R22). -/
def Obligations.SizedRegisterPorts : Prop :=
  ∀ (s : State) (i j : Reg) (v : Word) (z : Size),
    (s.readReg i z).toNat = Forms.low (s.x i) z ∧
    ((s.writeReg i v z).x i).toNat = Forms.low v z ∧
    (j ≠ i → (s.writeReg i v z).x j = s.x j)

/-! ### Integer instructions (40_alu_integer.md) -/

/-- ADD at every size: the masked sum replaces Rd; C is the unsigned and V the signed overflow (R112, R113). -/
def Obligations.AddWritesSumAndFlags : Prop :=
  ∀ (z : Size) (rd rs : Reg) (s : State),
    let n := Forms.width z
    let a := Forms.low (s.x rd) z
    let b := Forms.low (s.x rs) z
    let r := (a + b) % 2 ^ n
    exec (Forms.add z rd rs) s = .next (Forms.wrote s rd r
      (Forms.intFlags z r (decide (2 ^ n - 1 < a + b))
        (decide (a.testBit (n - 1) = b.testBit (n - 1) ∧ r.testBit (n - 1) ≠ a.testBit (n - 1)))))

/-- SUB at every size: the masked difference replaces Rd; C is the borrow a < b, and V the signed overflow
(R112, R114). -/
def Obligations.SubWritesDifferenceAndFlags : Prop :=
  ∀ (z : Size) (rd rs : Reg) (s : State),
    let n := Forms.width z
    let a := Forms.low (s.x rd) z
    let b := Forms.low (s.x rs) z
    let r := if b ≤ a then a - b else a + 2 ^ n - b
    exec (Forms.sub z rd rs) s = .next (Forms.wrote s rd r
      (Forms.intFlags z r (decide (a < b))
        (decide (a.testBit (n - 1) ≠ b.testBit (n - 1) ∧ r.testBit (n - 1) ≠ a.testBit (n - 1)))))

/-- MUL at every size: the low half of the product, which is that of the signed product too; C says that the
unsigned product, V that the signed product, lies outside its range (R112, R115). It rests on the spec's own
choice D11 (92_eei_decisions.md). -/
def Obligations.MulWritesLowProductAndFlags : Prop :=
  ∀ (z : Size) (rd rs : Reg) (s : State),
    let n := Forms.width z
    let a := Forms.low (s.x rd) z
    let b := Forms.low (s.x rs) z
    let p := Forms.int (s.x rd) z * Forms.int (s.x rs) z
    let r := a * b % 2 ^ n
    exec (Forms.mul z rd rs) s = .next (Forms.wrote s rd r
      (Forms.intFlags z r (decide (2 ^ n - 1 < a * b))
        (decide (¬(-(2 ^ (n - 1)) ≤ p ∧ p ≤ 2 ^ (n - 1) - 1))))) ∧
    (r : Int) = p % 2 ^ n

/-- DIV at every size: Rd by Rs as signed numbers, the rational quotient rounded by SDIV_MODE; V only where the
quotient exceeds SMAX; a zero divisor gives 0 with Z = 1, N = 0, C = 0, V = 1 and no error (R112, R116). It
rests on the spec's own choices D10, D12 (92_eei_decisions.md). The model's own conventions in it: log entry 5.
-/
def Obligations.DivWritesRoundedQuotient : Prop :=
  ∀ (z : Size) (rd rs : Reg) (s : State),
    let n := Forms.width z
    let q := Forms.roundedQuotient s.cfg.divMode (Forms.int (s.x rd) z) (Forms.int (s.x rs) z)
    let r := (q % 2 ^ n).toNat
    exec (Forms.div z rd rs) s =
      if Forms.low (s.x rs) z = 0 then .next (Forms.wrote s rd 0 ⟨true, false, false, true⟩)
      else .next (Forms.wrote s rd r (Forms.intFlags z r false (decide ((2 : Int) ^ (n - 1) - 1 < q))))

/-- DIVU at every size: the quotient of the unsigned numbers, C and V 0; a zero divisor as for DIV (R112, R116).
It rests on the spec's own choice D12 (92_eei_decisions.md). -/
def Obligations.DivuWritesQuotient : Prop :=
  ∀ (z : Size) (rd rs : Reg) (s : State),
    let a := Forms.low (s.x rd) z
    let b := Forms.low (s.x rs) z
    exec (Forms.divu z rd rs) s =
      if b = 0 then .next (Forms.wrote s rd 0 ⟨true, false, false, true⟩)
      else .next (Forms.wrote s rd (a / b) (Forms.intFlags z (a / b) false false))

/-- MOD at every size: a - b * q for the quotient q of DIV, masked, C and V 0; a zero divisor as for DIV (R112,
R117). It rests on the spec's own choices D10, D12 (92_eei_decisions.md). The model's own conventions in it: log
entry 5. -/
def Obligations.ModWritesRemainder : Prop :=
  ∀ (z : Size) (rd rs : Reg) (s : State),
    let n := Forms.width z
    let a := Forms.int (s.x rd) z
    let b := Forms.int (s.x rs) z
    let r := ((a - b * Forms.roundedQuotient s.cfg.divMode a b) % 2 ^ n).toNat
    exec (Forms.mod z rd rs) s =
      if Forms.low (s.x rs) z = 0 then .next (Forms.wrote s rd 0 ⟨true, false, false, true⟩)
      else .next (Forms.wrote s rd r (Forms.intFlags z r false false))

/-- MODU at every size: the remainder of the unsigned numbers, C and V 0; a zero divisor as for DIV (R112,
R117). It rests on the spec's own choice D12 (92_eei_decisions.md). -/
def Obligations.ModuWritesRemainder : Prop :=
  ∀ (z : Size) (rd rs : Reg) (s : State),
    let a := Forms.low (s.x rd) z
    let b := Forms.low (s.x rs) z
    exec (Forms.modu z rd rs) s =
      if b = 0 then .next (Forms.wrote s rd 0 ⟨true, false, false, true⟩)
      else .next (Forms.wrote s rd (a % b) (Forms.intFlags z (a % b) false false))

/-- CMP at every size and CMPV write the flags of the difference and nothing else (R114, R129, R130). It rests
on the spec's own choice D18 (92_eei_decisions.md). -/
def Obligations.CompareWritesOnlyFlags : Prop :=
  (∀ (z : Size) (rd rs : Reg) (s : State),
    let n := Forms.width z
    let a := Forms.low (s.x rd) z
    let b := Forms.low (s.x rs) z
    let r := if b ≤ a then a - b else a + 2 ^ n - b
    exec (Forms.cmp z rd rs) s = .next { s with
      flags := Forms.intFlags z r (decide (a < b))
        (decide (a.testBit (n - 1) ≠ b.testBit (n - 1) ∧ r.testBit (n - 1) ≠ a.testBit (n - 1))) }) ∧
  ∀ (rd : Reg) (imm : Word) (s : State),
    let a := (s.x rd).toNat
    let b := imm.toNat
    let r := if b ≤ a then a - b else a + 2 ^ 64 - b
    exec (.cmpv rd imm) s = .next { s with
      flags := Forms.intFlags .b8 r (decide (a < b))
        (decide (a.testBit 63 ≠ b.testBit 63 ∧ r.testBit 63 ≠ a.testBit 63)) }

/-- After CMP, Z says that the operands are equal at the size, C that the first is less unsigned, and N xor V
that it is less signed (R129). It rests on the spec's own choice D18 (92_eei_decisions.md). -/
def Obligations.CompareOrdersTheOperands : Prop :=
  ∀ (z : Size) (rd rs : Reg) (s t : State), exec (Forms.cmp z rd rs) s = .next t →
    (t.flags.z = true ↔ Forms.low (s.x rd) z = Forms.low (s.x rs) z) ∧
    (t.flags.c = true ↔ Forms.low (s.x rd) z < Forms.low (s.x rs) z) ∧
    ((t.flags.n ^^ t.flags.v) = true ↔ Forms.int (s.x rd) z < Forms.int (s.x rs) z)

/-- INC and DEC add and subtract 1 at size 8 and write all four flags (R113, R114, R131, R132). It rests on the
spec's own choice D15 (92_eei_decisions.md). -/
def Obligations.IncAndDecWriteResultAndFlags : Prop :=
  ∀ (rd : Reg) (s : State),
    let a := (s.x rd).toNat
    let i := (a + 1) % 2 ^ 64
    let d := (a + (2 ^ 64 - 1)) % 2 ^ 64
    exec (.inc rd) s = .next (Forms.wrote s rd i
      (Forms.intFlags .b8 i (decide (a = 2 ^ 64 - 1)) (decide (a = 2 ^ 63 - 1)))) ∧
    exec (.dec rd) s = .next (Forms.wrote s rd d
      (Forms.intFlags .b8 d (decide (a = 0)) (decide (a = 2 ^ 63))))

/-- AND, OR and XOR work bit by bit on all 64 bits; Z and N come from the result, C and V are 0 (R120). It rests
on the spec's own choice D13 (92_eei_decisions.md). -/
def Obligations.LogicWritesBitwiseResult : Prop :=
  ∀ (rd rs : Reg) (s : State),
    let a := s.x rd
    let b := s.x rs
    exec (.and rd rs) s = .next { s with
      regs := s.regs.set rd (a &&& b), flags := ⟨a &&& b == 0, (a &&& b).msb, false, false⟩ } ∧
    exec (.or rd rs) s = .next { s with
      regs := s.regs.set rd (a ||| b), flags := ⟨a ||| b == 0, (a ||| b).msb, false, false⟩ } ∧
    exec (.xor rd rs) s = .next { s with
      regs := s.regs.set rd (a ^^^ b), flags := ⟨a ^^^ b == 0, (a ^^^ b).msb, false, false⟩ }

/-- SHL and SHR: the amount k is the register's own value or 1, by SHIFT_MODE; mask(a * 2^k, 8) and floor(a /
2^k), with C and V 0. Under `self`, SHR always gives 0 (R121). It rests on the spec's own choice D14
(92_eei_decisions.md). The model's own conventions in it: log entry 5. -/
def Obligations.ShiftsFollowTheirLaws : Prop :=
  ∀ (rd : Reg) (s : State),
    let a := (s.x rd).toNat
    let k := if s.cfg.shiftMode = .self then a else 1
    exec (.shl rd) s = .next (Forms.wrote s rd (a * 2 ^ k % 2 ^ 64)
      (Forms.intFlags .b8 (a * 2 ^ k % 2 ^ 64) false false)) ∧
    exec (.shr rd) s = .next (Forms.wrote s rd (a / 2 ^ k)
      (Forms.intFlags .b8 (a / 2 ^ k) false false)) ∧
    (s.cfg.shiftMode = .self → a / 2 ^ k = 0)

/-! ### Floating point (41_fpu.md) -/

/-- Each of the fourteen floating-point instructions writes its unit's result on the low bits of its operands
into Rd, which clears the bits above a binary32 result, and writes all four flags from it: Z for either zero, N
the sign bit, C 0, V for a NaN or an infinity. FDIV warns for a divisor of either zero and FSQRT for a value
below zero; nothing else changes (R162, R167 to R169, R172, R175 to R181). It rests on the spec's own choices
D2, D19, D20, D23, D24, D39 (92_eei_decisions.md). The model's own conventions in it: log entry 9. -/
def Obligations.FpInstructionsWriteResultAndFlags : Prop :=
  ∀ (f : FpFormat) (rd rs : Reg) (s : State),
    let a := Forms.fpOperand s rd f
    let b := Forms.fpOperand s rs f
    let after := fun (r : Nat) (w : List Warning) =>
      ({ Forms.wrote s rd r (Forms.fpFlags f r) with warnings := s.warnings ++ w } : State)
    exec (Forms.fadd f rd rs) s = .next (after (fpAdd s.cfg f a b) []) ∧
    exec (Forms.fsub f rd rs) s = .next (after (fpSub s.cfg f a b) []) ∧
    exec (Forms.fmul f rd rs) s = .next (after (fpMul s.cfg f a b) []) ∧
    exec (Forms.fdiv f rd rs) s = .next (after (fpDiv s.cfg f a b)
      (if b % 2 ^ (Forms.fpBits f - 1) = 0 then [.fpDivisionByZero] else [])) ∧
    exec (Forms.fsqrt f rd) s = .next (after (fpSqrt s.cfg f a)
      (if Forms.signBit f a = true ∧ ¬(a % 2 ^ (Forms.fpBits f - 1) = 0) ∧
          ¬(Forms.expField f a = 2 ^ Forms.expBits f - 1 ∧ Forms.fracField f a ≠ 0)
        then [.sqrtOfNegative] else [])) ∧
    exec (Forms.fsin f rd) s = .next (after (fpSin s.cfg f a) []) ∧
    exec (Forms.fcos f rd) s = .next (after (fpCos s.cfg f a) [])

/-- Sum, difference and product of finite patterns are the exact sum, difference and product rounded to nearest,
ties to even, in the operands' format (R163, R164, R166). It rests on the spec's own choice D19
(92_eei_decisions.md). -/
def Obligations.SumsAndProductsAreCorrectlyRounded : Prop :=
  ∀ (cfg : Config) (f : FpFormat) (a b : Nat),
    a < 2 ^ Forms.fpBits f → b < 2 ^ Forms.fpBits f → Forms.IsFinite f a → Forms.IsFinite f b →
    Forms.CorrectlyRounded f (Forms.value f a + Forms.value f b) (fpAdd cfg f a b) ∧
    Forms.CorrectlyRounded f (Forms.value f a - Forms.value f b) (fpSub cfg f a b) ∧
    Forms.CorrectlyRounded f (Forms.value f a * Forms.value f b) (fpMul cfg f a b)

/-- The quotient of finite patterns with a nonzero divisor is the exact quotient rounded to nearest, ties to
even (R163, R164, R166). It rests on the spec's own choice D19 (92_eei_decisions.md). -/
def Obligations.QuotientsAreCorrectlyRounded : Prop :=
  ∀ (cfg : Config) (f : FpFormat) (a b : Nat),
    a < 2 ^ Forms.fpBits f → b < 2 ^ Forms.fpBits f → Forms.IsFinite f a → Forms.IsFinite f b →
    ¬Forms.IsZero f b →
    Forms.CorrectlyRounded f (Forms.value f a / Forms.value f b) (fpDiv cfg f a b)

/-- The root of a finite pattern of sign 0 is a finite pattern than which no finite pattern is nearer to the
exact square root. That is rounding to nearest with ties to even: no tie arises, since the exact root never lies
half-way between two neighbouring finite patterns (the square of such a number needs more significant bits than
a pattern has), and no root overflows (R163, R164). It rests on the spec's own choice D19 (92_eei_decisions.md).
-/
def Obligations.RootsAreCorrectlyRounded : Prop :=
  ∀ (cfg : Config) (f : FpFormat) (a : Nat),
    a < 2 ^ Forms.fpBits f → Forms.IsFinite f a → Forms.signBit f a = false →
    Forms.IsFinite f (fpSqrt cfg f a) ∧
    ∀ y, y < 2 ^ Forms.fpBits f → Forms.IsFinite f y →
      |(Forms.value f (fpSqrt cfg f a) : ℝ) - Real.sqrt (Forms.value f a)| ≤
        |(Forms.value f y : ℝ) - Real.sqrt (Forms.value f a)|

/-- An operation answers a NaN exactly when an operand is one or the operation is invalid: opposite infinities
added, like infinities subtracted, 0 times infinity, 0/0, infinity by infinity, the root of a value below zero.
Whatever FP_NAN_OF is, its answer is a NaN of the format (R165, R171). It rests on the spec's own choices D20,
D21 (92_eei_decisions.md). The model's own conventions in it: log entry 7. -/
def Obligations.NanExactlyForNanOrInvalid : Prop :=
  ∀ (cfg : Config) (f : FpFormat) (a b : Nat),
    a < 2 ^ Forms.fpBits f → b < 2 ^ Forms.fpBits f →
    (Forms.IsNan f (fpAdd cfg f a b) ↔ Forms.IsNan f a ∨ Forms.IsNan f b ∨
      (Forms.IsInf f a ∧ Forms.IsInf f b ∧ Forms.signBit f a ≠ Forms.signBit f b)) ∧
    (Forms.IsNan f (fpSub cfg f a b) ↔ Forms.IsNan f a ∨ Forms.IsNan f b ∨
      (Forms.IsInf f a ∧ Forms.IsInf f b ∧ Forms.signBit f a = Forms.signBit f b)) ∧
    (Forms.IsNan f (fpMul cfg f a b) ↔ Forms.IsNan f a ∨ Forms.IsNan f b ∨
      (Forms.IsZero f a ∧ Forms.IsInf f b) ∨ (Forms.IsInf f a ∧ Forms.IsZero f b)) ∧
    (Forms.IsNan f (fpDiv cfg f a b) ↔ Forms.IsNan f a ∨ Forms.IsNan f b ∨
      (Forms.IsZero f a ∧ Forms.IsZero f b) ∨ (Forms.IsInf f a ∧ Forms.IsInf f b)) ∧
    (Forms.IsNan f (fpSqrt cfg f a) ↔ Forms.IsNan f a ∨
      (Forms.signBit f a = true ∧ ¬Forms.IsZero f a)) ∧
    ∀ op, Forms.IsNan f (fpNanOf cfg op f a b)

/-- A nonzero dividend that is no NaN, by either zero, gives the infinity whose sign is the XOR of the signs
(R170). It rests on the spec's own choice D20 (92_eei_decisions.md). -/
def Obligations.FpDivisionByZeroGivesInfinity : Prop :=
  ∀ (cfg : Config) (f : FpFormat) (a b : Nat),
    a < 2 ^ Forms.fpBits f → b < 2 ^ Forms.fpBits f →
    ¬Forms.IsNan f a → ¬Forms.IsZero f a → Forms.IsZero f b →
    fpDiv cfg f a b = Forms.inf f (Forms.signBit f a ^^ Forms.signBit f b)

/-- Infinities and the signs of zeros. Sums: like infinities add to that infinity, an infinity with a finite
value on either side is that infinity, finite - infinity is the other infinity, and infinities of unlike sign
subtract to the first. Products: an infinity by a nonzero value that is no NaN is the infinity whose sign is the
XOR of the signs. Quotients: infinity by finite is such an infinity, finite by infinity the zero of that sign;
1/inf is +0. Every product or quotient that is no NaN has the XOR of the signs. x + (-x) and x - x are +0 for
finite x; of two zeros the sum is -0 only for (-0) + (-0) and the difference only for (-0) - (+0). sqrt(-0) is
-0, sqrt(+0) is +0 and sqrt(+inf) is +inf (R166, R169, R171, R178). It rests on the spec's own choices D19, D20
(92_eei_decisions.md). -/
def Obligations.InfinitiesAndZeroSigns : Prop :=
  ∀ (cfg : Config) (f : FpFormat) (a b : Nat),
    a < 2 ^ Forms.fpBits f → b < 2 ^ Forms.fpBits f →
    let sa := Forms.signBit f a
    let sb := Forms.signBit f b
    (Forms.IsInf f a → Forms.IsInf f b → sa = sb → fpAdd cfg f a b = a) ∧
    (Forms.IsInf f a → Forms.IsInf f b → sa ≠ sb → fpSub cfg f a b = a) ∧
    (Forms.IsInf f a → Forms.IsFinite f b →
      fpAdd cfg f a b = a ∧ fpAdd cfg f b a = a ∧
      fpSub cfg f a b = a ∧ fpSub cfg f b a = Forms.inf f (!sa)) ∧
    (Forms.IsInf f a → ¬Forms.IsNan f b → ¬Forms.IsZero f b →
      fpMul cfg f a b = Forms.inf f (sa ^^ sb) ∧ fpMul cfg f b a = Forms.inf f (sa ^^ sb)) ∧
    (Forms.IsInf f a → Forms.IsFinite f b →
      fpDiv cfg f a b = Forms.inf f (sa ^^ sb) ∧ fpDiv cfg f b a = Forms.zero f (sa ^^ sb)) ∧
    (¬Forms.IsNan f (fpMul cfg f a b) → Forms.signBit f (fpMul cfg f a b) = (sa ^^ sb)) ∧
    (¬Forms.IsNan f (fpDiv cfg f a b) → Forms.signBit f (fpDiv cfg f a b) = (sa ^^ sb)) ∧
    (Forms.IsFinite f a → fpSub cfg f a a = Forms.zero f false) ∧
    (Forms.IsFinite f a → sa ≠ sb →
      a % 2 ^ (Forms.fpBits f - 1) = b % 2 ^ (Forms.fpBits f - 1) →
      fpAdd cfg f a b = Forms.zero f false) ∧
    (∀ na nb, fpAdd cfg f (Forms.zero f na) (Forms.zero f nb) = Forms.zero f (na && nb) ∧
      fpSub cfg f (Forms.zero f na) (Forms.zero f nb) = Forms.zero f (na && !nb)) ∧
    (∀ neg, fpSqrt cfg f (Forms.zero f neg) = Forms.zero f neg) ∧
    fpSqrt cfg f (Forms.inf f false) = Forms.inf f false

/-- The properties of sin and cos that R174 gives, whatever the host's functions are: a NaN for a NaN or an
infinity, sin(+0) = +0, sin(-0) = -0, cos of either zero = +1.0, and for every finite operand a finite result in
[-1, 1]. It rests on the spec's own choice D22 (92_eei_decisions.md). The model's own conventions in it: log
entry 14. -/
def Obligations.SinAndCosKeepTheirProperties : Prop :=
  ∀ (cfg : Config) (f : FpFormat) (a : Nat), a < 2 ^ Forms.fpBits f →
    (¬Forms.IsFinite f a →
      Forms.IsNan f (fpSin cfg f a) ∧ Forms.IsNan f (fpCos cfg f a)) ∧
    (Forms.IsZero f a →
      fpSin cfg f a = a ∧ Forms.value f (fpCos cfg f a) = 1) ∧
    (Forms.IsFinite f a →
      fpSin cfg f a < 2 ^ Forms.fpBits f ∧ Forms.IsFinite f (fpSin cfg f a) ∧
      |Forms.value f (fpSin cfg f a)| ≤ 1 ∧
      fpCos cfg f a < 2 ^ Forms.fpBits f ∧ Forms.IsFinite f (fpCos cfg f a) ∧
      |Forms.value f (fpCos cfg f a)| ≤ 1)

/-! ### Memory (20_memory.md, 42_memory_access.md) -/

/-- LOAD and LOADR at every size, in range: Rd becomes the value of the bytes at the immediate, or at the 64-bit
address in Rs, the least significant byte first and zero-extended; nothing else changes, so the flags stay (R52,
R191, R193). It rests on the spec's own choice D17 (92_eei_decisions.md). -/
def Obligations.LoadsReadLittleEndianBytes : Prop :=
  (∀ (z : Size) (rd : Reg) (a : Word) (s : State), a.toNat + z.bytes ≤ s.cfg.memSize →
    exec (Forms.load z rd a) s = .next { s with
      regs := s.regs.set rd (BitVec.ofNat 64 (Forms.memValue s a.toNat z.bytes)) }) ∧
  ∀ (z : Size) (rd rs : Reg) (s : State), (s.x rs).toNat + z.bytes ≤ s.cfg.memSize →
    exec (Forms.loadr z rd rs) s = .next { s with
      regs := s.regs.set rd (BitVec.ofNat 64 (Forms.memValue s (s.x rs).toNat z.bytes)) }

/-- STORE and STORER at every size, in range: the low bytes of Rd, the least significant first, stand at the
immediate or at the address in Rs; every other byte and all other state is as before (R53, R192, R194). It rests
on the spec's own choice D17 (92_eei_decisions.md). -/
def Obligations.StoresWriteLittleEndianBytes : Prop :=
  (∀ (z : Size) (rd : Reg) (a : Word) (s : State), s.mem.wf = true →
    a.toNat + z.bytes ≤ s.cfg.memSize →
    ∃ m, exec (Forms.store z rd a) s = .next { s with mem := m } ∧
      Forms.StoredOnly s m a.toNat z.bytes (s.x rd)) ∧
  ∀ (z : Size) (rd rs : Reg) (s : State), s.mem.wf = true →
    (s.x rs).toNat + z.bytes ≤ s.cfg.memSize →
    ∃ m, exec (Forms.storer z rd rs) s = .next { s with mem := m } ∧
      Forms.StoredOnly s m (s.x rs).toNat z.bytes (s.x rd)

/-- A load or store any byte of which lies at MEM_SIZE or above raises AddressError with its start address,
without wrapping, and changes nothing else: no register and no byte is written (R55, R191 to R194). It rests on
the spec's own choices D6, D31 (92_eei_decisions.md). The model's own conventions in it: log entry 10. -/
def Obligations.OutOfRangeAccessIsAddressError : Prop :=
  (∀ (z : Size) (rd : Reg) (a : Word) (s : State), s.cfg.memSize < a.toNat + z.bytes →
    exec (Forms.load z rd a) s = .next (Forms.faulted s .addressError a) ∧
    exec (Forms.store z rd a) s = .next (Forms.faulted s .addressError a)) ∧
  ∀ (z : Size) (rd rs : Reg) (s : State), s.cfg.memSize < (s.x rs).toNat + z.bytes →
    exec (Forms.loadr z rd rs) s = .next (Forms.faulted s .addressError (s.x rs)) ∧
    exec (Forms.storer z rd rs) s = .next (Forms.faulted s .addressError (s.x rs))

/-- The Memory ports: in range, a read is the sum of its bytes' values, the least significant first, and a write
stores the low bytes of its value and changes no other byte, so that a read of the same size gives the value
masked to it. Out of range both answer nothing, which stands for AddressError (R52, R53). -/
def Obligations.MemoryPortsReadAndWrite : Prop :=
  ∀ (s : State) (a : Word) (z : Size) (v : Word), s.mem.wf = true →
    (a.toNat + z.bytes ≤ s.cfg.memSize →
      (∃ w, s.memRead a z = some w ∧ w.toNat = Forms.memValue s a.toNat z.bytes) ∧
      ∃ m, s.memWrite a z v = some { s with mem := m } ∧ Forms.StoredOnly s m a.toNat z.bytes v ∧
        ∃ w, State.memRead { s with mem := m } a z = some w ∧ w.toNat = Forms.low v z) ∧
    (s.cfg.memSize < a.toNat + z.bytes → s.memRead a z = none ∧ s.memWrite a z v = none)

/-- MOV copies all 64 bits, LOADV loads the immediate, and neither touches the flags; CLEAR writes 0 and clears
all four flags, Z too (R195 to R197). It rests on the spec's own choices D16, D17 (92_eei_decisions.md). -/
def Obligations.MovesAndClear : Prop :=
  ∀ (rd rs : Reg) (imm : Word) (s : State),
    exec (.mov rd rs) s = .next { s with regs := s.regs.set rd (s.x rs) } ∧
    exec (.loadv rd imm) s = .next { s with regs := s.regs.set rd imm } ∧
    exec (.clear rd) s = .next { s with
      regs := s.regs.set rd 0, flags := ⟨false, false, false, false⟩ }

/-! ### Control flow and the stack (43_control_stack.md) -/

/-- The nine jumps: pc becomes the immediate where the predicate on the flags holds, and otherwise stays;
nothing else changes (R211 to R220). It rests on the spec's own choices D1, D17 (92_eei_decisions.md). -/
def Obligations.JumpsFollowTheirPredicates : Prop :=
  ∀ (a : Word) (s : State),
    let f := s.flags
    let go := fun taken : Bool => ({ s with pc := if taken then a else s.pc } : State)
    exec (.jmp a) s = .next (go true) ∧
    exec (.jeq a) s = .next (go f.z) ∧ exec (.jne a) s = .next (go (!f.z)) ∧
    exec (.jmi a) s = .next (go f.n) ∧ exec (.jpl a) s = .next (go (!f.n)) ∧
    exec (.jcs a) s = .next (go f.c) ∧ exec (.jcc a) s = .next (go (!f.c)) ∧
    exec (.jlt a) s = .next (go (f.v != f.n)) ∧ exec (.jge a) s = .next (go (f.v == f.n))

/-- CALL with room on the stack: the pc past both words stands as eight bytes at SP, SP grows by 8 and pc is the
immediate; every other byte and all other state is as before (R221, R224). It rests on the spec's own choices
D17, D26 (92_eei_decisions.md). -/
def Obligations.CallPushesTheReturnAddress : Prop :=
  ∀ (a : Word) (s : State), s.mem.wf = true → s.sp.toNat + 8 ≤ s.cfg.memSize →
    ∃ m, exec (.call a) s =
        .next { s with mem := m, regs := s.regs.set 15 (s.sp + 8), pc := a } ∧
      Forms.StoredOnly s m s.sp.toNat 8 s.pc

/-- RET with eight bytes on the stack: pc is the value of the eight bytes at SP - 8 and SP shrinks by 8; nothing
else changes (R221, R225). It rests on the spec's own choices D17, D26 (92_eei_decisions.md). -/
def Obligations.RetPopsThePc : Prop :=
  ∀ s : State, s.cfg.stackFloor + 8 ≤ s.sp.toNat → s.sp.toNat ≤ s.cfg.memSize →
    exec .ret s = .next { s with
      regs := s.regs.set 15 (s.sp - 8)
      pc := BitVec.ofNat 64 (Forms.memValue s (s.sp.toNat - 8) 8) }

/-- CALL and then RET, with nothing of pc, SP or Memory changed between them but pc: pc is the address after
CALL and its immediate, and SP is what it was (R225). It rests on the spec's own choice D26
(92_eei_decisions.md). -/
def Obligations.CallThenRetReturns : Prop :=
  ∀ (a p : Word) (s t : State), s.mem.wf = true → s.cfg.memSize < 2 ^ 64 →
    s.cfg.stackFloor ≤ s.sp.toNat → s.sp.toNat + 8 ≤ s.cfg.memSize →
    exec (.call a) s = .next t →
    ∃ u, exec .ret { t with pc := p } = .next u ∧ u.pc = s.pc ∧ u.sp = s.sp

/-- PUSH at every size with room on the stack: the low bytes of Rd, as it was before, stand at SP and SP grows
by the size, Rd = R15 included; every other byte and all other state is as before (R221, R226). It rests on the
spec's own choices D17, D25, D26 (92_eei_decisions.md). -/
def Obligations.PushStoresAtSp : Prop :=
  ∀ (z : Size) (rd : Reg) (s : State), s.mem.wf = true → s.sp.toNat + z.bytes ≤ s.cfg.memSize →
    ∃ m, exec (Forms.push z rd) s =
        .next { s with mem := m, regs := s.regs.set 15 (s.sp + BitVec.ofNat 64 z.bytes) } ∧
      Forms.StoredOnly s m s.sp.toNat z.bytes (s.x rd)

/-- POP at every size with its bytes on the stack: SP shrinks by the size and then Rd becomes the zero-extended
value of the bytes below the old SP, so that POP R15 leaves the popped value in SP; nothing else changes (R221,
R227). It rests on the spec's own choices D17, D25, D26 (92_eei_decisions.md). -/
def Obligations.PopLoadsBelowSp : Prop :=
  ∀ (z : Size) (rd : Reg) (s : State), s.cfg.stackFloor + z.bytes ≤ s.sp.toNat →
    s.sp.toNat ≤ s.cfg.memSize →
    exec (Forms.pop z rd) s = .next { s with
      regs := (s.regs.set 15 (s.sp - BitVec.ofNat 64 z.bytes)).set rd
        (BitVec.ofNat 64 (Forms.memValue s (s.sp.toNat - z.bytes) z.bytes)) }

/-- PUSH of Rx and then POP of the same size into Ry, Ry not SP: Ry is the low bytes of Rx and SP is what it was
(R227, the source's property). It rests on the spec's own choices D25, D26 (92_eei_decisions.md). -/
def Obligations.PushThenPopMovesTheValue : Prop :=
  ∀ (z : Size) (x y : Reg) (s t : State), s.mem.wf = true → s.cfg.memSize < 2 ^ 64 →
    s.cfg.stackFloor ≤ s.sp.toNat → s.sp.toNat + z.bytes ≤ s.cfg.memSize → y ≠ 15 →
    exec (Forms.push z x) s = .next t →
    ∃ u, exec (Forms.pop z y) t = .next u ∧ (u.x y).toNat = Forms.low (s.x x) z ∧ u.sp = s.sp

/-- A push past the end of Memory raises StackOverflow(SP); a pop of more than lies above the floor raises
StackUnderflow(SP); a pop whose bytes reach past Memory raises AddressError(SP - k). CALL pushes and RET pops
eight bytes. Nothing else changes (R222 to R227). It rests on the spec's own choices D26, D31
(92_eei_decisions.md). The model's own conventions in it: log entry 10. -/
def Obligations.StackErrorsAreFatal : Prop :=
  ∀ (z : Size) (rd : Reg) (a : Word) (s : State),
    (s.cfg.memSize < s.sp.toNat + z.bytes →
      exec (Forms.push z rd) s = .next (Forms.faulted s .stackOverflow s.sp)) ∧
    (s.cfg.memSize < s.sp.toNat + 8 →
      exec (.call a) s = .next (Forms.faulted s .stackOverflow s.sp)) ∧
    (s.sp.toNat < s.cfg.stackFloor + z.bytes →
      exec (Forms.pop z rd) s = .next (Forms.faulted s .stackUnderflow s.sp)) ∧
    (s.sp.toNat < s.cfg.stackFloor + 8 →
      exec .ret s = .next (Forms.faulted s .stackUnderflow s.sp)) ∧
    (s.cfg.stackFloor + z.bytes ≤ s.sp.toNat → s.cfg.memSize < s.sp.toNat →
      exec (Forms.pop z rd) s =
        .next (Forms.faulted s .addressError (s.sp - BitVec.ofNat 64 z.bytes))) ∧
    (s.cfg.stackFloor + 8 ≤ s.sp.toNat → s.cfg.memSize < s.sp.toNat →
      exec .ret s = .next (Forms.faulted s .addressError (s.sp - 8)))

/-! ### System and I/O (45_system.md, 44_io.md) -/

/-- PARAR stops the core and nothing else; NOP changes nothing; each of the eight flag instructions sets or
clears its one flag and changes nothing else (R260 to R269). It rests on the spec's own choices D35, D38
(92_eei_decisions.md). -/
def Obligations.SystemInstructionsWriteOneBit : Prop :=
  ∀ s : State,
    exec .parar s = .next { s with running := false } ∧
    exec .nop s = .next s ∧
    exec .setz s = .next { s with flags := { s.flags with z := true } } ∧
    exec .clrz s = .next { s with flags := { s.flags with z := false } } ∧
    exec .setn s = .next { s with flags := { s.flags with n := true } } ∧
    exec .clrn s = .next { s with flags := { s.flags with n := false } } ∧
    exec .setc s = .next { s with flags := { s.flags with c := true } } ∧
    exec .clrc s = .next { s with flags := { s.flags with c := false } } ∧
    exec .setv s = .next { s with flags := { s.flags with v := true } } ∧
    exec .clrv s = .next { s with flags := { s.flags with v := false } }

/-- SVIO: a Screen keeps all 64 bits of Rd, a Keyboard appends them at its tail, any other device that can be
written is given them; at an address with no such device the write is dropped with a warning. No register, flag
or byte of Memory changes (R241, R245 to R247). The record of the call in ioCalls is the model's. It rests on
the spec's own choices D28, D29 (92_eei_decisions.md). The model's own conventions in it: log entries 8, 9. -/
def Obligations.SvioWritesTheDevice : Prop :=
  ∀ (rd : Reg) (a : Word) (s : State),
    let v := s.x rd
    let given := fun d : Device =>
      ({ s with io := setDeviceAt s.io a d, ioCalls := s.ioCalls ++ [.write a v] } : State)
    let dropped := ({ s with warnings := s.warnings ++ [.unmappedIoWrite] } : State)
    exec (.svio rd a) s = .next (match deviceAt s.io a with
      | some (.screen _) => given (.screen v)
      | some (.keyboard q) => given (.keyboard (q ++ [v]))
      | some (.other r w h) => if w then given (.other r w h) else dropped
      | none => dropped)

/-- LOADIO: a Keyboard's head is removed and is Rd's new value, 0 from an empty FIFO; a Screen, an address with
no device and a device that cannot be read give 0 with a warning; any other device gives a free answer. No flag
and no byte of Memory changes (R242, R245, R246, R248). ioCalls and draws are the model's. It rests on the
spec's own choices D28, D29 (92_eei_decisions.md). The model's own conventions in it: log entries 8, 9. -/
def Obligations.LoadioReadsTheDevice : Prop :=
  ∀ (rd : Reg) (a : Word) (s : State),
    let dropped := ({ s with
      regs := s.regs.set rd 0, warnings := s.warnings ++ [.unmappedIoRead] } : State)
    exec (.loadio rd a) s = .next (match deviceAt s.io a with
      | some (.keyboard q) =>
        { s with
          regs := s.regs.set rd (q.headD 0)
          io := setDeviceAt s.io a (.keyboard q.tail)
          ioCalls := s.ioCalls ++ [.read a (q.headD 0)] }
      | some (.other true w h) =>
        { s with
          regs := s.regs.set rd (Config.deviceAnswer s.draws)
          io := setDeviceAt s.io a (.other true w h)
          draws := s.draws + 1
          ioCalls := s.ioCalls ++ [.read a (Config.deviceAnswer s.draws)] }
      | some (.other false _ _) => dropped
      | some (.screen _) => dropped
      | none => dropped)

/-- SHOWIO: the device at the address is asked to show if it can; otherwise there is only a warning. No
register, flag, byte of Memory or device changes (R243, R245, R246, R249). ioCalls is the model's. It rests on
the spec's own choice D30 (92_eei_decisions.md). The model's own conventions in it: log entries 8, 9. -/
def Obligations.ShowioChangesNoCoreState : Prop :=
  ∀ (a : Word) (s : State),
    let shown := ({ s with ioCalls := s.ioCalls ++ [.shown a] } : State)
    let dropped := ({ s with warnings := s.warnings ++ [.unmappedIoShow] } : State)
    exec (.showio a) s = .next (match deviceAt s.io a with
      | some (.screen _) => shown
      | some (.keyboard _) => dropped
      | some (.other _ _ h) => if h then shown else dropped
      | none => dropped)

/-- The registry: a registered device is found in its new state, and the devices at all other addresses are
found as they were (R240). It rests on the spec's own choice D28 (92_eei_decisions.md). The model's own
conventions in it: log entry 6. -/
def Obligations.DeviceStatesAreSeparate : Prop :=
  ∀ (io : List (Word × Device)) (a b : Word) (d d' : Device), deviceAt io a = some d →
    deviceAt (setDeviceAt io a d') a = some d' ∧
    (b ≠ a → deviceAt (setDeviceAt io a d') b = deviceAt io b)
end

