-- ==== Sys2Proof/Laws/State.lean ====
section
/-! SUPPORT. State.lean: what each state update does to each field, one small lemma per field, so that no
proof unfolds a record update. -/

namespace Sys2Proof.Machine

/-! ### State.setX -/

@[simp] theorem State.setX_cfg (s : State) (i : Reg) (v : Word) :
    (s.setX i v).cfg = s.cfg := rfl

@[simp] theorem State.setX_regs (s : State) (i : Reg) (v : Word) :
    (s.setX i v).regs = s.regs.set i v := rfl

@[simp] theorem State.setX_flags (s : State) (i : Reg) (v : Word) :
    (s.setX i v).flags = s.flags := rfl

@[simp] theorem State.setX_pc (s : State) (i : Reg) (v : Word) :
    (s.setX i v).pc = s.pc := rfl

@[simp] theorem State.setX_running (s : State) (i : Reg) (v : Word) :
    (s.setX i v).running = s.running := rfl

@[simp] theorem State.setX_fault (s : State) (i : Reg) (v : Word) :
    (s.setX i v).fault = s.fault := rfl

@[simp] theorem State.setX_ipc (s : State) (i : Reg) (v : Word) :
    (s.setX i v).ipc = s.ipc := rfl

@[simp] theorem State.setX_inst (s : State) (i : Reg) (v : Word) :
    (s.setX i v).inst = s.inst := rfl

@[simp] theorem State.setX_call (s : State) (i : Reg) (v : Word) :
    (s.setX i v).call = s.call := rfl

@[simp] theorem State.setX_mem (s : State) (i : Reg) (v : Word) :
    (s.setX i v).mem = s.mem := rfl

@[simp] theorem State.setX_io (s : State) (i : Reg) (v : Word) :
    (s.setX i v).io = s.io := rfl

@[simp] theorem State.setX_ioCalls (s : State) (i : Reg) (v : Word) :
    (s.setX i v).ioCalls = s.ioCalls := rfl

@[simp] theorem State.setX_warnings (s : State) (i : Reg) (v : Word) :
    (s.setX i v).warnings = s.warnings := rfl

@[simp] theorem State.setX_draws (s : State) (i : Reg) (v : Word) :
    (s.setX i v).draws = s.draws := rfl

/-! ### State.setFlags -/

@[simp] theorem State.setFlags_cfg (s : State) (f : Flags) :
    (s.setFlags f).cfg = s.cfg := rfl

@[simp] theorem State.setFlags_regs (s : State) (f : Flags) :
    (s.setFlags f).regs = s.regs := rfl

@[simp] theorem State.setFlags_flags (s : State) (f : Flags) :
    (s.setFlags f).flags = f := rfl

@[simp] theorem State.setFlags_pc (s : State) (f : Flags) :
    (s.setFlags f).pc = s.pc := rfl

@[simp] theorem State.setFlags_running (s : State) (f : Flags) :
    (s.setFlags f).running = s.running := rfl

@[simp] theorem State.setFlags_fault (s : State) (f : Flags) :
    (s.setFlags f).fault = s.fault := rfl

@[simp] theorem State.setFlags_ipc (s : State) (f : Flags) :
    (s.setFlags f).ipc = s.ipc := rfl

@[simp] theorem State.setFlags_inst (s : State) (f : Flags) :
    (s.setFlags f).inst = s.inst := rfl

@[simp] theorem State.setFlags_call (s : State) (f : Flags) :
    (s.setFlags f).call = s.call := rfl

@[simp] theorem State.setFlags_mem (s : State) (f : Flags) :
    (s.setFlags f).mem = s.mem := rfl

@[simp] theorem State.setFlags_io (s : State) (f : Flags) :
    (s.setFlags f).io = s.io := rfl

@[simp] theorem State.setFlags_ioCalls (s : State) (f : Flags) :
    (s.setFlags f).ioCalls = s.ioCalls := rfl

@[simp] theorem State.setFlags_warnings (s : State) (f : Flags) :
    (s.setFlags f).warnings = s.warnings := rfl

@[simp] theorem State.setFlags_draws (s : State) (f : Flags) :
    (s.setFlags f).draws = s.draws := rfl

/-! ### State.setPc -/

@[simp] theorem State.setPc_cfg (s : State) (a : Word) :
    (s.setPc a).cfg = s.cfg := rfl

@[simp] theorem State.setPc_regs (s : State) (a : Word) :
    (s.setPc a).regs = s.regs := rfl

@[simp] theorem State.setPc_flags (s : State) (a : Word) :
    (s.setPc a).flags = s.flags := rfl

@[simp] theorem State.setPc_pc (s : State) (a : Word) :
    (s.setPc a).pc = a := rfl

@[simp] theorem State.setPc_running (s : State) (a : Word) :
    (s.setPc a).running = s.running := rfl

@[simp] theorem State.setPc_fault (s : State) (a : Word) :
    (s.setPc a).fault = s.fault := rfl

@[simp] theorem State.setPc_ipc (s : State) (a : Word) :
    (s.setPc a).ipc = s.ipc := rfl

@[simp] theorem State.setPc_inst (s : State) (a : Word) :
    (s.setPc a).inst = s.inst := rfl

@[simp] theorem State.setPc_call (s : State) (a : Word) :
    (s.setPc a).call = s.call := rfl

@[simp] theorem State.setPc_mem (s : State) (a : Word) :
    (s.setPc a).mem = s.mem := rfl

@[simp] theorem State.setPc_io (s : State) (a : Word) :
    (s.setPc a).io = s.io := rfl

@[simp] theorem State.setPc_ioCalls (s : State) (a : Word) :
    (s.setPc a).ioCalls = s.ioCalls := rfl

@[simp] theorem State.setPc_warnings (s : State) (a : Word) :
    (s.setPc a).warnings = s.warnings := rfl

@[simp] theorem State.setPc_draws (s : State) (a : Word) :
    (s.setPc a).draws = s.draws := rfl

/-! ### State.warn -/

@[simp] theorem State.warn_cfg (s : State) (w : Warning) :
    (s.warn w).cfg = s.cfg := rfl

@[simp] theorem State.warn_regs (s : State) (w : Warning) :
    (s.warn w).regs = s.regs := rfl

@[simp] theorem State.warn_flags (s : State) (w : Warning) :
    (s.warn w).flags = s.flags := rfl

@[simp] theorem State.warn_pc (s : State) (w : Warning) :
    (s.warn w).pc = s.pc := rfl

@[simp] theorem State.warn_running (s : State) (w : Warning) :
    (s.warn w).running = s.running := rfl

@[simp] theorem State.warn_fault (s : State) (w : Warning) :
    (s.warn w).fault = s.fault := rfl

@[simp] theorem State.warn_ipc (s : State) (w : Warning) :
    (s.warn w).ipc = s.ipc := rfl

@[simp] theorem State.warn_inst (s : State) (w : Warning) :
    (s.warn w).inst = s.inst := rfl

@[simp] theorem State.warn_call (s : State) (w : Warning) :
    (s.warn w).call = s.call := rfl

@[simp] theorem State.warn_mem (s : State) (w : Warning) :
    (s.warn w).mem = s.mem := rfl

@[simp] theorem State.warn_io (s : State) (w : Warning) :
    (s.warn w).io = s.io := rfl

@[simp] theorem State.warn_ioCalls (s : State) (w : Warning) :
    (s.warn w).ioCalls = s.ioCalls := rfl

@[simp] theorem State.warn_warnings (s : State) (w : Warning) :
    (s.warn w).warnings = s.warnings ++ [w] := rfl

@[simp] theorem State.warn_draws (s : State) (w : Warning) :
    (s.warn w).draws = s.draws := rfl

/-! ### State.logCall -/

@[simp] theorem State.logCall_cfg (s : State) (c : DeviceCall) :
    (s.logCall c).cfg = s.cfg := rfl

@[simp] theorem State.logCall_regs (s : State) (c : DeviceCall) :
    (s.logCall c).regs = s.regs := rfl

@[simp] theorem State.logCall_flags (s : State) (c : DeviceCall) :
    (s.logCall c).flags = s.flags := rfl

@[simp] theorem State.logCall_pc (s : State) (c : DeviceCall) :
    (s.logCall c).pc = s.pc := rfl

@[simp] theorem State.logCall_running (s : State) (c : DeviceCall) :
    (s.logCall c).running = s.running := rfl

@[simp] theorem State.logCall_fault (s : State) (c : DeviceCall) :
    (s.logCall c).fault = s.fault := rfl

@[simp] theorem State.logCall_ipc (s : State) (c : DeviceCall) :
    (s.logCall c).ipc = s.ipc := rfl

@[simp] theorem State.logCall_inst (s : State) (c : DeviceCall) :
    (s.logCall c).inst = s.inst := rfl

@[simp] theorem State.logCall_call (s : State) (c : DeviceCall) :
    (s.logCall c).call = s.call := rfl

@[simp] theorem State.logCall_mem (s : State) (c : DeviceCall) :
    (s.logCall c).mem = s.mem := rfl

@[simp] theorem State.logCall_io (s : State) (c : DeviceCall) :
    (s.logCall c).io = s.io := rfl

@[simp] theorem State.logCall_ioCalls (s : State) (c : DeviceCall) :
    (s.logCall c).ioCalls = s.ioCalls ++ [c] := rfl

@[simp] theorem State.logCall_warnings (s : State) (c : DeviceCall) :
    (s.logCall c).warnings = s.warnings := rfl

@[simp] theorem State.logCall_draws (s : State) (c : DeviceCall) :
    (s.logCall c).draws = s.draws := rfl

/-! ### State.fatal -/

@[simp] theorem State.fatal_cfg (s : State) (k : FatalKind) (o : Option Opcode) (a : Option Word) :
    (s.fatal k o a).cfg = s.cfg := rfl

@[simp] theorem State.fatal_regs (s : State) (k : FatalKind) (o : Option Opcode) (a : Option Word) :
    (s.fatal k o a).regs = s.regs := rfl

@[simp] theorem State.fatal_flags (s : State) (k : FatalKind) (o : Option Opcode) (a : Option Word) :
    (s.fatal k o a).flags = s.flags := rfl

@[simp] theorem State.fatal_pc (s : State) (k : FatalKind) (o : Option Opcode) (a : Option Word) :
    (s.fatal k o a).pc = s.ipc := rfl

@[simp] theorem State.fatal_running (s : State) (k : FatalKind) (o : Option Opcode) (a : Option Word) :
    (s.fatal k o a).running = false := rfl

@[simp] theorem State.fatal_fault (s : State) (k : FatalKind) (o : Option Opcode) (a : Option Word) :
    (s.fatal k o a).fault = some ⟨k, s.ipc, o, a⟩ := rfl

@[simp] theorem State.fatal_ipc (s : State) (k : FatalKind) (o : Option Opcode) (a : Option Word) :
    (s.fatal k o a).ipc = s.ipc := rfl

@[simp] theorem State.fatal_inst (s : State) (k : FatalKind) (o : Option Opcode) (a : Option Word) :
    (s.fatal k o a).inst = s.inst := rfl

@[simp] theorem State.fatal_call (s : State) (k : FatalKind) (o : Option Opcode) (a : Option Word) :
    (s.fatal k o a).call = s.call := rfl

@[simp] theorem State.fatal_mem (s : State) (k : FatalKind) (o : Option Opcode) (a : Option Word) :
    (s.fatal k o a).mem = s.mem := rfl

@[simp] theorem State.fatal_io (s : State) (k : FatalKind) (o : Option Opcode) (a : Option Word) :
    (s.fatal k o a).io = s.io := rfl

@[simp] theorem State.fatal_ioCalls (s : State) (k : FatalKind) (o : Option Opcode) (a : Option Word) :
    (s.fatal k o a).ioCalls = s.ioCalls := rfl

@[simp] theorem State.fatal_warnings (s : State) (k : FatalKind) (o : Option Opcode) (a : Option Word) :
    (s.fatal k o a).warnings = s.warnings := rfl

@[simp] theorem State.fatal_draws (s : State) (k : FatalKind) (o : Option Opcode) (a : Option Word) :
    (s.fatal k o a).draws = s.draws := rfl

/-! ### State.raise -/

@[simp] theorem State.raise_cfg (s : State) (k : FatalKind) (a : Word) :
    (s.raise k a).cfg = s.cfg := rfl

@[simp] theorem State.raise_regs (s : State) (k : FatalKind) (a : Word) :
    (s.raise k a).regs = s.regs := rfl

@[simp] theorem State.raise_flags (s : State) (k : FatalKind) (a : Word) :
    (s.raise k a).flags = s.flags := rfl

@[simp] theorem State.raise_pc (s : State) (k : FatalKind) (a : Word) :
    (s.raise k a).pc = s.ipc := rfl

@[simp] theorem State.raise_running (s : State) (k : FatalKind) (a : Word) :
    (s.raise k a).running = false := rfl

@[simp] theorem State.raise_fault (s : State) (k : FatalKind) (a : Word) :
    (s.raise k a).fault = some ⟨k, s.ipc, s.inst.map DecodedInst.opcode, some a⟩ := rfl

@[simp] theorem State.raise_ipc (s : State) (k : FatalKind) (a : Word) :
    (s.raise k a).ipc = s.ipc := rfl

@[simp] theorem State.raise_inst (s : State) (k : FatalKind) (a : Word) :
    (s.raise k a).inst = s.inst := rfl

@[simp] theorem State.raise_call (s : State) (k : FatalKind) (a : Word) :
    (s.raise k a).call = s.call := rfl

@[simp] theorem State.raise_mem (s : State) (k : FatalKind) (a : Word) :
    (s.raise k a).mem = s.mem := rfl

@[simp] theorem State.raise_io (s : State) (k : FatalKind) (a : Word) :
    (s.raise k a).io = s.io := rfl

@[simp] theorem State.raise_ioCalls (s : State) (k : FatalKind) (a : Word) :
    (s.raise k a).ioCalls = s.ioCalls := rfl

@[simp] theorem State.raise_warnings (s : State) (k : FatalKind) (a : Word) :
    (s.raise k a).warnings = s.warnings := rfl

@[simp] theorem State.raise_draws (s : State) (k : FatalKind) (a : Word) :
    (s.raise k a).draws = s.draws := rfl

/-! ### State.retire -/

@[simp] theorem State.retire_cfg (s : State) :
    (s.retire).cfg = s.cfg := rfl

@[simp] theorem State.retire_regs (s : State) :
    (s.retire).regs = s.regs := rfl

@[simp] theorem State.retire_flags (s : State) :
    (s.retire).flags = s.flags := rfl

@[simp] theorem State.retire_pc (s : State) :
    (s.retire).pc = s.pc := rfl

@[simp] theorem State.retire_running (s : State) :
    (s.retire).running = s.running := rfl

@[simp] theorem State.retire_fault (s : State) :
    (s.retire).fault = s.fault := rfl

@[simp] theorem State.retire_ipc (s : State) :
    (s.retire).ipc = s.ipc := rfl

@[simp] theorem State.retire_inst (s : State) :
    (s.retire).inst = none := rfl

@[simp] theorem State.retire_call (s : State) :
    (s.retire).call = if s.fault = none then s.call.map RunCall.counted else s.call := rfl

@[simp] theorem State.retire_mem (s : State) :
    (s.retire).mem = s.mem := rfl

@[simp] theorem State.retire_io (s : State) :
    (s.retire).io = s.io := rfl

@[simp] theorem State.retire_ioCalls (s : State) :
    (s.retire).ioCalls = s.ioCalls := rfl

@[simp] theorem State.retire_warnings (s : State) :
    (s.retire).warnings = s.warnings := rfl

@[simp] theorem State.retire_draws (s : State) :
    (s.retire).draws = s.draws := rfl

/-! ### State.runaway -/

@[simp] theorem State.runaway_cfg (s : State) :
    (s.runaway).cfg = s.cfg := rfl

@[simp] theorem State.runaway_regs (s : State) :
    (s.runaway).regs = s.regs := rfl

@[simp] theorem State.runaway_flags (s : State) :
    (s.runaway).flags = s.flags := rfl

@[simp] theorem State.runaway_pc (s : State) :
    (s.runaway).pc = s.pc := rfl

@[simp] theorem State.runaway_running (s : State) :
    (s.runaway).running = false := rfl

@[simp] theorem State.runaway_fault (s : State) :
    (s.runaway).fault = some ⟨.runawayProgram, s.pc, none, none⟩ := rfl

@[simp] theorem State.runaway_ipc (s : State) :
    (s.runaway).ipc = s.ipc := rfl

@[simp] theorem State.runaway_inst (s : State) :
    (s.runaway).inst = s.inst := rfl

@[simp] theorem State.runaway_call (s : State) :
    (s.runaway).call = s.call := rfl

@[simp] theorem State.runaway_mem (s : State) :
    (s.runaway).mem = s.mem := rfl

@[simp] theorem State.runaway_io (s : State) :
    (s.runaway).io = s.io := rfl

@[simp] theorem State.runaway_ioCalls (s : State) :
    (s.runaway).ioCalls = s.ioCalls := rfl

@[simp] theorem State.runaway_warnings (s : State) :
    (s.runaway).warnings = s.warnings := rfl

@[simp] theorem State.runaway_draws (s : State) :
    (s.runaway).draws = s.draws := rfl

/-! ### State.callRun -/

@[simp] theorem State.callRun_cfg (s : State) (n : Nat) :
    (s.callRun n).cfg = s.cfg := rfl

@[simp] theorem State.callRun_regs (s : State) (n : Nat) :
    (s.callRun n).regs = s.regs := rfl

@[simp] theorem State.callRun_flags (s : State) (n : Nat) :
    (s.callRun n).flags = s.flags := rfl

@[simp] theorem State.callRun_pc (s : State) (n : Nat) :
    (s.callRun n).pc = s.pc := rfl

@[simp] theorem State.callRun_running (s : State) (n : Nat) :
    (s.callRun n).running = s.running := rfl

@[simp] theorem State.callRun_fault (s : State) (n : Nat) :
    (s.callRun n).fault = s.fault := rfl

@[simp] theorem State.callRun_ipc (s : State) (n : Nat) :
    (s.callRun n).ipc = s.ipc := rfl

@[simp] theorem State.callRun_inst (s : State) (n : Nat) :
    (s.callRun n).inst = s.inst := rfl

@[simp] theorem State.callRun_call (s : State) (n : Nat) :
    (s.callRun n).call = some ⟨n, 0⟩ := rfl

@[simp] theorem State.callRun_mem (s : State) (n : Nat) :
    (s.callRun n).mem = s.mem := rfl

@[simp] theorem State.callRun_io (s : State) (n : Nat) :
    (s.callRun n).io = s.io := rfl

@[simp] theorem State.callRun_ioCalls (s : State) (n : Nat) :
    (s.callRun n).ioCalls = s.ioCalls := rfl

@[simp] theorem State.callRun_warnings (s : State) (n : Nat) :
    (s.callRun n).warnings = s.warnings := rfl

@[simp] theorem State.callRun_draws (s : State) (n : Nat) :
    (s.callRun n).draws = s.draws := rfl

/-! ### The conditional warning -/

@[simp] theorem State.warnIf_cfg (s : State) (c : Bool) (w : Warning) :
    (s.warnIf c w).cfg = s.cfg := by cases c <;> rfl

@[simp] theorem State.warnIf_regs (s : State) (c : Bool) (w : Warning) :
    (s.warnIf c w).regs = s.regs := by cases c <;> rfl

@[simp] theorem State.warnIf_flags (s : State) (c : Bool) (w : Warning) :
    (s.warnIf c w).flags = s.flags := by cases c <;> rfl

@[simp] theorem State.warnIf_pc (s : State) (c : Bool) (w : Warning) :
    (s.warnIf c w).pc = s.pc := by cases c <;> rfl

@[simp] theorem State.warnIf_running (s : State) (c : Bool) (w : Warning) :
    (s.warnIf c w).running = s.running := by cases c <;> rfl

@[simp] theorem State.warnIf_fault (s : State) (c : Bool) (w : Warning) :
    (s.warnIf c w).fault = s.fault := by cases c <;> rfl

@[simp] theorem State.warnIf_ipc (s : State) (c : Bool) (w : Warning) :
    (s.warnIf c w).ipc = s.ipc := by cases c <;> rfl

@[simp] theorem State.warnIf_inst (s : State) (c : Bool) (w : Warning) :
    (s.warnIf c w).inst = s.inst := by cases c <;> rfl

@[simp] theorem State.warnIf_call (s : State) (c : Bool) (w : Warning) :
    (s.warnIf c w).call = s.call := by cases c <;> rfl

@[simp] theorem State.warnIf_mem (s : State) (c : Bool) (w : Warning) :
    (s.warnIf c w).mem = s.mem := by cases c <;> rfl

@[simp] theorem State.warnIf_io (s : State) (c : Bool) (w : Warning) :
    (s.warnIf c w).io = s.io := by cases c <;> rfl

@[simp] theorem State.warnIf_ioCalls (s : State) (c : Bool) (w : Warning) :
    (s.warnIf c w).ioCalls = s.ioCalls := by cases c <;> rfl

@[simp] theorem State.warnIf_draws (s : State) (c : Bool) (w : Warning) :
    (s.warnIf c w).draws = s.draws := by cases c <;> rfl

@[simp] theorem State.warnIf_warnings (s : State) (c : Bool) (w : Warning) :
    (s.warnIf c w).warnings = s.warnings ++ (if c then [w] else []) := by
  cases c <;> simp [State.warnIf]

end Sys2Proof.Machine
end

