-- ==== Sys2Proof/Laws/Registers.lean ====
section
/-! SUPPORT. Registers.lean: the laws of widths, masks and the register file. -/

namespace Sys2Proof

theorem Size.bits_le (z : Size) : z.bits ≤ 64 := by cases z <;> decide

theorem Size.bits_pos (z : Size) : 0 < z.bits := by cases z <;> decide

theorem Size.bits_eq (z : Size) : z.bits = 8 * z.bytes := rfl

theorem Size.pow_bits_pos (z : Size) : 0 < 2 ^ z.bits := Nat.two_pow_pos _

theorem Size.pow_bits_le (z : Size) : 2 ^ z.bits ≤ 2 ^ 64 :=
  Nat.pow_le_pow_right (by decide) z.bits_le

theorem uval_lt (v : Word) (z : Size) : uval v z < 2 ^ z.bits := Nat.mod_lt _ z.pow_bits_pos

theorem uval_lt_word (v : Word) (z : Size) : uval v z < 2 ^ 64 :=
  lt_of_lt_of_le (uval_lt v z) z.pow_bits_le

@[simp] theorem mask_toNat (v : Word) (z : Size) : (mask v z).toNat = v.toNat % 2 ^ z.bits := by
  simp only [mask, BitVec.toNat_ofNat]
  exact Nat.mod_eq_of_lt (uval_lt_word v z)

/-- Masking a number that fits the width leaves it as it is. -/
theorem mask_ofNat {r : Nat} {z : Size} (h : r < 2 ^ z.bits) :
    mask (BitVec.ofNat 64 r) z = BitVec.ofNat 64 r := by
  have h64 : r < 2 ^ 64 := lt_of_lt_of_le h z.pow_bits_le
  simp only [mask, uval, BitVec.toNat_ofNat, Nat.mod_eq_of_lt h64, Nat.mod_eq_of_lt h]

@[simp] theorem mask_b8 (v : Word) : mask v .b8 = v := by
  apply BitVec.eq_of_toNat_eq
  rw [mask_toNat]
  exact Nat.mod_eq_of_lt v.isLt

namespace Machine

@[simp] theorem State.x_setX_same (s : State) (i : Reg) (v : Word) : (s.setX i v).x i = v := by
  simp [State.x, State.setX, Vector.get_eq_getElem]

@[simp] theorem State.x_setX_ne (s : State) {i j : Reg} (v : Word) (h : j ≠ i) :
    (s.setX i v).x j = s.x j := by
  have hij : (i : Nat) ≠ (j : Nat) := fun e => h (Fin.ext e.symm)
  simp [State.x, State.setX, Vector.get_eq_getElem, hij]

theorem State.x_setX (s : State) (i j : Reg) (v : Word) :
    (s.setX i v).x j = if j = i then v else s.x j := by
  split
  · next h => subst h; simp
  · next h => simp [h]

/-- A write of a register is the last one's. -/
@[simp] theorem State.setX_setX_same (s : State) (i : Reg) (v w : Word) :
    (s.setX i v).setX i w = s.setX i w := by
  simp [State.setX]

/-- Registers are read through the register file alone. -/
theorem State.x_congr {s t : State} (h : s.regs = t.regs) (i : Reg) : s.x i = t.x i := by
  simp [State.x, h]

@[simp] theorem State.x_setFlags (s : State) (f : Flags) (i : Reg) : (s.setFlags f).x i = s.x i := rfl
@[simp] theorem State.x_setPc (s : State) (a : Word) (i : Reg) : (s.setPc a).x i = s.x i := rfl
@[simp] theorem State.x_warn (s : State) (w : Warning) (i : Reg) : (s.warn w).x i = s.x i := rfl
@[simp] theorem State.x_logCall (s : State) (c : DeviceCall) (i : Reg) : (s.logCall c).x i = s.x i := rfl
@[simp] theorem State.x_warnIf (s : State) (c : Bool) (w : Warning) (i : Reg) :
    (s.warnIf c w).x i = s.x i := State.x_congr (State.warnIf_regs s c w) i
@[simp] theorem State.x_raise (s : State) (k : FatalKind) (a : Word) (i : Reg) :
    (s.raise k a).x i = s.x i := rfl

@[simp] theorem State.writeReg_eq (s : State) (i : Reg) (v : Word) (z : Size) :
    s.writeReg i v z = s.setX i (mask v z) := rfl

@[simp] theorem State.setSp_eq (s : State) (v : Word) : s.setSp v = s.setX 15 v := rfl

@[simp] theorem State.sp_eq (s : State) : s.sp = s.x 15 := rfl

@[simp] theorem State.readReg_toNat (s : State) (i : Reg) (z : Size) :
    (s.readReg i z).toNat = (s.x i).toNat % 2 ^ z.bits := mask_toNat _ _

@[simp] theorem State.opnd_eq (s : State) (i : Reg) (z : Size) :
    s.opnd i z = (s.x i).toNat % 2 ^ z.bits := State.readReg_toNat s i z

theorem State.opnd_lt (s : State) (i : Reg) (z : Size) : s.opnd i z < 2 ^ z.bits := by
  rw [State.opnd_eq]; exact Nat.mod_lt _ z.pow_bits_pos

@[simp] theorem State.fpOpnd_eq (s : State) (i : Reg) (f : FpFormat) :
    s.fpOpnd i f = (s.x i).toNat % 2 ^ f.size.bits := State.readReg_toNat s i f.size

end Machine

end Sys2Proof
end

