-- ==== Sys2Proof/Laws/Alu.lean ====
section
/-! SUPPORT. Alu.lean: the laws of the integer unit: masks of exact integers, the signed reading, and the
rounded quotient as a rational number (40_alu_integer.md R111, R115 to R117). -/

namespace Sys2Proof.Machine

theorem maskInt_lt (x : Int) (z : Size) : maskInt x z < 2 ^ z.bits := by
  have hp : (0 : Int) < 2 ^ z.bits := by positivity
  have h := Int.emod_lt_of_pos x hp
  have h0 := Int.emod_nonneg x hp.ne'
  unfold maskInt
  zify
  rw [Int.toNat_of_nonneg h0]
  exact h

/-- A mask is the remainder modulo 2^n. -/
theorem maskInt_cast (x : Int) (z : Size) : ((maskInt x z : Nat) : Int) = x % 2 ^ z.bits :=
  Int.toNat_of_nonneg (Int.emod_nonneg x (by positivity))

/-- The mask of a difference of two values of the width (R114). -/
theorem maskInt_sub {a b : Nat} {z : Size} (ha : a < 2 ^ z.bits) (hb : b < 2 ^ z.bits) :
    maskInt ((a : Int) - b) z = if b ≤ a then a - b else a + 2 ^ z.bits - b := by
  have e := maskInt_cast ((a : Int) - b) z
  split
  · next h =>
    have : ((a : Int) - b) % 2 ^ z.bits = ((a - b : Nat) : Int) := by
      rw [Nat.cast_sub h]
      apply Int.emod_eq_of_lt (by omega)
      zify at ha
      omega
    rw [this] at e
    exact_mod_cast e
  · next h =>
    have : ((a : Int) - b) % 2 ^ z.bits = ((a + 2 ^ z.bits - b : Nat) : Int) := by
      rw [Nat.cast_sub (by omega), ← Int.add_emod_right]
      push_cast
      rw [show (a : Int) - b + 2 ^ z.bits = a + 2 ^ z.bits - b by ring]
      zify at ha hb
      apply Int.emod_eq_of_lt <;> omega
    rw [this] at e
    exact_mod_cast e

/-- The sign bit of a value of the width says that it is at least half the range. -/
theorem msbOf_eq {u : Nat} {z : Size} (h : u < 2 ^ z.bits) :
    msbOf u z = decide (2 ^ (z.bits - 1) ≤ u) := by
  have hb : 2 ^ z.bits = 2 * 2 ^ (z.bits - 1) := by
    rw [← pow_succ']
    congr 1
    have := z.bits_pos
    omega
  unfold msbOf
  rw [Nat.testBit_eq_decide_div_mod_eq]
  congr 1
  have hp : 0 < 2 ^ (z.bits - 1) := Nat.two_pow_pos _
  have h2 : u / 2 ^ (z.bits - 1) < 2 := (Nat.div_lt_iff_lt_mul hp).mpr (by omega)
  have h3 : 1 ≤ u / 2 ^ (z.bits - 1) ↔ 2 ^ (z.bits - 1) ≤ u := by
    rw [Nat.le_div_iff_mul_le hp, Nat.one_mul]
  rw [← h3]
  generalize u / 2 ^ (z.bits - 1) = q at *
  apply propext
  omega

/-- The signed reading by the sign bit (00_scope.md R6). -/
theorem signedOf_eq {u : Nat} {z : Size} (h : u < 2 ^ z.bits) :
    signedOf u z = if msbOf u z then (u : Int) - 2 ^ z.bits else u := by
  rw [msbOf_eq h]
  simp [signedOf]

/-- The signed reading is the unsigned one modulo 2^n. -/
theorem signedOf_emod (u : Nat) (z : Size) : signedOf u z % 2 ^ z.bits = (u : Int) % 2 ^ z.bits := by
  unfold signedOf
  split
  · exact Int.sub_emod_right _ _
  · rfl

/-- The low half of a product is that of the signed product (R115). -/
theorem signedOf_mul_emod (a b : Nat) (z : Size) :
    signedOf a z * signedOf b z % 2 ^ z.bits = ((a * b % 2 ^ z.bits : Nat) : Int) := by
  rw [Int.mul_emod, signedOf_emod, signedOf_emod, ← Int.mul_emod]
  push_cast
  rfl

/-- A floored quotient is the floor of the rational quotient (R116). -/
theorem fdiv_eq_floor (a b : Int) : a.fdiv b = ⌊(a : ℚ) / b⌋ := by
  rcases lt_trichotomy b 0 with hb | rfl | hb
  · have h : ⌊((-a : Int) : ℚ) / ((-b : Int) : ℚ)⌋ = (-a) / (-b) := by
      have := Rat.floor_intCast_div_natCast (-a) (-b).toNat
      rw [Int.toNat_of_nonneg (by omega)] at this
      rw [← this]
      congr 2
      have : (((-b).toNat : Int) : ℚ) = ((-b : Int) : ℚ) := by rw [Int.toNat_of_nonneg (by omega)]
      exact_mod_cast this.symm
    push_cast at h
    rw [neg_div_neg_eq] at h
    rw [h, ← Int.fdiv_eq_ediv_of_nonneg _ (by omega : 0 ≤ -b), Int.neg_fdiv_neg]
  · simp
  · have h : ⌊(a : ℚ) / ((b.toNat : Nat) : ℚ)⌋ = a / ((b.toNat : Nat) : Int) :=
      Rat.floor_intCast_div_natCast a b.toNat
    have hb' : ((b.toNat : Nat) : Int) = b := Int.toNat_of_nonneg hb.le
    have hq : ((b.toNat : Nat) : ℚ) = (b : ℚ) := by exact_mod_cast congrArg (Int.cast : Int → ℚ) hb'
    rw [hb', hq] at h
    rw [h, Int.fdiv_eq_ediv_of_nonneg _ hb.le]

/-- A truncated quotient is the rational quotient rounded toward zero (R116). -/
theorem tdiv_eq_round (a b : Int) :
    a.tdiv b = if (0 : ℚ) ≤ (a : ℚ) / b then ⌊(a : ℚ) / b⌋ else ⌈(a : ℚ) / b⌉ := by
  have key : ∀ c d : Int, 0 ≤ c → 0 ≤ d → c.tdiv d = ⌊(c : ℚ) / d⌋ := fun c d hc hd => by
    rw [← fdiv_eq_floor, Int.tdiv_eq_ediv_of_nonneg hc, Int.fdiv_eq_ediv_of_nonneg _ hd]
  have nn : ∀ c d : Int, 0 ≤ c → 0 ≤ d → (0 : ℚ) ≤ (c : ℚ) / d := fun c d hc hd =>
    div_nonneg (by exact_mod_cast hc) (by exact_mod_cast hd)
  have ceil : ∀ q : ℚ, 0 ≤ q → (if (0 : ℚ) ≤ -q then ⌊-q⌋ else ⌈-q⌉) = -⌊q⌋ := fun q hq => by
    split
    · next h =>
      have : q = 0 := by linarith
      simp [this]
    · exact Int.ceil_neg
  rcases le_total 0 a with ha | ha <;> rcases le_total 0 b with hb | hb
  · rw [if_pos (nn a b ha hb), key a b ha hb]
  · obtain ⟨d, rfl⟩ : ∃ d, b = -d := ⟨-b, by omega⟩
    have hd : 0 ≤ d := by omega
    rw [Int.tdiv_neg, key a d ha hd]
    push_cast
    rw [div_neg, ceil _ (nn a d ha hd)]
  · obtain ⟨c, rfl⟩ : ∃ c, a = -c := ⟨-a, by omega⟩
    have hc : 0 ≤ c := by omega
    rw [Int.neg_tdiv, key c b hc hb]
    push_cast
    rw [neg_div, ceil _ (nn c b hc hb)]
  · obtain ⟨c, rfl⟩ : ∃ c, a = -c := ⟨-a, by omega⟩
    obtain ⟨d, rfl⟩ : ∃ d, b = -d := ⟨-b, by omega⟩
    have hc : 0 ≤ c := by omega
    have hd : 0 ≤ d := by omega
    rw [Int.neg_tdiv, Int.tdiv_neg, neg_neg, key c d hc hd]
    push_cast
    rw [neg_div_neg_eq, if_pos (nn c d hc hd)]

/-- The quotient that SDIV_MODE names, as a rational number rounded (R116). -/
theorem signedQuotient_eq (m : DivMode) (a b : Int) :
    signedQuotient m a b =
      match m with
      | .trunc => if (0 : ℚ) ≤ (a : ℚ) / b then ⌊(a : ℚ) / b⌋ else ⌈(a : ℚ) / b⌉
      | .floor => ⌊(a : ℚ) / b⌋ := by
  cases m
  · exact tdiv_eq_round a b
  · exact fdiv_eq_floor a b

/-- An ALU instruction's end, for a result that fits its size. -/
theorem aluWrite_eq {z : Size} {o : UnitOut} (h : o.r < 2 ^ z.bits) (rd : Reg) (s : State) :
    aluWrite z rd o s = .next ((s.setX rd (BitVec.ofNat 64 o.r)).setFlags o.flags) := by
  simp only [aluWrite, State.writeReg_eq, mask_ofNat h]

/-- A floating-point instruction's end, for a result that fits its format. -/
theorem fpWrite_eq {f : FpFormat} {r : Nat} (h : r < 2 ^ f.size.bits) (rd : Reg) (s : State) :
    fpWrite f rd r s = .next ((s.setX rd (BitVec.ofNat 64 r)).setFlags (fpOut f r).flags) := by
  simp only [fpWrite, State.writeReg_eq, mask_ofNat h]

end Sys2Proof.Machine
end

