-- ==== Sys2Proof/Laws/Memory.lean ====
section
/-! SUPPORT. Memory.lean: the laws of Memory: a read after a write, the canonical form, the byte order,
and what the two Memory ports do. -/

namespace Sys2Proof

@[simp] theorem bytesLE_length (n v : Nat) : (bytesLE n v).length = n := by
  induction n generalizing v with
  | zero => rfl
  | succ n ih => simp [bytesLE, ih]

/-- Byte i of the little-endian bytes of v is v's byte i. -/
theorem bytesLE_getElem (n v i : Nat) (h : i < (bytesLE n v).length) :
    (bytesLE n v)[i] = BitVec.ofNat 8 (v / 256 ^ i) := by
  induction n generalizing v i with
  | zero => simp [bytesLE] at h
  | succ n ih =>
    cases i with
    | zero => simp [bytesLE]
    | succ i =>
      simp only [bytesLE, List.getElem_cons_succ, ih]
      rw [Nat.div_div_eq_div_mul, Nat.pow_succ, Nat.mul_comm]

theorem natOfBytesLE_lt (bs : List Byte) : natOfBytesLE bs < 256 ^ bs.length := by
  induction bs with
  | nil => simp [natOfBytesLE]
  | cons b bs ih =>
    have hb := b.isLt
    simp only [natOfBytesLE, List.length_cons, Nat.pow_succ]
    omega

theorem natOfBytesLE_bytesLE (n v : Nat) : natOfBytesLE (bytesLE n v) = v % 256 ^ n := by
  induction n generalizing v with
  | zero => simp [natOfBytesLE, bytesLE, Nat.mod_one]
  | succ n ih =>
    have hb : (BitVec.ofNat 8 v).toNat = v % 256 := rfl
    rw [bytesLE, natOfBytesLE, ih, hb, Nat.pow_succ', Nat.mod_mul]

theorem wordOfBytesLE_bytesLE (v : Word) : wordOfBytesLE (bytesLE 8 v.toNat) = v := by
  apply BitVec.eq_of_toNat_eq
  have h := v.isLt
  simp only [wordOfBytesLE, natOfBytesLE_bytesLE, BitVec.toNat_ofNat]
  omega

namespace Machine

theorem Memory.readByte_cons (m : Memory) (a b : Nat) (v : Byte)
    (h : m.readByte a = Memory.unlisted) :
    (Memory.cons a v m).readByte b = if b = a then v else m.readByte b := by
  unfold Memory.cons
  split
  · next hv =>
    split
    · next hb => subst hb; rw [h, hv]
    · rfl
  · simp only [Memory.readByte, eq_comm]

/-- An address below every listed one is unlisted. -/
theorem Memory.readByte_of_lt {m : Memory} {lo a : Nat} (h : Memory.wfFrom lo m = true) (ha : a < lo) :
    m.readByte a = Memory.unlisted := by
  induction m generalizing lo with
  | nil => rfl
  | cons c m ih =>
    obtain ⟨k, b⟩ := c
    simp only [Memory.wfFrom, Bool.and_eq_true, decide_eq_true_eq] at h
    simp only [Memory.readByte]
    rw [if_neg (by omega)]
    exact ih h.2 (by omega)

/-- A read after a write: the byte written at its address, and every other byte as it was. -/
theorem Memory.readByte_writeByte {m : Memory} {lo : Nat} (h : Memory.wfFrom lo m = true)
    (a b : Nat) (v : Byte) :
    (m.writeByte a v).readByte b = if b = a then v else m.readByte b := by
  induction m generalizing lo with
  | nil => exact Memory.readByte_cons [] a b v rfl
  | cons c m ih =>
    obtain ⟨k, w⟩ := c
    have hw := h
    simp only [Memory.wfFrom, Bool.and_eq_true, decide_eq_true_eq] at hw
    simp only [Memory.writeByte]
    split
    · next hlt =>
      apply Memory.readByte_cons
      simp only [Memory.readByte]
      rw [if_neg (by omega)]
      exact Memory.readByte_of_lt hw.2 (by omega)
    · split
      · next hne heq =>
        subst heq
        rw [Memory.readByte_cons _ _ _ _ (Memory.readByte_of_lt hw.2 (by omega))]
        simp only [Memory.readByte]
        split
        · rfl
        · next hb => rw [if_neg (Ne.symm hb)]
      · next hnlt hne =>
        simp only [Memory.readByte, ih hw.2]
        split
        · next hb => rw [if_neg (by omega)]
        · rfl

theorem Memory.wfFrom_mono {m : Memory} {lo lo' : Nat} (h : Memory.wfFrom lo m = true) (hl : lo' ≤ lo) :
    Memory.wfFrom lo' m = true := by
  cases m with
  | nil => rfl
  | cons c m =>
    simp only [Memory.wfFrom, Bool.and_eq_true, decide_eq_true_eq] at h ⊢
    exact ⟨⟨by omega, h.1.2⟩, h.2⟩

theorem Memory.wfFrom_cons {m : Memory} {lo a : Nat} (v : Byte) (hlo : lo ≤ a)
    (h : Memory.wfFrom (a + 1) m = true) : Memory.wfFrom lo (Memory.cons a v m) = true := by
  unfold Memory.cons
  split
  · exact Memory.wfFrom_mono h (by omega)
  · next hv =>
    simp only [Memory.wfFrom, Bool.and_eq_true, decide_eq_true_eq]
    exact ⟨⟨hlo, hv⟩, h⟩

/-- A write keeps the canonical form. -/
theorem Memory.wfFrom_writeByte {m : Memory} {lo a : Nat} (v : Byte) (h : Memory.wfFrom lo m = true)
    (hlo : lo ≤ a) : Memory.wfFrom lo (m.writeByte a v) = true := by
  induction m generalizing lo with
  | nil => exact Memory.wfFrom_cons v hlo rfl
  | cons c m ih =>
    obtain ⟨k, w⟩ := c
    have hw := h
    simp only [Memory.wfFrom, Bool.and_eq_true, decide_eq_true_eq] at hw
    simp only [Memory.writeByte]
    split
    · apply Memory.wfFrom_cons v hlo
      simp only [Memory.wfFrom, Bool.and_eq_true, decide_eq_true_eq]
      exact ⟨⟨by omega, hw.1.2⟩, hw.2⟩
    · split
      · next hne heq => subst heq; exact Memory.wfFrom_cons v hlo hw.2
      · next hnlt hne =>
        simp only [Memory.wfFrom, Bool.and_eq_true, decide_eq_true_eq]
        exact ⟨hw.1, ih hw.2 (by omega)⟩

theorem Memory.wf_writeByte {m : Memory} (a : Nat) (v : Byte) (h : m.wf = true) :
    (m.writeByte a v).wf = true := Memory.wfFrom_writeByte v h (Nat.zero_le a)

theorem Memory.wf_writeBytes {m : Memory} (a : Nat) (bs : List Byte) (h : m.wf = true) :
    (m.writeBytes a bs).wf = true := by
  induction bs generalizing m a with
  | nil => exact h
  | cons b bs ih => exact ih (a + 1) (Memory.wf_writeByte a b h)

theorem Memory.below_cons {m : Memory} {bound a : Nat} (v : Byte) (ha : a < bound)
    (h : m.below bound = true) : (Memory.cons a v m).below bound = true := by
  unfold Memory.cons
  split
  · exact h
  · simpa [Memory.below, ha] using h

theorem Memory.below_writeByte {m : Memory} {bound a : Nat} (v : Byte) (ha : a < bound)
    (h : m.below bound = true) : (m.writeByte a v).below bound = true := by
  induction m with
  | nil => exact Memory.below_cons v ha h
  | cons c m ih =>
    obtain ⟨k, w⟩ := c
    have hc : k < bound ∧ Memory.below bound m = true := by simpa [Memory.below] using h
    simp only [Memory.writeByte]
    split
    · exact Memory.below_cons v ha h
    · split
      · exact Memory.below_cons v ha hc.2
      · have := ih hc.2
        simpa [Memory.below, hc.1] using this

theorem Memory.below_writeBytes {m : Memory} {bound : Nat} (a : Nat) (bs : List Byte)
    (ha : a + bs.length ≤ bound) (h : m.below bound = true) :
    (m.writeBytes a bs).below bound = true := by
  induction bs generalizing m a with
  | nil => exact h
  | cons b bs ih =>
    simp only [List.length_cons] at ha
    exact ih (a + 1) (by omega) (Memory.below_writeByte b (by omega) h)

/-- A read after a write of some bytes: the bytes written, and every other byte as it was. -/
theorem Memory.readByte_writeBytes {m : Memory} (h : m.wf = true) (a b : Nat) (bs : List Byte) :
    (m.writeBytes a bs).readByte b =
      if hb : a ≤ b ∧ b - a < bs.length then bs[b - a] else m.readByte b := by
  induction bs generalizing m a with
  | nil => simp [Memory.writeBytes]
  | cons v bs ih =>
    simp only [Memory.writeBytes]
    rw [ih (Memory.wf_writeByte a v h) (a + 1), Memory.readByte_writeByte h]
    by_cases hab : b = a
    · subst hab
      simp
    · by_cases hlt : a ≤ b ∧ b - a < (v :: bs).length
      · have h1 : a + 1 ≤ b ∧ b - (a + 1) < bs.length := by
          simp only [List.length_cons] at hlt; omega
        have h2 : b - a = (b - (a + 1)) + 1 := by omega
        rw [dif_pos h1, dif_pos hlt]
        simp only [h2, List.getElem_cons_succ]
      · have h1 : ¬(a + 1 ≤ b ∧ b - (a + 1) < bs.length) := by
          simp only [List.length_cons] at hlt; omega
        rw [dif_neg h1, dif_neg hlt, if_neg hab]

theorem Memory.readBytes_length (m : Memory) (a n : Nat) : (m.readBytes a n).length = n := by
  induction n generalizing a with
  | zero => rfl
  | succ n ih => simp [Memory.readBytes, ih]

theorem Memory.readBytes_getElem (m : Memory) (a n i : Nat) (h : i < (m.readBytes a n).length) :
    (m.readBytes a n)[i] = m.readByte (a + i) := by
  induction n generalizing a i with
  | zero => simp [Memory.readBytes] at h
  | succ n ih =>
    cases i with
    | zero => simp [Memory.readBytes]
    | succ i => simp only [Memory.readBytes, List.getElem_cons_succ, ih]; congr 1; omega

/-- The bytes just written are read back. -/
theorem Memory.readBytes_writeBytes {m : Memory} (h : m.wf = true) (a : Nat) (bs : List Byte) :
    (m.writeBytes a bs).readBytes a bs.length = bs := by
  apply List.ext_getElem
  · exact Memory.readBytes_length _ _ _
  · intro i h1 h2
    rw [Memory.readBytes_getElem, Memory.readByte_writeBytes h]
    rw [dif_pos (by omega)]
    simp

/-- Everything the read port can do (20_memory.md R52). -/
theorem State.memRead_cases (s : State) (a : Word) (z : Size) :
    (a.toNat + z.bytes ≤ s.cfg.memSize ∧
      s.memRead a z = some (wordOfBytesLE (s.mem.readBytes a.toNat z.bytes))) ∨
    (s.cfg.memSize < a.toNat + z.bytes ∧ s.memRead a z = none) := by
  unfold State.memRead State.inRange
  by_cases h : a.toNat + z.bytes ≤ s.cfg.memSize
  · exact .inl ⟨h, by simp [h]⟩
  · exact .inr ⟨by omega, by simp [h]⟩

/-- Everything the write port can do (R53). -/
theorem State.memWrite_cases (s : State) (a : Word) (z : Size) (v : Word) :
    (a.toNat + z.bytes ≤ s.cfg.memSize ∧ s.memWrite a z v =
      some { s with mem := s.mem.writeBytes a.toNat (bytesLE z.bytes (uval v z)) }) ∨
    (s.cfg.memSize < a.toNat + z.bytes ∧ s.memWrite a z v = none) := by
  unfold State.memWrite State.inRange
  by_cases h : a.toNat + z.bytes ≤ s.cfg.memSize
  · exact .inl ⟨h, by simp [h]⟩
  · exact .inr ⟨by omega, by simp [h]⟩

end Machine

end Sys2Proof
end

