-- ==== Sys2Proof/Laws/Decode.lean ====
section
/-! SUPPORT. Decode.lean: the fields of an encoded word are the fields it was made from, and the bytes of
an encoded instruction are read back as its words. -/

namespace Sys2Proof

/-- The bits of a format OP word (R82). -/
theorem wordOp_bit (op : Opcode) (i : Nat) : (wordOp op).getLsbD i =
    if i < 48 then false else op.getLsbD (i - 48) :=
  (BitVec.getLsbD_append (x := op) (y := (0 : BitVec 48))).trans (by simp)

/-- The bits of a first word of the formats R and RI (R83, R85). -/
theorem wordR_bit (op : Opcode) (rd : Reg) (i : Nat) : (wordR op rd).getLsbD i =
    if i < 44 then false else if i < 48 then (BitVec.ofFin rd : BitVec 4).getLsbD (i - 44) else op.getLsbD (i - 48) := by
  refine (BitVec.getLsbD_append (x := op ++ (BitVec.ofFin rd : BitVec 4)) (y := (0 : BitVec 44))).trans ?_
  rw [BitVec.getLsbD_append]
  split
  · simp
  · split
    · rw [if_pos (by omega)]
    · rw [if_neg (by omega)]; congr 1

/-- The bits of a format RR word (R84). -/
theorem wordRR_bit (op : Opcode) (rd rs : Reg) (i : Nat) : (wordRR op rd rs).getLsbD i =
    if i < 4 then (BitVec.ofFin rs : BitVec 4).getLsbD i
    else if i < 8 then (BitVec.ofFin rd : BitVec 4).getLsbD (i - 4)
    else if i < 48 then false else op.getLsbD (i - 48) := by
  refine (BitVec.getLsbD_append (x := op ++ (0 : BitVec 40) ++ (BitVec.ofFin rd : BitVec 4))
    (y := (BitVec.ofFin rs : BitVec 4))).trans ?_
  split
  · rfl
  · rw [BitVec.getLsbD_append]
    split
    · rw [if_pos (by omega)]
    · rw [if_neg (by omega), BitVec.getLsbD_append]
      split
      · rw [if_pos (by omega)]; simp
      · rw [if_neg (by omega)]; congr 1

@[simp] theorem opcodeField_wordOp (op : Opcode) : opcodeField (wordOp op) = op := by
  ext i hi
  simp only [opcodeField, BitVec.getElem_extractLsb', wordOp_bit]
  rw [if_neg (by omega), Nat.add_sub_cancel_left, BitVec.getLsbD_eq_getElem hi]

@[simp] theorem opcodeField_wordR (op : Opcode) (rd : Reg) : opcodeField (wordR op rd) = op := by
  ext i hi
  simp only [opcodeField, BitVec.getElem_extractLsb', wordR_bit]
  rw [if_neg (by omega), if_neg (by omega), Nat.add_sub_cancel_left, BitVec.getLsbD_eq_getElem hi]

@[simp] theorem opcodeField_wordRR (op : Opcode) (rd rs : Reg) : opcodeField (wordRR op rd rs) = op := by
  ext i hi
  simp only [opcodeField, BitVec.getElem_extractLsb', wordRR_bit]
  rw [if_neg (by omega), if_neg (by omega), if_neg (by omega), Nat.add_sub_cancel_left,
    BitVec.getLsbD_eq_getElem hi]

@[simp] theorem highRegField_wordR (op : Opcode) (rd : Reg) : highRegField (wordR op rd) = rd := by
  have h : (wordR op rd).extractLsb' 44 4 = BitVec.ofFin rd := by
    ext i hi
    simp only [BitVec.getElem_extractLsb', wordR_bit]
    rw [if_neg (by omega), if_pos (by omega), Nat.add_sub_cancel_left, BitVec.getLsbD_eq_getElem hi]
  simp only [highRegField, h]

@[simp] theorem lowRdField_wordRR (op : Opcode) (rd rs : Reg) : lowRdField (wordRR op rd rs) = rd := by
  have h : (wordRR op rd rs).extractLsb' 4 4 = BitVec.ofFin rd := by
    ext i hi
    simp only [BitVec.getElem_extractLsb', wordRR_bit]
    rw [if_neg (by omega), if_pos (by omega), Nat.add_sub_cancel_left, BitVec.getLsbD_eq_getElem hi]
  simp only [lowRdField, h]

@[simp] theorem lowRsField_wordRR (op : Opcode) (rd rs : Reg) : lowRsField (wordRR op rd rs) = rs := by
  have h : (wordRR op rd rs).extractLsb' 0 4 = BitVec.ofFin rs := by
    ext i hi
    simp only [BitVec.getElem_extractLsb', wordRR_bit, Nat.zero_add]
    rw [if_pos (by omega), BitVec.getLsbD_eq_getElem hi]
  simp only [lowRsField, h]

theorem take_bytesLE_append (w : Word) (rest : List Byte) :
    wordOfBytesLE ((bytesLE 8 w.toNat ++ rest).take 8) = w := by
  rw [List.take_append_of_le_length (by simp), List.take_of_length_le (by simp)]
  exact wordOfBytesLE_bytesLE w

theorem drop_bytesLE_append (w : Word) (rest : List Byte) :
    (bytesLE 8 w.toNat ++ rest).drop 8 = rest := by
  rw [List.drop_append_of_le_length (by simp), List.drop_of_length_le (by simp)]
  rfl

/-- An opcode is undefined exactly where the map lists no entry of it (R89). -/
theorem lookupOpcode_eq_none_iff (map : OpcodeMap) (op : Opcode) :
    lookupOpcode map op = none ↔ ∀ m, (op, m) ∉ map := by
  induction map with
  | nil => simp [lookupOpcode]
  | cons e rest ih =>
    obtain ⟨o, m⟩ := e
    by_cases h : o = op
    · subst h
      simp only [lookupOpcode, if_true, reduceCtorEq, false_iff]
      exact fun hn => hn m List.mem_cons_self
    · simp [lookupOpcode, h, ih, Ne.symm h]

/-- A defined opcode's format is that of its instruction. -/
theorem formatOf_of_lookup {map : OpcodeMap} {op : Opcode} {m : Mnemonic}
    (h : lookupOpcode map op = some m) : formatOf map op = some m.builder.format := by
  simp [formatOf, h]

/-- What decode does with a word whose opcode is defined (R97). -/
theorem decode_of_lookup {map : OpcodeMap} {w : Word} {m : Mnemonic} (next : Option Word)
    (h : lookupOpcode map (opcodeField w) = some m) :
    decode map w next = decodeAs m.builder w next := by
  simp only [decode, h]

/-- What decode does with a word whose opcode is not defined (R89). -/
theorem decode_of_undefined {map : OpcodeMap} {w : Word} (next : Option Word)
    (h : lookupOpcode map (opcodeField w) = none) :
    decode map w next = .error (.unknownOpcode (opcodeField w)) := by
  simp only [decode, h]

/-- Everything the reading of operands can do: format RI without its immediate word is rejected, and all
else gives a record of the word's opcode and the format, whose operands fit the format (R90, R97). -/
theorem decodeAs_cases (b : Builder) (w : Word) (next : Option Word) :
    (b.format = .ri ∧ next = none ∧ decodeAs b w next = .error (.noImmediate (opcodeField w))) ∨
    ∃ d, decodeAs b w next = .ok d ∧ d.record.opcode = opcodeField w ∧ d.record.format = b.format ∧
      d.record.rdOk = true ∧ d.record.rsOk = true ∧ d.record.immOk = true ∧
      (b.format = .ri → d.record.imm = next ∧ next ≠ none) := by
  cases b with
  | op i => exact .inr ⟨_, rfl, rfl, rfl, rfl, rfl, rfl, nofun⟩
  | r f => exact .inr ⟨_, rfl, rfl, rfl, rfl, rfl, rfl, nofun⟩
  | rr f => exact .inr ⟨_, rfl, rfl, rfl, rfl, rfl, rfl, nofun⟩
  | ri f =>
    cases next with
    | none => exact .inl ⟨rfl, rfl, rfl⟩
    | some imm => exact .inr ⟨_, rfl, rfl, rfl, rfl, rfl, rfl, fun _ => ⟨rfl, nofun⟩⟩

/-- A record is well formed where its opcode's instruction has its format and its operands fit the format. -/
theorem wellFormed_of_lookup {map : OpcodeMap} {m : Mnemonic} {r : DecodedInst}
    (h : lookupOpcode map r.opcode = some m) (hf : r.format = m.builder.format)
    (hd : r.rdOk = true) (hs : r.rsOk = true) (hi : r.immOk = true) :
    r.wellFormed (formatOf map) = true := by
  simp [DecodedInst.wellFormed, hd, hs, hi, DecodedInst.opcodeOk, hf, formatOf_of_lookup h]

/-- The map of R91 gives every instruction a number. -/
theorem opcodeTable_complete : opcodeTable.Complete := by
  intro m
  cases m <;> rfl

/-- The bytes of an 8-byte instruction decode to it. -/
theorem decodeBytes_one {map : OpcodeMap} {i : Instr} {w : Word} {r : DecodedInst} (rest : List Byte)
    (h : encode map i = [w]) (hd : ∀ n, decode map w n = .ok ⟨r, i⟩) (hl : r.format.length = 8) :
    decodeBytes map (encodeBytes map i ++ rest) = .ok (⟨r, i⟩, rest) := by
  have e : encodeBytes map i ++ rest = bytesLE 8 w.toNat ++ rest := by simp [encodeBytes, h]
  rw [e]
  unfold decodeBytes
  rw [if_neg (by simp), take_bytesLE_append]
  simp only [hd, hl, drop_bytesLE_append]

/-- The bytes of a 16-byte instruction decode to it. -/
theorem decodeBytes_two {map : OpcodeMap} {i : Instr} {w imm : Word} {r : DecodedInst}
    (rest : List Byte) (h : encode map i = [w, imm]) (hd : decode map w (some imm) = .ok ⟨r, i⟩)
    (hl : r.format.length = 16) :
    decodeBytes map (encodeBytes map i ++ rest) = .ok (⟨r, i⟩, rest) := by
  have e : encodeBytes map i ++ rest = bytesLE 8 w.toNat ++ (bytesLE 8 imm.toNat ++ rest) := by
    simp [encodeBytes, h]
  rw [e]
  unfold decodeBytes
  rw [if_neg (by simp), take_bytesLE_append]
  simp only [drop_bytesLE_append, take_bytesLE_append]
  rw [if_neg (by simp), hd]
  simp only [hl]
  rw [show (16 : Nat) = 8 + 8 from rfl, ← List.drop_drop, drop_bytesLE_append, drop_bytesLE_append]

/-- What the round trip of an instruction says, under a map: decode of its bytes gives it back, with the
bytes that follow and a well-formed record. -/
def RoundTrip (map : OpcodeMap) (i : Instr) : Prop :=
  ∀ rest : List Byte, ∃ d : Decoded, decodeBytes map (encodeBytes map i ++ rest) = .ok (d, rest) ∧
    d.instr = i ∧ d.record.wellFormed (formatOf map) = true

/-- The round trip of a format OP instruction. -/
theorem RoundTrip.of_op {map : OpcodeMap} {m : Mnemonic} {i : Instr} (hc : map.Complete)
    (h : encode map i = [wordOp (numberIn map m)]) (hb : m.builder = .op i) : RoundTrip map i := by
  have hl : lookupOpcode map (opcodeField (wordOp (numberIn map m))) = some m := by simp [hc m]
  exact fun rest => ⟨_, decodeBytes_one rest h (fun n => by rw [decode_of_lookup n hl, hb]; rfl) rfl, rfl,
    wellFormed_of_lookup hl (by rw [hb]; rfl) rfl rfl rfl⟩

/-- The round trip of a format R instruction. -/
theorem RoundTrip.of_r {map : OpcodeMap} {m : Mnemonic} {f : Reg → Instr} {rd : Reg}
    (hc : map.Complete) (h : encode map (f rd) = [wordR (numberIn map m) rd])
    (hb : m.builder = .r f) : RoundTrip map (f rd) := by
  have hl : lookupOpcode map (opcodeField (wordR (numberIn map m) rd)) = some m := by simp [hc m]
  have hd : ∀ n, decode map (wordR (numberIn map m) rd) n =
      .ok ⟨⟨opcodeField (wordR (numberIn map m) rd), .r, some rd, none, none⟩, f rd⟩ := fun n => by
    rw [decode_of_lookup n hl, hb]; simp only [decodeAs, highRegField_wordR]
  exact fun rest => ⟨_, decodeBytes_one rest h hd rfl, rfl,
    wellFormed_of_lookup hl (by rw [hb]; rfl) rfl rfl rfl⟩

/-- The round trip of a format RR instruction. -/
theorem RoundTrip.of_rr {map : OpcodeMap} {m : Mnemonic} {f : Reg → Reg → Instr} {rd rs : Reg}
    (hc : map.Complete) (h : encode map (f rd rs) = [wordRR (numberIn map m) rd rs])
    (hb : m.builder = .rr f) : RoundTrip map (f rd rs) := by
  have hl : lookupOpcode map (opcodeField (wordRR (numberIn map m) rd rs)) = some m := by simp [hc m]
  have hd : ∀ n, decode map (wordRR (numberIn map m) rd rs) n =
      .ok ⟨⟨opcodeField (wordRR (numberIn map m) rd rs), .rr, some rd, some rs, none⟩, f rd rs⟩ :=
    fun n => by
      rw [decode_of_lookup n hl, hb]; simp only [decodeAs, lowRdField_wordRR, lowRsField_wordRR]
  exact fun rest => ⟨_, decodeBytes_one rest h hd rfl, rfl,
    wellFormed_of_lookup hl (by rw [hb]; rfl) rfl rfl rfl⟩

/-- The round trip of a format RI instruction; the register is 0 where the instruction has none. -/
theorem RoundTrip.of_ri {map : OpcodeMap} {m : Mnemonic} {f : Reg → Word → Instr} {rd : Reg}
    {imm : Word} (hc : map.Complete) (h : encode map (f rd imm) = [wordR (numberIn map m) rd, imm])
    (hb : m.builder = .ri f) : RoundTrip map (f rd imm) := by
  have hl : lookupOpcode map (opcodeField (wordR (numberIn map m) rd)) = some m := by simp [hc m]
  have hd : decode map (wordR (numberIn map m) rd) (some imm) =
      .ok ⟨⟨opcodeField (wordR (numberIn map m) rd), .ri, some rd, none, some imm⟩, f rd imm⟩ := by
    rw [decode_of_lookup _ hl, hb]; simp only [decodeAs, highRegField_wordR]
  exact fun rest => ⟨_, decodeBytes_two rest h hd rfl, rfl,
    wellFormed_of_lookup hl (by rw [hb]; rfl) rfl rfl rfl⟩

end Sys2Proof
end

