-- ==== Sys2Proof/Laws/Float.lean ====
section
/-! SUPPORT. Float.lean: the laws of the floating-point unit: the fields of a pattern, the values of
magnitudes, rounding to nearest with ties to even, the integer square root. -/

namespace Sys2Proof.Machine

/-! ### Patterns and magnitudes -/

theorem fpWidth_eq (f : FpFormat) : fpWidth f - 1 = fpExpBits f + fpFracBits f := by
  cases f <;> rfl

theorem fpInfMagnitude_lt (f : FpFormat) : fpInfMagnitude f < 2 ^ (fpWidth f - 1) := by
  cases f <;> decide

/-- A pattern's sign bit is its sign, where the magnitude fits. -/
theorem fpSign_pattern (f : FpFormat) (neg : Bool) {mag : Nat} (h : mag < 2 ^ (fpWidth f - 1)) :
    fpSign f (fpPattern f neg mag) = neg := by
  unfold fpSign fpPattern
  cases neg
  · simp [Nat.testBit_lt_two_pow h]
  · simp [Nat.testBit_two_pow_add_eq, Nat.testBit_lt_two_pow h]

theorem fpMagnitude_pattern (f : FpFormat) (neg : Bool) {mag : Nat} (h : mag < 2 ^ (fpWidth f - 1)) :
    fpMagnitude f (fpPattern f neg mag) = mag := by
  unfold fpMagnitude fpPattern
  cases neg
  · simpa using Nat.mod_eq_of_lt h
  · simpa using Nat.mod_eq_of_lt h

/-- The exponent field is that of the magnitude. -/
theorem fpExpField_eq (f : FpFormat) (x : Nat) :
    fpExpField f x = fpMagnitude f x / 2 ^ fpFracBits f := by
  unfold fpExpField fpMagnitude
  rw [fpWidth_eq, Nat.add_comm, pow_add, Nat.mod_mul_right_div_self]

/-- The fraction field is that of the magnitude. -/
theorem fpFracField_eq (f : FpFormat) (x : Nat) :
    fpFracField f x = fpMagnitude f x % 2 ^ fpFracBits f := by
  unfold fpFracField fpMagnitude
  rw [fpWidth_eq, Nat.add_comm, pow_add, Nat.mod_mul_right_mod]

/-- A pattern is the pattern of its sign and its magnitude. -/
theorem fpPattern_eta (f : FpFormat) {x : Nat} (h : x < 2 ^ fpWidth f) :
    fpPattern f (fpSign f x) (fpMagnitude f x) = x := by
  have hw : fpWidth f = (fpWidth f - 1) + 1 := by cases f <;> rfl
  rw [hw, pow_succ] at h
  unfold fpPattern fpSign fpMagnitude
  rw [Nat.testBit_eq_decide_div_mod_eq]
  have hd := Nat.div_add_mod x (2 ^ (fpWidth f - 1))
  have hq : x / 2 ^ (fpWidth f - 1) < 2 := (Nat.div_lt_iff_lt_mul (Nat.two_pow_pos _)).mpr (by omega)
  generalize x / 2 ^ (fpWidth f - 1) = q at *
  obtain rfl | rfl : q = 0 ∨ q = 1 := by omega
  · simpa using hd
  · simpa using hd

/-- How many units of 2^fpMinExp the value of a magnitude is, infinity and beyond read as if they were
finite (41_fpu.md R160, R164). -/
def fpUnits (f : FpFormat) (mag : Nat) : Nat :=
  if mag / 2 ^ fpFracBits f = 0 then mag % 2 ^ fpFracBits f
  else (2 ^ fpFracBits f + mag % 2 ^ fpFracBits f) * 2 ^ (mag / 2 ^ fpFracBits f - 1)

/-- A finite pattern unpacks to its sign and its units. -/
theorem fpUnpack_units (f : FpFormat) {x : Nat} {neg : Bool} {m : Nat} {e : Int}
    (h : fpUnpack f x = .finite neg m e) :
    neg = fpSign f x ∧ fpMinExp f ≤ e ∧
      fpUnits f (fpMagnitude f x) = m * 2 ^ (e - fpMinExp f).toNat := by
  unfold fpUnpack at h
  unfold fpUnits
  rw [fpExpField_eq, fpFracField_eq] at h
  split at h
  · cases h
  · split at h
    · cases h
    · split at h
      · next he =>
        cases h
        rw [if_pos he]
        exact ⟨rfl, le_refl _, by simp⟩
      · next he =>
        cases h
        rw [if_neg he]
        generalize fpMagnitude f x / 2 ^ fpFracBits f = k at he ⊢
        refine ⟨rfl, by omega, ?_⟩
        congr 2
        omega

/-- Larger magnitudes have larger values. -/
theorem fpUnits_strictMono (f : FpFormat) : StrictMono (fpUnits f) := by
  refine strictMono_nat_of_lt_succ fun n => ?_
  unfold fpUnits
  have hp : 0 < 2 ^ fpFracBits f := Nat.two_pow_pos _
  generalize 2 ^ fpFracBits f = P at *
  have hd := Nat.div_add_mod n P
  have hm := Nat.mod_lt n hp
  by_cases hc : n % P + 1 < P
  · have h1 : (n + 1) / P = n / P := by
      rw [Nat.div_eq_iff (by omega)]
      constructor
      · rw [Nat.mul_comm]; omega
      · have : (n / P) * P = P * (n / P) := Nat.mul_comm _ _
        omega
    have h2 : (n + 1) % P = n % P + 1 := by
      have := Nat.div_add_mod (n + 1) P
      rw [h1] at this
      omega
    rw [h1, h2]
    split
    · omega
    · exact Nat.mul_lt_mul_of_pos_right (by omega) (Nat.two_pow_pos _)
  · have hP : n + 1 = P * (n / P + 1) := by
      have := Nat.mul_add_one P (n / P)
      omega
    have h1 : (n + 1) / P = n / P + 1 := by rw [hP, Nat.mul_div_cancel_left _ hp]
    have h2 : (n + 1) % P = 0 := by rw [hP, Nat.mul_mod_right]
    rw [h1, h2, if_neg (Nat.succ_ne_zero _), Nat.add_sub_cancel, Nat.add_zero]
    generalize n / P = q at *
    cases q with
    | zero => simpa using hm
    | succ k =>
      rw [if_neg (Nat.succ_ne_zero _), Nat.add_sub_cancel, pow_succ]
      have hk := Nat.two_pow_pos k
      have h3 : (P + n % P) * 2 ^ k < (P + P) * 2 ^ k := Nat.mul_lt_mul_of_pos_right (by omega) hk
      calc _ < (P + P) * 2 ^ k := h3
        _ = _ := by ring

/-- The units of a magnitude built from an exponent step d and a significand n. -/
theorem fpUnits_build (f : FpFormat) {d n : Nat} (hlo : d = 0 ∨ 2 ^ fpFracBits f ≤ n)
    (hhi : n ≤ 2 * 2 ^ fpFracBits f) :
    fpUnits f (d * 2 ^ fpFracBits f + n) = n * 2 ^ d := by
  unfold fpUnits
  have hp : 0 < 2 ^ fpFracBits f := Nat.two_pow_pos _
  generalize 2 ^ fpFracBits f = P at *
  have key : ∀ k r, r < P → n = k * P + r →
      (d * P + n) / P = d + k ∧ (d * P + n) % P = r := by
    intro k r hr hn
    have e : d * P + n = r + P * (d + k) := by rw [hn]; ring
    constructor
    · rw [e, Nat.add_mul_div_left _ _ hp, Nat.div_eq_of_lt hr, Nat.zero_add]
    · rw [e, Nat.add_mul_mod_self_left, Nat.mod_eq_of_lt hr]
  by_cases h1 : n < P
  · obtain ⟨a, b⟩ := key 0 n h1 (by omega)
    have hd : d = 0 := by omega
    rw [a, b, hd]
    simp
  · by_cases h2 : n < 2 * P
    · obtain ⟨a, b⟩ := key 1 (n - P) (by omega) (by omega)
      rw [a, b, if_neg (by omega), Nat.add_sub_cancel]
      congr 1
      omega
    · obtain ⟨a, b⟩ := key 2 0 hp (by omega)
      rw [a, b, if_neg (by omega)]
      have : n = 2 * P := by omega
      rw [this, show d + 2 - 1 = d + 1 by omega, pow_succ]
      ring

/-- A magnitude's units are a multiple of 2^d, or lie below the least significand at that step. -/
theorem fpUnits_multiple (f : FpFormat) (mag d : Nat) :
    (∃ k, fpUnits f mag = k * 2 ^ d) ∨ fpUnits f mag < 2 ^ fpFracBits f * 2 ^ d := by
  unfold fpUnits
  have hp : 0 < 2 ^ fpFracBits f := Nat.two_pow_pos _
  generalize 2 ^ fpFracBits f = P at *
  have hm := Nat.mod_lt mag hp
  have hd : 1 ≤ 2 ^ d := Nat.one_le_two_pow
  split
  · exact .inr (lt_of_lt_of_le hm (Nat.le_mul_of_pos_right _ hd))
  · next h0 =>
    by_cases h : d ≤ mag / P - 1
    · refine .inl ⟨(P + mag % P) * 2 ^ (mag / P - 1 - d), ?_⟩
      rw [Nat.mul_assoc, ← pow_add]
      congr 2
      omega
    · right
      generalize mag / P = q at *
      have h2 : 2 ^ q ≤ 2 ^ d := Nat.pow_le_pow_right (by decide) (by omega)
      have h3 : 2 ^ (q) = 2 ^ (q - 1) * 2 := by rw [← pow_succ]; congr 1; omega
      have h4 : (P + mag % P) * 2 ^ (q - 1) < (P + P) * 2 ^ (q - 1) :=
        Nat.mul_lt_mul_of_pos_right (by omega) (Nat.two_pow_pos _)
      calc _ < (P + P) * 2 ^ (q - 1) := h4
        _ = P * 2 ^ (q) := by rw [h3]; ring
        _ ≤ _ := Nat.mul_le_mul_left _ h2

/-! ### Rounding (R163, R164, R166). `X` is an exact value in units of 2^fpMinExp, `2^d` a step in those
units, and `n * 2^d` the multiple of the step to which X is rounded. -/

section Rounding

variable {K : Type*} [Field K] [LinearOrder K] [IsStrictOrderedRing K]

/-- n steps are a rounding of X to nearest, ties to even. -/
def RoundsTo (X : K) (d n : Nat) : Prop :=
  2 * |(n : K) * 2 ^ d - X| ≤ 2 ^ d ∧ (2 * |(n : K) * 2 ^ d - X| = 2 ^ d → n % 2 = 0)

/-- Another multiple of the step is no nearer, and as near only where n is even. -/
theorem RoundsTo.multiple {X : K} {d n : Nat} (h : RoundsTo X d n) (k : Nat) :
    |(n : K) * 2 ^ d - X| ≤ |(k : K) * 2 ^ d - X| ∧
      (|(n : K) * 2 ^ d - X| = |(k : K) * 2 ^ d - X| → k ≠ n → n % 2 = 0) := by
  by_cases hk : k = n
  · subst hk
    exact ⟨le_refl _, fun _ hne => absurd rfl hne⟩
  · have hs : (0 : K) < 2 ^ d := by positivity
    have h1 : (1 : K) ≤ |(k : K) - n| := by
      rcases Nat.lt_or_gt_of_ne hk with hlt | hgt
      · rw [abs_sub_comm, abs_of_nonneg]
        · have : (k : K) + 1 ≤ n := by exact_mod_cast hlt
          linarith
        · have : (k : K) ≤ n := by exact_mod_cast hlt.le
          linarith
      · rw [abs_of_nonneg]
        · have : (n : K) + 1 ≤ k := by exact_mod_cast hgt
          linarith
        · have : (n : K) ≤ k := by exact_mod_cast hgt.le
          linarith
    have h2 : (2 : K) ^ d ≤ |(k : K) * 2 ^ d - (n : K) * 2 ^ d| := by
      rw [← sub_mul, abs_mul, abs_of_pos hs]
      exact le_mul_of_one_le_left hs.le h1
    have h3 := abs_sub_le ((k : K) * 2 ^ d) X ((n : K) * 2 ^ d)
    rw [abs_sub_comm X] at h3
    refine ⟨by linarith [h.1], fun he _ => h.2 (le_antisymm h.1 (by linarith))⟩

/-- No magnitude is nearer to X than the rounding, and one of another value is as near only where n is
even. -/
theorem RoundsTo.nearest {X : K} {d n : Nat} (f : FpFormat) (h : RoundsTo X d n)
    (hlo : d = 0 ∨ (2 : K) ^ fpFracBits f * 2 ^ d ≤ X) (mag : Nat) :
    |(n : K) * 2 ^ d - X| ≤ |(fpUnits f mag : K) - X| ∧
      (|(n : K) * 2 ^ d - X| = |(fpUnits f mag : K) - X| → fpUnits f mag ≠ n * 2 ^ d →
        n % 2 = 0) := by
  rcases fpUnits_multiple f mag d with ⟨k, hk⟩ | hlt
  · have := h.multiple k
    rw [hk]
    push_cast
    exact ⟨this.1, fun he hne => this.2 he fun e => hne (by rw [e])⟩
  · rcases hlo with h0 | hlo
    · subst h0
      have := h.multiple (fpUnits f mag)
      simp only [pow_zero, mul_one] at this ⊢
      exact this
    · have hb := (h.multiple (2 ^ fpFracBits f)).1
      have hlt' : (fpUnits f mag : K) < 2 ^ fpFracBits f * 2 ^ d := by exact_mod_cast hlt
      push_cast at hb
      rw [abs_of_nonpos (by linarith : (2 : K) ^ fpFracBits f * 2 ^ d - X ≤ 0)] at hb
      rw [abs_of_nonpos (by linarith : (fpUnits f mag : K) - X ≤ 0)]
      exact ⟨by linarith, fun he => absurd he (by linarith)⟩

/-- The rounding of a value between the least significand and twice it lies there too. -/
theorem RoundsTo.bounds {X : K} {d n : Nat} {P : Nat} (h : RoundsTo X d n)
    (hlo : d = 0 ∨ (P : K) * 2 ^ d ≤ X) (hhi : X < 2 * P * 2 ^ d) :
    (d = 0 ∨ P ≤ n) ∧ n ≤ 2 * P := by
  have hs : (0 : K) < 2 ^ d := by positivity
  have habs := abs_le.mp (show |(n : K) * 2 ^ d - X| ≤ 2 ^ d / 2 by linarith [h.1])
  constructor
  · rcases hlo with h0 | hlo
    · exact .inl h0
    · right
      by_contra hc
      have : (n : K) + 1 ≤ P := by exact_mod_cast (by omega : n + 1 ≤ P)
      have := mul_le_mul_of_nonneg_right this hs.le
      linarith
  · by_contra hc
    have : 2 * (P : K) + 1 ≤ n := by exact_mod_cast (by omega : 2 * P + 1 ≤ n)
    have := mul_le_mul_of_nonneg_right this hs.le
    linarith

/-- An integer shifted right rounds to nearest, ties to even. -/
theorem roundShift_exact (m k : Nat) : RoundsTo (m : K) k (roundShift m k) := by
  have hp : 0 < 2 ^ k := Nat.two_pow_pos _
  have hd := Nat.div_add_mod m (2 ^ k)
  have hm := Nat.mod_lt m hp
  unfold roundShift RoundsTo
  have hK : (m : K) = 2 ^ k * ((m / 2 ^ k : Nat) : K) + ((m % 2 ^ k : Nat) : K) := by exact_mod_cast hd.symm
  have hmK : ((m % 2 ^ k : Nat) : K) < 2 ^ k := by exact_mod_cast hm
  have h0 : (0 : K) ≤ ((m % 2 ^ k : Nat) : K) := Nat.cast_nonneg _
  simp only [Bool.or_eq_true, decide_eq_true_eq, Bool.and_eq_true, beq_iff_eq]
  generalize m / 2 ^ k = q at *
  generalize m % 2 ^ k = r at *
  split
  · next hc =>
    have hc' : (2 : K) ^ k ≤ 2 * r := by
      have : 2 ^ k ≤ 2 * r := by omega
      exact_mod_cast this
    push_cast
    rw [abs_of_nonneg (by rw [hK]; nlinarith)]
    refine ⟨by rw [hK]; nlinarith, fun he => ?_⟩
    have : (2 : K) * r = 2 ^ k := by rw [hK] at he; nlinarith
    have : 2 * r = 2 ^ k := by exact_mod_cast this
    omega
  · next hc =>
    have hc' : 2 * (r : K) ≤ 2 ^ k := by
      have : 2 * r ≤ 2 ^ k := by omega
      exact_mod_cast this
    rw [abs_of_nonpos (by rw [hK]; nlinarith)]
    refine ⟨by rw [hK]; nlinarith, fun he => ?_⟩
    have : (2 : K) * r = 2 ^ k := by rw [hK] at he; nlinarith
    have : 2 * r = 2 ^ k := by exact_mod_cast this
    omega

/-- An odd integer stands, under a shift of two or more, for any value less than 1 away from it: a
sticky bit loses nothing. -/
theorem roundShift_sticky {m k : Nat} {x : K} (hk : 2 ≤ k) (ho : m % 2 = 1)
    (h1 : (m : K) - 1 < x) (h2 : x < m + 1) : RoundsTo x k (roundShift m k) := by
  obtain ⟨j, rfl⟩ : ∃ j, k = j + 2 := ⟨k - 2, by omega⟩
  have hj : 0 < 2 ^ j := Nat.two_pow_pos _
  have hpow : 2 ^ (j + 2) = 4 * 2 ^ j := by rw [pow_add]; ring
  have hp : 0 < 2 ^ (j + 2) := Nat.two_pow_pos _
  have hd := Nat.div_add_mod m (2 ^ (j + 2))
  have hm := Nat.mod_lt m hp
  have hr : m % 2 ^ (j + 2) % 2 = 1 := by
    rw [Nat.mod_mod_of_dvd _ (Dvd.intro_left (2 ^ (j + 1)) (by rw [← pow_succ])), ho]
  unfold roundShift RoundsTo
  have hK : (m : K) = 2 ^ (j + 2) * ((m / 2 ^ (j + 2) : Nat) : K) + ((m % 2 ^ (j + 2) : Nat) : K) := by
    exact_mod_cast hd.symm
  have hpK : (2 : K) ^ (j + 2) = 4 * 2 ^ j := by rw [pow_add]; ring
  have hjK : (0 : K) < 2 ^ j := by positivity
  simp only [Bool.or_eq_true, decide_eq_true_eq, Bool.and_eq_true, beq_iff_eq]
  generalize m / 2 ^ (j + 2) = q at *
  generalize m % 2 ^ (j + 2) = r at *
  rw [hpow] at hm
  split
  · next hc =>
    rw [hpow] at hc
    have hc' : (2 : K) * 2 ^ j + 1 ≤ r := by
      have : 2 * 2 ^ j + 1 ≤ r := by omega
      exact_mod_cast this
    have hm' : (r : K) + 1 ≤ 4 * 2 ^ j := by exact_mod_cast hm
    push_cast
    rw [hpK] at hK ⊢
    rw [abs_of_nonneg (by nlinarith)]
    exact ⟨by nlinarith, fun he => absurd he (by nlinarith)⟩
  · next hc =>
    rw [hpow] at hc
    have hc' : (r : K) + 1 ≤ 2 * 2 ^ j := by
      have : r + 1 ≤ 2 * 2 ^ j := by omega
      exact_mod_cast this
    have hr1 : (1 : K) ≤ r := by
      have : 1 ≤ r := by omega
      exact_mod_cast this
    rw [hpK] at hK ⊢
    rw [abs_of_nonpos (by nlinarith)]
    exact ⟨by nlinarith, fun he => absurd he (by nlinarith)⟩

/-- Rounding keeps when the value and the step are scaled alike. -/
theorem RoundsTo.scale {x s : K} {k d n : Nat} (h : RoundsTo x k n) (hs : 0 < s)
    (hd : (2 : K) ^ d = 2 ^ k * s) : RoundsTo (x * s) d n := by
  have e : (n : K) * 2 ^ d - x * s = ((n : K) * 2 ^ k - x) * s := by rw [hd]; ring
  unfold RoundsTo
  rw [e, abs_mul, abs_of_pos hs, hd]
  refine ⟨?_, fun he => h.2 ?_⟩
  · have := mul_le_mul_of_nonneg_right h.1 hs.le
    linarith
  · apply mul_right_cancel₀ hs.ne'
    linarith

/-- What `fpRound` answers for a value x * 2^e, where the integer m is x itself or, with room for two
bits to be dropped, stands for it with a sticky bit: the magnitude made of the step d and the rounding n
of x * 2^e to that step, or infinity where that magnitude reaches it. -/
theorem fpRound_spec (f : FpFormat) (neg : Bool) {m : Nat} (e : Int) {x : K} (hm : m ≠ 0)
    (hx : x = m ∨ (m % 2 = 1 ∧ fpFracBits f + 2 ≤ Nat.log2 m ∧ (m : K) - 1 < x ∧ x < m + 1)) :
    ∃ d n, fpRound f neg m e =
        fpPattern f neg (min (d * 2 ^ fpFracBits f + n) (fpInfMagnitude f)) ∧
      RoundsTo (x * 2 ^ (e - fpMinExp f)) d n ∧
      (d = 0 ∨ (2 : K) ^ fpFracBits f * 2 ^ d ≤ x * 2 ^ (e - fpMinExp f)) ∧
      x * 2 ^ (e - fpMinExp f) < 2 * (2 : K) ^ fpFracBits f * 2 ^ d := by
  have hl := Nat.log2_self_le hm
  have hu : m < 2 ^ (Nat.log2 m + 1) := Nat.lt_log2_self
  have two : (2 : K) ≠ 0 := two_ne_zero
  have hlx : (2 : K) ^ Nat.log2 m ≤ x := by
    rcases hx with rfl | ⟨ho, hb, h1, -⟩
    · exact_mod_cast hl
    · have he : 2 ^ Nat.log2 m % 2 = 0 := by
        obtain ⟨j, hj⟩ : ∃ j, Nat.log2 m = j + 1 := ⟨Nat.log2 m - 1, by omega⟩
        rw [hj, pow_succ, Nat.mul_mod_left]
      have : 2 ^ Nat.log2 m + 1 ≤ m := by omega
      have : (2 : K) ^ Nat.log2 m + 1 ≤ m := by exact_mod_cast this
      linarith
  have hux : x < 2 * (2 : K) ^ Nat.log2 m := by
    rw [pow_succ'] at hu
    rcases hx with rfl | ⟨-, -, -, h2⟩
    · exact_mod_cast hu
    · have : (m : K) + 1 ≤ 2 * 2 ^ Nat.log2 m := by exact_mod_cast hu
      linarith
  have hs : (0 : K) < 2 ^ (e - fpMinExp f) := by positivity
  have hq1 : e + Nat.log2 m - fpFracBits f ≤ fpQuantum f m e := le_max_left _ _
  have hq2 : fpMinExp f ≤ fpQuantum f m e := le_max_right _ _
  have hq3 : fpQuantum f m e = e + Nat.log2 m - fpFracBits f ∨ fpQuantum f m e = fpMinExp f :=
    max_choice _ _
  have hpow : ∀ (a : Nat) (b : Int), (2 : K) ^ a * 2 ^ b = 2 ^ ((a : Int) + b) := fun a b => by
    rw [zpow_add₀ two, zpow_natCast]
  refine ⟨(fpQuantum f m e - fpMinExp f).toNat, roundTo m e (fpQuantum f m e), ?_, ?_, ?_, ?_⟩
  · unfold fpRound
    rw [if_neg hm]
  · unfold roundTo
    split
    · next hqe =>
      obtain rfl : x = m := by
        rcases hx with h | ⟨-, hb, -, -⟩
        · exact h
        · omega
      have hz : ((m * 2 ^ (e - fpQuantum f m e).toNat : Nat) : K) *
          2 ^ (fpQuantum f m e - fpMinExp f).toNat - m * 2 ^ (e - fpMinExp f) = 0 := by
        push_cast
        rw [mul_assoc, ← pow_add, ← zpow_natCast, ← mul_sub]
        rw [show (((e - fpQuantum f m e).toNat + (fpQuantum f m e - fpMinExp f).toNat : Nat) : Int) =
          e - fpMinExp f by omega, sub_self, mul_zero]
      unfold RoundsTo
      rw [hz, abs_zero, mul_zero]
      exact ⟨by positivity, fun h => absurd h (by positivity)⟩
    · next hqe =>
      have hk : RoundsTo x (fpQuantum f m e - e).toNat (roundShift m (fpQuantum f m e - e).toNat) := by
        rcases hx with rfl | ⟨ho, hb, h1, h2⟩
        · exact roundShift_exact _ _
        · exact roundShift_sticky (by omega) ho h1 h2
      refine hk.scale hs ?_
      rw [hpow, ← zpow_natCast]
      congr 1
      omega
  · by_cases h0 : fpQuantum f m e = fpMinExp f
    · left; omega
    · right
      have h1 : fpQuantum f m e = e + Nat.log2 m - fpFracBits f := by omega
      have := mul_le_mul_of_nonneg_right hlx hs.le
      refine le_trans (le_of_eq ?_) this
      rw [hpow, ← pow_add, ← zpow_natCast]
      congr 1
      omega
  · have := mul_lt_mul_of_pos_right hux hs
    refine lt_of_lt_of_le this ?_
    rw [mul_assoc, mul_assoc, hpow, ← pow_add, ← zpow_natCast]
    refine mul_le_mul_of_nonneg_left ?_ (by norm_num)
    refine zpow_le_zpow_right₀ (by norm_num) ?_
    omega

/-- A magnitude to which no magnitude is nearer, and to which one of another value is as near only where
it is even. -/
def NearestMagnitude (f : FpFormat) (X : K) (g : Nat) : Prop :=
  ∀ mag, |(fpUnits f g : K) - X| ≤ |(fpUnits f mag : K) - X| ∧
    (|(fpUnits f g : K) - X| = |(fpUnits f mag : K) - X| → fpUnits f mag ≠ fpUnits f g → g % 2 = 0)

/-- `fpRound` answers the nearest magnitude of all, infinity where that is infinity or more (R163, R164,
R166). `x` and `m` are as for `fpRound_spec`. -/
theorem fpRound_nearest (f : FpFormat) (neg : Bool) {m : Nat} (e : Int) {x : K} (hm : m ≠ 0)
    (hx : x = m ∨ (m % 2 = 1 ∧ fpFracBits f + 2 ≤ Nat.log2 m ∧ (m : K) - 1 < x ∧ x < m + 1)) :
    ∃ g, fpRound f neg m e = fpPattern f neg (min g (fpInfMagnitude f)) ∧
      NearestMagnitude f (x * 2 ^ (e - fpMinExp f)) g := by
  obtain ⟨d, n, he, hr, hlo, hhi⟩ := fpRound_spec f neg e hm hx
  refine ⟨_, he, fun mag => ?_⟩
  obtain ⟨b1, b2⟩ := hr.bounds (P := 2 ^ fpFracBits f) (by push_cast; exact hlo)
    (by push_cast; exact hhi)
  have hpar : (d * 2 ^ fpFracBits f + n) % 2 = n % 2 := by
    have : 2 ^ fpFracBits f % 2 = 0 := by cases f <;> rfl
    rw [Nat.add_mod, Nat.mul_mod, this, Nat.mul_zero, Nat.zero_mod, Nat.zero_add, Nat.mod_mod]
  have h := hr.nearest f hlo mag
  rw [fpUnits_build f b1 b2, hpar]
  push_cast
  exact h

/-- The nearest magnitude is infinity or more exactly from half a unit in the last place above the
largest finite value on (R166). -/
theorem NearestMagnitude.overflow {f : FpFormat} {X : K} {g : Nat} (h : NearestMagnitude f X g) :
    fpInfMagnitude f ≤ g ↔
      (fpUnits f (fpInfMagnitude f - 1) : K) + fpUnits f (fpInfMagnitude f) ≤ 2 * X := by
  have hodd : (fpInfMagnitude f - 1) % 2 = 1 := by cases f <;> rfl
  have hpos : 0 < fpInfMagnitude f := by cases f <;> decide
  have mono := (fpUnits_strictMono f).monotone
  have hlt : (fpUnits f (fpInfMagnitude f - 1) : K) < fpUnits f (fpInfMagnitude f) := by
    exact_mod_cast fpUnits_strictMono f (by omega : fpInfMagnitude f - 1 < fpInfMagnitude f)
  constructor
  · intro hg
    have hge : (fpUnits f (fpInfMagnitude f) : K) ≤ fpUnits f g := by exact_mod_cast mono hg
    by_contra hc
    have h1 := (h (fpInfMagnitude f - 1)).1
    rw [abs_of_nonneg (by linarith)] at h1
    rcases abs_cases ((fpUnits f (fpInfMagnitude f - 1) : K) - X) with ⟨e, -⟩ | ⟨e, -⟩ <;>
      rw [e] at h1 <;> linarith
  · intro hX
    by_contra hc
    have hle : (fpUnits f g : K) ≤ fpUnits f (fpInfMagnitude f - 1) := by
      exact_mod_cast mono (by omega : g ≤ fpInfMagnitude f - 1)
    obtain ⟨h1, h2⟩ := h (fpInfMagnitude f)
    rw [abs_of_nonpos (by linarith : (fpUnits f g : K) - X ≤ 0)] at h1 h2
    have hne : fpUnits f (fpInfMagnitude f) ≠ fpUnits f g := fun e => by
      rw [e] at hlt
      linarith
    rcases abs_cases ((fpUnits f (fpInfMagnitude f) : K) - X) with ⟨e, -⟩ | ⟨e, -⟩
    · rw [e] at h1 h2
      have heq : (fpUnits f g : K) = fpUnits f (fpInfMagnitude f - 1) := by linarith
      have hg : g = fpInfMagnitude f - 1 :=
        (fpUnits_strictMono f).injective (by exact_mod_cast heq)
      have := h2 (by linarith) hne
      omega
    · rw [e] at h1
      linarith

/-- A quotient with a sticky bit stands for twice the exact quotient. -/
theorem withSticky_div {a b : Nat} (hb : b ≠ 0) (p : Nat) (h : 2 ^ (p + 2) ≤ 2 * (a / b)) :
    (2 * ((a : K) / b) = (withSticky (a / b) (a % b != 0) : Nat)) ∨
      (withSticky (a / b) (a % b != 0) % 2 = 1 ∧
        p + 2 ≤ Nat.log2 (withSticky (a / b) (a % b != 0)) ∧
        ((withSticky (a / b) (a % b != 0) : Nat) : K) - 1 < 2 * ((a : K) / b) ∧
        2 * ((a : K) / b) < (withSticky (a / b) (a % b != 0) : Nat) + 1) := by
  have hbK : (0 : K) < b := by exact_mod_cast Nat.pos_of_ne_zero hb
  have hd := Nat.div_add_mod a b
  have hm := Nat.mod_lt a (Nat.pos_of_ne_zero hb)
  have ha : (a : K) / b = ((a / b : Nat) : K) + ((a % b : Nat) : K) / b := by
    have : (a : K) = b * ((a / b : Nat) : K) + ((a % b : Nat) : K) := by exact_mod_cast hd.symm
    rw [this]
    field_simp
  by_cases hr : a % b = 0
  · left
    rw [ha, hr]
    simp [withSticky]
  · right
    have hs : withSticky (a / b) (a % b != 0) = 2 * (a / b) + 1 := by simp [withSticky, hr]
    rw [hs]
    have hr0 : (0 : K) < ((a % b : Nat) : K) / b := by
      have : (0 : K) < ((a % b : Nat) : K) := by exact_mod_cast Nat.pos_of_ne_zero hr
      positivity
    have hr1 : ((a % b : Nat) : K) / b < 1 := by
      rw [div_lt_one hbK]
      exact_mod_cast hm
    refine ⟨by omega, ?_, ?_, ?_⟩
    · rw [Nat.le_log2 (by omega)]
      omega
    · push_cast
      rw [ha]
      linarith
    · push_cast
      rw [ha]
      linarith

end Rounding

/-! ### The integer square root -/

theorem isqrtFrom_spec (k n r : Nat) (h1 : r * r ≤ n) (h2 : n < (r + 2 ^ k) * (r + 2 ^ k)) :
    isqrtFrom k n r * isqrtFrom k n r ≤ n ∧
      n < (isqrtFrom k n r + 1) * (isqrtFrom k n r + 1) := by
  induction k generalizing r with
  | zero => exact ⟨h1, by simpa [isqrtFrom] using h2⟩
  | succ k ih =>
    simp only [isqrtFrom]
    split
    · next h =>
      refine ih _ h ?_
      rw [pow_succ] at h2
      rw [show r + 2 ^ k + 2 ^ k = r + 2 ^ k * 2 by ring]
      exact h2
    · next h => exact ih _ h1 (by omega)

/-- The integer square root is the greatest number whose square is not above n. -/
theorem isqrt_spec (n : Nat) : isqrt n * isqrt n ≤ n ∧ n < (isqrt n + 1) * (isqrt n + 1) := by
  apply isqrtFrom_spec
  · simp
  · rw [Nat.zero_add, ← pow_add]
    refine lt_of_lt_of_le Nat.lt_log2_self (Nat.pow_le_pow_right (by decide) ?_)
    omega

end Sys2Proof.Machine
end

