-- ==== Sys2Proof/Laws/Ops.lean ====
section
/-! SUPPORT. Ops.lean: everything each shared operation can do, said once. -/

namespace Sys2Proof.Machine

/-- A value read at a size is already masked to it. -/
theorem mask_wordOfBytesLE (m : Memory) (a : Nat) (z : Size) :
    mask (wordOfBytesLE (m.readBytes a z.bytes)) z = wordOfBytesLE (m.readBytes a z.bytes) := by
  have h := natOfBytesLE_lt (m.readBytes a z.bytes)
  rw [Memory.readBytes_length] at h
  apply mask_ofNat
  have : (256 : Nat) ^ z.bytes = 2 ^ z.bits := by cases z <;> rfl
  omega

/-- Everything a load can do (42_memory_access.md R191, R193). -/
theorem loadInto_cases (z : Size) (rd : Reg) (a : Word) (s : State) :
    (a.toNat + z.bytes ≤ s.cfg.memSize ∧
      loadInto z rd a s =
        .next (s.setX rd (wordOfBytesLE (s.mem.readBytes a.toNat z.bytes)))) ∨
    (s.cfg.memSize < a.toNat + z.bytes ∧ loadInto z rd a s = .next (s.raise .addressError a)) := by
  rcases s.memRead_cases a z with ⟨h, e⟩ | ⟨h, e⟩
  · refine .inl ⟨h, ?_⟩
    simp only [loadInto, e, State.writeReg_eq, mask_wordOfBytesLE]
  · refine .inr ⟨h, ?_⟩
    simp only [loadInto, e]

theorem uval_mask (v : Word) (z : Size) : uval (mask v z) z = uval v z := by
  simp only [uval, mask_toNat, Nat.mod_mod]

/-- Everything a store can do (R192, R194). -/
theorem storeFrom_cases (z : Size) (rd : Reg) (a : Word) (s : State) :
    (a.toNat + z.bytes ≤ s.cfg.memSize ∧
      storeFrom z rd a s =
        .next { s with mem := s.mem.writeBytes a.toNat (bytesLE z.bytes (uval (s.x rd) z)) }) ∨
    (s.cfg.memSize < a.toNat + z.bytes ∧ storeFrom z rd a s = .next (s.raise .addressError a)) := by
  rcases s.memWrite_cases a z (s.readReg rd z) with ⟨h, e⟩ | ⟨h, e⟩
  · refine .inl ⟨h, ?_⟩
    simp only [storeFrom, e]
    simp only [State.readReg, uval_mask]
  · refine .inr ⟨h, ?_⟩
    simp only [storeFrom, e]

/-- Everything a push can do (43_control_stack.md R221, R222). -/
theorem pushThen_cases (z : Size) (v : Word) (s : State) (rest : State → State) :
    ((s.x 15).toNat + z.bytes ≤ s.cfg.memSize ∧
      pushThen z v s rest =
        .next (rest (State.setX
          { s with mem := s.mem.writeBytes (s.x 15).toNat (bytesLE z.bytes (uval v z)) } 15
          (s.x 15 + BitVec.ofNat 64 z.bytes)))) ∨
    (s.cfg.memSize < (s.x 15).toNat + z.bytes ∧
      pushThen z v s rest = .next (s.raise .stackOverflow (s.x 15))) := by
  rcases s.memWrite_cases (s.x 15) z v with ⟨h, e⟩ | ⟨h, e⟩
  · refine .inl ⟨h, ?_⟩
    have ho : s.pushOverflows z.bytes = false := decide_eq_false (Nat.not_lt.mpr h)
    simp only [pushThen, ho, State.pushAddress, State.sp_eq, e, State.setSp_eq]
    rfl
  · refine .inr ⟨h, ?_⟩
    have ho : s.pushOverflows z.bytes = true := decide_eq_true h
    simp only [pushThen, ho, State.sp_eq, if_true]

/-- Everything a pop can do (R221, R223). -/
theorem popThen_cases (z : Size) (s : State) (rest : Word → State → State) :
    (s.cfg.stackFloor + z.bytes ≤ (s.x 15).toNat ∧ (s.x 15).toNat ≤ s.cfg.memSize ∧
      popThen z s rest =
        .next (rest (wordOfBytesLE (s.mem.readBytes ((s.x 15).toNat - z.bytes) z.bytes))
          (s.setX 15 (s.x 15 - BitVec.ofNat 64 z.bytes)))) ∨
    (s.cfg.stackFloor + z.bytes ≤ (s.x 15).toNat ∧ s.cfg.memSize < (s.x 15).toNat ∧
      popThen z s rest =
        .next (s.raise .addressError (s.x 15 - BitVec.ofNat 64 z.bytes))) ∨
    ((s.x 15).toNat < s.cfg.stackFloor + z.bytes ∧
      popThen z s rest = .next (s.raise .stackUnderflow (s.x 15))) := by
  by_cases hu : (s.x 15).toNat < s.cfg.stackFloor + z.bytes
  · refine .inr (.inr ⟨hu, ?_⟩)
    have ho : s.popUnderflows z.bytes = true := decide_eq_true hu
    simp only [popThen, ho, State.sp_eq, if_true]
  · have ho : s.popUnderflows z.bytes = false := decide_eq_false hu
    have hz : z.bytes ≤ 8 := by cases z <;> decide
    have hb := (s.x 15).isLt
    have hsub : (s.x 15 - BitVec.ofNat 64 z.bytes).toNat = (s.x 15).toNat - z.bytes := by
      rw [BitVec.toNat_sub, BitVec.toNat_ofNat]; omega
    rcases s.memRead_cases (s.x 15 - BitVec.ofNat 64 z.bytes) z with ⟨h, e⟩ | ⟨h, e⟩
    · refine .inl ⟨by omega, by omega, ?_⟩
      rw [hsub] at e
      simp only [popThen, ho, State.popAddress, State.sp_eq, State.setSp_eq, e]
      rfl
    · refine .inr (.inl ⟨by omega, by omega, ?_⟩)
      simp only [popThen, ho, State.popAddress, State.sp_eq, e]
      rfl

/-- Everything SVIO's write can do (44_io.md R241). -/
theorem State.ioWrite_cases (s : State) (a v : Word) :
    (∃ d, deviceAt s.io a = some d ∧ d.canWrite = true ∧
      s.ioWrite a v =
        State.logCall { s with io := setDeviceAt s.io a (d.write v) } (.write a v)) ∨
    s.ioWrite a v = s.warn .unmappedIoWrite := by
  unfold State.ioWrite
  cases h : deviceAt s.io a with
  | none => exact .inr rfl
  | some d =>
    cases hd : d.canWrite with
    | true => exact .inl ⟨d, rfl, hd, by simp only [hd, if_true]⟩
    | false => exact .inr (by simp [hd])

/-- Everything LOADIO's read does to the state (R242, R246). -/
theorem State.ioReadEffect_cases (s : State) (a : Word) :
    (∃ d, deviceAt s.io a = some d ∧ d.canRead = true ∧
      s.ioReadEffect a =
        State.logCall
          { s with io := setDeviceAt s.io a d.afterRead, draws := s.draws + d.drawsOnRead }
          (.read a (d.answer s.draws))) ∨
    s.ioReadEffect a = s.warn .unmappedIoRead := by
  unfold State.ioReadEffect
  cases h : deviceAt s.io a with
  | none => exact .inr rfl
  | some d =>
    cases hd : d.canRead with
    | true => exact .inl ⟨d, rfl, hd, by simp only [hd, if_true]⟩
    | false => exact .inr (by simp [hd])

/-- Everything SHOWIO can do (R243). -/
theorem State.ioShow_cases (s : State) (a : Word) :
    s.ioShow a = s.logCall (.shown a) ∨ s.ioShow a = s.warn .unmappedIoShow := by
  unfold State.ioShow
  cases h : deviceAt s.io a with
  | none => exact .inr rfl
  | some d =>
    cases hd : d.canShow with
    | true => exact .inl (by simp [hd])
    | false => exact .inr (by simp [hd])

/-- A device's new state does not change which addresses have a device (R240). -/
theorem setDeviceAt_addresses (io : List (Word × Device)) (a : Word) (d : Device) :
    (setDeviceAt io a d).map Prod.fst = io.map Prod.fst := by
  induction io with
  | nil => rfl
  | cons c io ih =>
    obtain ⟨k, e⟩ := c
    simp only [setDeviceAt]
    split
    · rfl
    · simp [ih]

/-- A device that is registered is read back in its new state; the others are as they were (R240). -/
theorem deviceAt_setDeviceAt {io : List (Word × Device)} {a : Word} {d : Device}
    (h : deviceAt io a = some d) (d' : Device) (b : Word) :
    deviceAt (setDeviceAt io a d') b = if b = a then some d' else deviceAt io b := by
  induction io with
  | nil => simp [deviceAt] at h
  | cons c io ih =>
    obtain ⟨k, e⟩ := c
    simp only [setDeviceAt]
    by_cases hk : k = a
    · subst hk
      simp only [if_true, deviceAt, eq_comm]
      by_cases hb : b = k
      · simp [hb]
      · simp [hb]
    · simp only [deviceAt, if_neg hk] at h
      simp only [if_neg hk, deviceAt, ih h]
      by_cases hb : b = a
      · subst hb; simp [hk]
      · simp [hb]

end Sys2Proof.Machine
end

