-- ==== Sys2Proof/Laws/PerInstr.lean ====
section
/-! SUPPORT. PerInstr.lean: for every instruction and every opcode map that has it, the words it encodes to
are as many as the format of their opcode says (30_encoding.md R81, R86). -/

namespace Sys2Proof

/-- Under every complete map the first word's opcode is defined, and the encoding is as long as that
opcode's format (R86). -/
def Laws.EncodedLength.Statement (i : Instr) : Prop :=
  ∀ map : OpcodeMap, map.Complete → ∃ w rest f, encode map i = w :: rest ∧
    formatOf map (opcodeField w) = some f ∧ 8 * (encode map i).length = f.length

/-- The statement, from the words and the instruction's format. -/
theorem Laws.EncodedLength.of_words {i : Instr} {m : Mnemonic} {w : Opcode → Word} {rest : List Word}
    (hw : ∀ map, encode map i = w (numberIn map m) :: rest) (ho : ∀ op, opcodeField (w op) = op)
    (hl : 8 * (rest.length + 1) = m.builder.format.length) : Laws.EncodedLength.Statement i :=
  fun map hc => ⟨_, _, _, hw map, by rw [ho]; exact formatOf_of_lookup (hc m), by rw [hw]; exact hl⟩

theorem Laws.EncodedLength.parar :
    Laws.EncodedLength.Statement (.parar) :=
  Laws.EncodedLength.of_words (m := .parar) (w := wordOp) (fun _ => rfl) opcodeField_wordOp rfl

theorem Laws.EncodedLength.nop :
    Laws.EncodedLength.Statement (.nop) :=
  Laws.EncodedLength.of_words (m := .nop) (w := wordOp) (fun _ => rfl) opcodeField_wordOp rfl

theorem Laws.EncodedLength.ret :
    Laws.EncodedLength.Statement (.ret) :=
  Laws.EncodedLength.of_words (m := .ret) (w := wordOp) (fun _ => rfl) opcodeField_wordOp rfl

theorem Laws.EncodedLength.setz :
    Laws.EncodedLength.Statement (.setz) :=
  Laws.EncodedLength.of_words (m := .setz) (w := wordOp) (fun _ => rfl) opcodeField_wordOp rfl

theorem Laws.EncodedLength.clrz :
    Laws.EncodedLength.Statement (.clrz) :=
  Laws.EncodedLength.of_words (m := .clrz) (w := wordOp) (fun _ => rfl) opcodeField_wordOp rfl

theorem Laws.EncodedLength.setn :
    Laws.EncodedLength.Statement (.setn) :=
  Laws.EncodedLength.of_words (m := .setn) (w := wordOp) (fun _ => rfl) opcodeField_wordOp rfl

theorem Laws.EncodedLength.clrn :
    Laws.EncodedLength.Statement (.clrn) :=
  Laws.EncodedLength.of_words (m := .clrn) (w := wordOp) (fun _ => rfl) opcodeField_wordOp rfl

theorem Laws.EncodedLength.setc :
    Laws.EncodedLength.Statement (.setc) :=
  Laws.EncodedLength.of_words (m := .setc) (w := wordOp) (fun _ => rfl) opcodeField_wordOp rfl

theorem Laws.EncodedLength.clrc :
    Laws.EncodedLength.Statement (.clrc) :=
  Laws.EncodedLength.of_words (m := .clrc) (w := wordOp) (fun _ => rfl) opcodeField_wordOp rfl

theorem Laws.EncodedLength.setv :
    Laws.EncodedLength.Statement (.setv) :=
  Laws.EncodedLength.of_words (m := .setv) (w := wordOp) (fun _ => rfl) opcodeField_wordOp rfl

theorem Laws.EncodedLength.clrv :
    Laws.EncodedLength.Statement (.clrv) :=
  Laws.EncodedLength.of_words (m := .clrv) (w := wordOp) (fun _ => rfl) opcodeField_wordOp rfl

theorem Laws.EncodedLength.inc (rd : Reg) :
    Laws.EncodedLength.Statement (.inc rd) :=
  Laws.EncodedLength.of_words (m := .inc) (w := (wordR · rd)) (fun _ => rfl) (opcodeField_wordR · _) rfl

theorem Laws.EncodedLength.dec (rd : Reg) :
    Laws.EncodedLength.Statement (.dec rd) :=
  Laws.EncodedLength.of_words (m := .dec) (w := (wordR · rd)) (fun _ => rfl) (opcodeField_wordR · _) rfl

theorem Laws.EncodedLength.clear (rd : Reg) :
    Laws.EncodedLength.Statement (.clear rd) :=
  Laws.EncodedLength.of_words (m := .clear) (w := (wordR · rd)) (fun _ => rfl) (opcodeField_wordR · _) rfl

theorem Laws.EncodedLength.shl (rd : Reg) :
    Laws.EncodedLength.Statement (.shl rd) :=
  Laws.EncodedLength.of_words (m := .shl) (w := (wordR · rd)) (fun _ => rfl) (opcodeField_wordR · _) rfl

theorem Laws.EncodedLength.shr (rd : Reg) :
    Laws.EncodedLength.Statement (.shr rd) :=
  Laws.EncodedLength.of_words (m := .shr) (w := (wordR · rd)) (fun _ => rfl) (opcodeField_wordR · _) rfl

theorem Laws.EncodedLength.push1 (rd : Reg) :
    Laws.EncodedLength.Statement (.push1 rd) :=
  Laws.EncodedLength.of_words (m := .push1) (w := (wordR · rd)) (fun _ => rfl) (opcodeField_wordR · _) rfl

theorem Laws.EncodedLength.push2 (rd : Reg) :
    Laws.EncodedLength.Statement (.push2 rd) :=
  Laws.EncodedLength.of_words (m := .push2) (w := (wordR · rd)) (fun _ => rfl) (opcodeField_wordR · _) rfl

theorem Laws.EncodedLength.push4 (rd : Reg) :
    Laws.EncodedLength.Statement (.push4 rd) :=
  Laws.EncodedLength.of_words (m := .push4) (w := (wordR · rd)) (fun _ => rfl) (opcodeField_wordR · _) rfl

theorem Laws.EncodedLength.push8 (rd : Reg) :
    Laws.EncodedLength.Statement (.push8 rd) :=
  Laws.EncodedLength.of_words (m := .push8) (w := (wordR · rd)) (fun _ => rfl) (opcodeField_wordR · _) rfl

theorem Laws.EncodedLength.pop1 (rd : Reg) :
    Laws.EncodedLength.Statement (.pop1 rd) :=
  Laws.EncodedLength.of_words (m := .pop1) (w := (wordR · rd)) (fun _ => rfl) (opcodeField_wordR · _) rfl

theorem Laws.EncodedLength.pop2 (rd : Reg) :
    Laws.EncodedLength.Statement (.pop2 rd) :=
  Laws.EncodedLength.of_words (m := .pop2) (w := (wordR · rd)) (fun _ => rfl) (opcodeField_wordR · _) rfl

theorem Laws.EncodedLength.pop4 (rd : Reg) :
    Laws.EncodedLength.Statement (.pop4 rd) :=
  Laws.EncodedLength.of_words (m := .pop4) (w := (wordR · rd)) (fun _ => rfl) (opcodeField_wordR · _) rfl

theorem Laws.EncodedLength.pop8 (rd : Reg) :
    Laws.EncodedLength.Statement (.pop8 rd) :=
  Laws.EncodedLength.of_words (m := .pop8) (w := (wordR · rd)) (fun _ => rfl) (opcodeField_wordR · _) rfl

theorem Laws.EncodedLength.fsqrt4 (rd : Reg) :
    Laws.EncodedLength.Statement (.fsqrt4 rd) :=
  Laws.EncodedLength.of_words (m := .fsqrt4) (w := (wordR · rd)) (fun _ => rfl) (opcodeField_wordR · _) rfl

theorem Laws.EncodedLength.fsqrt8 (rd : Reg) :
    Laws.EncodedLength.Statement (.fsqrt8 rd) :=
  Laws.EncodedLength.of_words (m := .fsqrt8) (w := (wordR · rd)) (fun _ => rfl) (opcodeField_wordR · _) rfl

theorem Laws.EncodedLength.fsin4 (rd : Reg) :
    Laws.EncodedLength.Statement (.fsin4 rd) :=
  Laws.EncodedLength.of_words (m := .fsin4) (w := (wordR · rd)) (fun _ => rfl) (opcodeField_wordR · _) rfl

theorem Laws.EncodedLength.fsin8 (rd : Reg) :
    Laws.EncodedLength.Statement (.fsin8 rd) :=
  Laws.EncodedLength.of_words (m := .fsin8) (w := (wordR · rd)) (fun _ => rfl) (opcodeField_wordR · _) rfl

theorem Laws.EncodedLength.fcos4 (rd : Reg) :
    Laws.EncodedLength.Statement (.fcos4 rd) :=
  Laws.EncodedLength.of_words (m := .fcos4) (w := (wordR · rd)) (fun _ => rfl) (opcodeField_wordR · _) rfl

theorem Laws.EncodedLength.fcos8 (rd : Reg) :
    Laws.EncodedLength.Statement (.fcos8 rd) :=
  Laws.EncodedLength.of_words (m := .fcos8) (w := (wordR · rd)) (fun _ => rfl) (opcodeField_wordR · _) rfl

theorem Laws.EncodedLength.mov (rd : Reg) (rs : Reg) :
    Laws.EncodedLength.Statement (.mov rd rs) :=
  Laws.EncodedLength.of_words (m := .mov) (w := (wordRR · rd rs)) (fun _ => rfl) (opcodeField_wordRR · _ _) rfl

theorem Laws.EncodedLength.and (rd : Reg) (rs : Reg) :
    Laws.EncodedLength.Statement (.and rd rs) :=
  Laws.EncodedLength.of_words (m := .and) (w := (wordRR · rd rs)) (fun _ => rfl) (opcodeField_wordRR · _ _) rfl

theorem Laws.EncodedLength.or (rd : Reg) (rs : Reg) :
    Laws.EncodedLength.Statement (.or rd rs) :=
  Laws.EncodedLength.of_words (m := .or) (w := (wordRR · rd rs)) (fun _ => rfl) (opcodeField_wordRR · _ _) rfl

theorem Laws.EncodedLength.xor (rd : Reg) (rs : Reg) :
    Laws.EncodedLength.Statement (.xor rd rs) :=
  Laws.EncodedLength.of_words (m := .xor) (w := (wordRR · rd rs)) (fun _ => rfl) (opcodeField_wordRR · _ _) rfl

theorem Laws.EncodedLength.add1 (rd : Reg) (rs : Reg) :
    Laws.EncodedLength.Statement (.add1 rd rs) :=
  Laws.EncodedLength.of_words (m := .add1) (w := (wordRR · rd rs)) (fun _ => rfl) (opcodeField_wordRR · _ _) rfl

theorem Laws.EncodedLength.add2 (rd : Reg) (rs : Reg) :
    Laws.EncodedLength.Statement (.add2 rd rs) :=
  Laws.EncodedLength.of_words (m := .add2) (w := (wordRR · rd rs)) (fun _ => rfl) (opcodeField_wordRR · _ _) rfl

theorem Laws.EncodedLength.add4 (rd : Reg) (rs : Reg) :
    Laws.EncodedLength.Statement (.add4 rd rs) :=
  Laws.EncodedLength.of_words (m := .add4) (w := (wordRR · rd rs)) (fun _ => rfl) (opcodeField_wordRR · _ _) rfl

theorem Laws.EncodedLength.add8 (rd : Reg) (rs : Reg) :
    Laws.EncodedLength.Statement (.add8 rd rs) :=
  Laws.EncodedLength.of_words (m := .add8) (w := (wordRR · rd rs)) (fun _ => rfl) (opcodeField_wordRR · _ _) rfl

theorem Laws.EncodedLength.sub1 (rd : Reg) (rs : Reg) :
    Laws.EncodedLength.Statement (.sub1 rd rs) :=
  Laws.EncodedLength.of_words (m := .sub1) (w := (wordRR · rd rs)) (fun _ => rfl) (opcodeField_wordRR · _ _) rfl

theorem Laws.EncodedLength.sub2 (rd : Reg) (rs : Reg) :
    Laws.EncodedLength.Statement (.sub2 rd rs) :=
  Laws.EncodedLength.of_words (m := .sub2) (w := (wordRR · rd rs)) (fun _ => rfl) (opcodeField_wordRR · _ _) rfl

theorem Laws.EncodedLength.sub4 (rd : Reg) (rs : Reg) :
    Laws.EncodedLength.Statement (.sub4 rd rs) :=
  Laws.EncodedLength.of_words (m := .sub4) (w := (wordRR · rd rs)) (fun _ => rfl) (opcodeField_wordRR · _ _) rfl

theorem Laws.EncodedLength.sub8 (rd : Reg) (rs : Reg) :
    Laws.EncodedLength.Statement (.sub8 rd rs) :=
  Laws.EncodedLength.of_words (m := .sub8) (w := (wordRR · rd rs)) (fun _ => rfl) (opcodeField_wordRR · _ _) rfl

theorem Laws.EncodedLength.mul1 (rd : Reg) (rs : Reg) :
    Laws.EncodedLength.Statement (.mul1 rd rs) :=
  Laws.EncodedLength.of_words (m := .mul1) (w := (wordRR · rd rs)) (fun _ => rfl) (opcodeField_wordRR · _ _) rfl

theorem Laws.EncodedLength.mul2 (rd : Reg) (rs : Reg) :
    Laws.EncodedLength.Statement (.mul2 rd rs) :=
  Laws.EncodedLength.of_words (m := .mul2) (w := (wordRR · rd rs)) (fun _ => rfl) (opcodeField_wordRR · _ _) rfl

theorem Laws.EncodedLength.mul4 (rd : Reg) (rs : Reg) :
    Laws.EncodedLength.Statement (.mul4 rd rs) :=
  Laws.EncodedLength.of_words (m := .mul4) (w := (wordRR · rd rs)) (fun _ => rfl) (opcodeField_wordRR · _ _) rfl

theorem Laws.EncodedLength.mul8 (rd : Reg) (rs : Reg) :
    Laws.EncodedLength.Statement (.mul8 rd rs) :=
  Laws.EncodedLength.of_words (m := .mul8) (w := (wordRR · rd rs)) (fun _ => rfl) (opcodeField_wordRR · _ _) rfl

theorem Laws.EncodedLength.div1 (rd : Reg) (rs : Reg) :
    Laws.EncodedLength.Statement (.div1 rd rs) :=
  Laws.EncodedLength.of_words (m := .div1) (w := (wordRR · rd rs)) (fun _ => rfl) (opcodeField_wordRR · _ _) rfl

theorem Laws.EncodedLength.div2 (rd : Reg) (rs : Reg) :
    Laws.EncodedLength.Statement (.div2 rd rs) :=
  Laws.EncodedLength.of_words (m := .div2) (w := (wordRR · rd rs)) (fun _ => rfl) (opcodeField_wordRR · _ _) rfl

theorem Laws.EncodedLength.div4 (rd : Reg) (rs : Reg) :
    Laws.EncodedLength.Statement (.div4 rd rs) :=
  Laws.EncodedLength.of_words (m := .div4) (w := (wordRR · rd rs)) (fun _ => rfl) (opcodeField_wordRR · _ _) rfl

theorem Laws.EncodedLength.div8 (rd : Reg) (rs : Reg) :
    Laws.EncodedLength.Statement (.div8 rd rs) :=
  Laws.EncodedLength.of_words (m := .div8) (w := (wordRR · rd rs)) (fun _ => rfl) (opcodeField_wordRR · _ _) rfl

theorem Laws.EncodedLength.divu1 (rd : Reg) (rs : Reg) :
    Laws.EncodedLength.Statement (.divu1 rd rs) :=
  Laws.EncodedLength.of_words (m := .divu1) (w := (wordRR · rd rs)) (fun _ => rfl) (opcodeField_wordRR · _ _) rfl

theorem Laws.EncodedLength.divu2 (rd : Reg) (rs : Reg) :
    Laws.EncodedLength.Statement (.divu2 rd rs) :=
  Laws.EncodedLength.of_words (m := .divu2) (w := (wordRR · rd rs)) (fun _ => rfl) (opcodeField_wordRR · _ _) rfl

theorem Laws.EncodedLength.divu4 (rd : Reg) (rs : Reg) :
    Laws.EncodedLength.Statement (.divu4 rd rs) :=
  Laws.EncodedLength.of_words (m := .divu4) (w := (wordRR · rd rs)) (fun _ => rfl) (opcodeField_wordRR · _ _) rfl

theorem Laws.EncodedLength.divu8 (rd : Reg) (rs : Reg) :
    Laws.EncodedLength.Statement (.divu8 rd rs) :=
  Laws.EncodedLength.of_words (m := .divu8) (w := (wordRR · rd rs)) (fun _ => rfl) (opcodeField_wordRR · _ _) rfl

theorem Laws.EncodedLength.mod1 (rd : Reg) (rs : Reg) :
    Laws.EncodedLength.Statement (.mod1 rd rs) :=
  Laws.EncodedLength.of_words (m := .mod1) (w := (wordRR · rd rs)) (fun _ => rfl) (opcodeField_wordRR · _ _) rfl

theorem Laws.EncodedLength.mod2 (rd : Reg) (rs : Reg) :
    Laws.EncodedLength.Statement (.mod2 rd rs) :=
  Laws.EncodedLength.of_words (m := .mod2) (w := (wordRR · rd rs)) (fun _ => rfl) (opcodeField_wordRR · _ _) rfl

theorem Laws.EncodedLength.mod4 (rd : Reg) (rs : Reg) :
    Laws.EncodedLength.Statement (.mod4 rd rs) :=
  Laws.EncodedLength.of_words (m := .mod4) (w := (wordRR · rd rs)) (fun _ => rfl) (opcodeField_wordRR · _ _) rfl

theorem Laws.EncodedLength.mod8 (rd : Reg) (rs : Reg) :
    Laws.EncodedLength.Statement (.mod8 rd rs) :=
  Laws.EncodedLength.of_words (m := .mod8) (w := (wordRR · rd rs)) (fun _ => rfl) (opcodeField_wordRR · _ _) rfl

theorem Laws.EncodedLength.modu1 (rd : Reg) (rs : Reg) :
    Laws.EncodedLength.Statement (.modu1 rd rs) :=
  Laws.EncodedLength.of_words (m := .modu1) (w := (wordRR · rd rs)) (fun _ => rfl) (opcodeField_wordRR · _ _) rfl

theorem Laws.EncodedLength.modu2 (rd : Reg) (rs : Reg) :
    Laws.EncodedLength.Statement (.modu2 rd rs) :=
  Laws.EncodedLength.of_words (m := .modu2) (w := (wordRR · rd rs)) (fun _ => rfl) (opcodeField_wordRR · _ _) rfl

theorem Laws.EncodedLength.modu4 (rd : Reg) (rs : Reg) :
    Laws.EncodedLength.Statement (.modu4 rd rs) :=
  Laws.EncodedLength.of_words (m := .modu4) (w := (wordRR · rd rs)) (fun _ => rfl) (opcodeField_wordRR · _ _) rfl

theorem Laws.EncodedLength.modu8 (rd : Reg) (rs : Reg) :
    Laws.EncodedLength.Statement (.modu8 rd rs) :=
  Laws.EncodedLength.of_words (m := .modu8) (w := (wordRR · rd rs)) (fun _ => rfl) (opcodeField_wordRR · _ _) rfl

theorem Laws.EncodedLength.cmp1 (rd : Reg) (rs : Reg) :
    Laws.EncodedLength.Statement (.cmp1 rd rs) :=
  Laws.EncodedLength.of_words (m := .cmp1) (w := (wordRR · rd rs)) (fun _ => rfl) (opcodeField_wordRR · _ _) rfl

theorem Laws.EncodedLength.cmp2 (rd : Reg) (rs : Reg) :
    Laws.EncodedLength.Statement (.cmp2 rd rs) :=
  Laws.EncodedLength.of_words (m := .cmp2) (w := (wordRR · rd rs)) (fun _ => rfl) (opcodeField_wordRR · _ _) rfl

theorem Laws.EncodedLength.cmp4 (rd : Reg) (rs : Reg) :
    Laws.EncodedLength.Statement (.cmp4 rd rs) :=
  Laws.EncodedLength.of_words (m := .cmp4) (w := (wordRR · rd rs)) (fun _ => rfl) (opcodeField_wordRR · _ _) rfl

theorem Laws.EncodedLength.cmp8 (rd : Reg) (rs : Reg) :
    Laws.EncodedLength.Statement (.cmp8 rd rs) :=
  Laws.EncodedLength.of_words (m := .cmp8) (w := (wordRR · rd rs)) (fun _ => rfl) (opcodeField_wordRR · _ _) rfl

theorem Laws.EncodedLength.fadd4 (rd : Reg) (rs : Reg) :
    Laws.EncodedLength.Statement (.fadd4 rd rs) :=
  Laws.EncodedLength.of_words (m := .fadd4) (w := (wordRR · rd rs)) (fun _ => rfl) (opcodeField_wordRR · _ _) rfl

theorem Laws.EncodedLength.fadd8 (rd : Reg) (rs : Reg) :
    Laws.EncodedLength.Statement (.fadd8 rd rs) :=
  Laws.EncodedLength.of_words (m := .fadd8) (w := (wordRR · rd rs)) (fun _ => rfl) (opcodeField_wordRR · _ _) rfl

theorem Laws.EncodedLength.fsub4 (rd : Reg) (rs : Reg) :
    Laws.EncodedLength.Statement (.fsub4 rd rs) :=
  Laws.EncodedLength.of_words (m := .fsub4) (w := (wordRR · rd rs)) (fun _ => rfl) (opcodeField_wordRR · _ _) rfl

theorem Laws.EncodedLength.fsub8 (rd : Reg) (rs : Reg) :
    Laws.EncodedLength.Statement (.fsub8 rd rs) :=
  Laws.EncodedLength.of_words (m := .fsub8) (w := (wordRR · rd rs)) (fun _ => rfl) (opcodeField_wordRR · _ _) rfl

theorem Laws.EncodedLength.fmul4 (rd : Reg) (rs : Reg) :
    Laws.EncodedLength.Statement (.fmul4 rd rs) :=
  Laws.EncodedLength.of_words (m := .fmul4) (w := (wordRR · rd rs)) (fun _ => rfl) (opcodeField_wordRR · _ _) rfl

theorem Laws.EncodedLength.fmul8 (rd : Reg) (rs : Reg) :
    Laws.EncodedLength.Statement (.fmul8 rd rs) :=
  Laws.EncodedLength.of_words (m := .fmul8) (w := (wordRR · rd rs)) (fun _ => rfl) (opcodeField_wordRR · _ _) rfl

theorem Laws.EncodedLength.fdiv4 (rd : Reg) (rs : Reg) :
    Laws.EncodedLength.Statement (.fdiv4 rd rs) :=
  Laws.EncodedLength.of_words (m := .fdiv4) (w := (wordRR · rd rs)) (fun _ => rfl) (opcodeField_wordRR · _ _) rfl

theorem Laws.EncodedLength.fdiv8 (rd : Reg) (rs : Reg) :
    Laws.EncodedLength.Statement (.fdiv8 rd rs) :=
  Laws.EncodedLength.of_words (m := .fdiv8) (w := (wordRR · rd rs)) (fun _ => rfl) (opcodeField_wordRR · _ _) rfl

theorem Laws.EncodedLength.loadr1 (rd : Reg) (rs : Reg) :
    Laws.EncodedLength.Statement (.loadr1 rd rs) :=
  Laws.EncodedLength.of_words (m := .loadr1) (w := (wordRR · rd rs)) (fun _ => rfl) (opcodeField_wordRR · _ _) rfl

theorem Laws.EncodedLength.loadr2 (rd : Reg) (rs : Reg) :
    Laws.EncodedLength.Statement (.loadr2 rd rs) :=
  Laws.EncodedLength.of_words (m := .loadr2) (w := (wordRR · rd rs)) (fun _ => rfl) (opcodeField_wordRR · _ _) rfl

theorem Laws.EncodedLength.loadr4 (rd : Reg) (rs : Reg) :
    Laws.EncodedLength.Statement (.loadr4 rd rs) :=
  Laws.EncodedLength.of_words (m := .loadr4) (w := (wordRR · rd rs)) (fun _ => rfl) (opcodeField_wordRR · _ _) rfl

theorem Laws.EncodedLength.loadr8 (rd : Reg) (rs : Reg) :
    Laws.EncodedLength.Statement (.loadr8 rd rs) :=
  Laws.EncodedLength.of_words (m := .loadr8) (w := (wordRR · rd rs)) (fun _ => rfl) (opcodeField_wordRR · _ _) rfl

theorem Laws.EncodedLength.storer1 (rd : Reg) (rs : Reg) :
    Laws.EncodedLength.Statement (.storer1 rd rs) :=
  Laws.EncodedLength.of_words (m := .storer1) (w := (wordRR · rd rs)) (fun _ => rfl) (opcodeField_wordRR · _ _) rfl

theorem Laws.EncodedLength.storer2 (rd : Reg) (rs : Reg) :
    Laws.EncodedLength.Statement (.storer2 rd rs) :=
  Laws.EncodedLength.of_words (m := .storer2) (w := (wordRR · rd rs)) (fun _ => rfl) (opcodeField_wordRR · _ _) rfl

theorem Laws.EncodedLength.storer4 (rd : Reg) (rs : Reg) :
    Laws.EncodedLength.Statement (.storer4 rd rs) :=
  Laws.EncodedLength.of_words (m := .storer4) (w := (wordRR · rd rs)) (fun _ => rfl) (opcodeField_wordRR · _ _) rfl

theorem Laws.EncodedLength.storer8 (rd : Reg) (rs : Reg) :
    Laws.EncodedLength.Statement (.storer8 rd rs) :=
  Laws.EncodedLength.of_words (m := .storer8) (w := (wordRR · rd rs)) (fun _ => rfl) (opcodeField_wordRR · _ _) rfl

theorem Laws.EncodedLength.loadv (rd : Reg) (imm : Word) :
    Laws.EncodedLength.Statement (.loadv rd imm) :=
  Laws.EncodedLength.of_words (m := .loadv) (w := (wordR · rd)) (fun _ => rfl) (opcodeField_wordR · _) rfl

theorem Laws.EncodedLength.cmpv (rd : Reg) (imm : Word) :
    Laws.EncodedLength.Statement (.cmpv rd imm) :=
  Laws.EncodedLength.of_words (m := .cmpv) (w := (wordR · rd)) (fun _ => rfl) (opcodeField_wordR · _) rfl

theorem Laws.EncodedLength.load1 (rd : Reg) (imm : Word) :
    Laws.EncodedLength.Statement (.load1 rd imm) :=
  Laws.EncodedLength.of_words (m := .load1) (w := (wordR · rd)) (fun _ => rfl) (opcodeField_wordR · _) rfl

theorem Laws.EncodedLength.load2 (rd : Reg) (imm : Word) :
    Laws.EncodedLength.Statement (.load2 rd imm) :=
  Laws.EncodedLength.of_words (m := .load2) (w := (wordR · rd)) (fun _ => rfl) (opcodeField_wordR · _) rfl

theorem Laws.EncodedLength.load4 (rd : Reg) (imm : Word) :
    Laws.EncodedLength.Statement (.load4 rd imm) :=
  Laws.EncodedLength.of_words (m := .load4) (w := (wordR · rd)) (fun _ => rfl) (opcodeField_wordR · _) rfl

theorem Laws.EncodedLength.load8 (rd : Reg) (imm : Word) :
    Laws.EncodedLength.Statement (.load8 rd imm) :=
  Laws.EncodedLength.of_words (m := .load8) (w := (wordR · rd)) (fun _ => rfl) (opcodeField_wordR · _) rfl

theorem Laws.EncodedLength.store1 (rd : Reg) (imm : Word) :
    Laws.EncodedLength.Statement (.store1 rd imm) :=
  Laws.EncodedLength.of_words (m := .store1) (w := (wordR · rd)) (fun _ => rfl) (opcodeField_wordR · _) rfl

theorem Laws.EncodedLength.store2 (rd : Reg) (imm : Word) :
    Laws.EncodedLength.Statement (.store2 rd imm) :=
  Laws.EncodedLength.of_words (m := .store2) (w := (wordR · rd)) (fun _ => rfl) (opcodeField_wordR · _) rfl

theorem Laws.EncodedLength.store4 (rd : Reg) (imm : Word) :
    Laws.EncodedLength.Statement (.store4 rd imm) :=
  Laws.EncodedLength.of_words (m := .store4) (w := (wordR · rd)) (fun _ => rfl) (opcodeField_wordR · _) rfl

theorem Laws.EncodedLength.store8 (rd : Reg) (imm : Word) :
    Laws.EncodedLength.Statement (.store8 rd imm) :=
  Laws.EncodedLength.of_words (m := .store8) (w := (wordR · rd)) (fun _ => rfl) (opcodeField_wordR · _) rfl

theorem Laws.EncodedLength.jmp (imm : Word) :
    Laws.EncodedLength.Statement (.jmp imm) :=
  Laws.EncodedLength.of_words (m := .jmp) (w := (wordR · 0)) (fun _ => rfl) (opcodeField_wordR · _) rfl

theorem Laws.EncodedLength.jeq (imm : Word) :
    Laws.EncodedLength.Statement (.jeq imm) :=
  Laws.EncodedLength.of_words (m := .jeq) (w := (wordR · 0)) (fun _ => rfl) (opcodeField_wordR · _) rfl

theorem Laws.EncodedLength.jne (imm : Word) :
    Laws.EncodedLength.Statement (.jne imm) :=
  Laws.EncodedLength.of_words (m := .jne) (w := (wordR · 0)) (fun _ => rfl) (opcodeField_wordR · _) rfl

theorem Laws.EncodedLength.jmi (imm : Word) :
    Laws.EncodedLength.Statement (.jmi imm) :=
  Laws.EncodedLength.of_words (m := .jmi) (w := (wordR · 0)) (fun _ => rfl) (opcodeField_wordR · _) rfl

theorem Laws.EncodedLength.jpl (imm : Word) :
    Laws.EncodedLength.Statement (.jpl imm) :=
  Laws.EncodedLength.of_words (m := .jpl) (w := (wordR · 0)) (fun _ => rfl) (opcodeField_wordR · _) rfl

theorem Laws.EncodedLength.jcs (imm : Word) :
    Laws.EncodedLength.Statement (.jcs imm) :=
  Laws.EncodedLength.of_words (m := .jcs) (w := (wordR · 0)) (fun _ => rfl) (opcodeField_wordR · _) rfl

theorem Laws.EncodedLength.jcc (imm : Word) :
    Laws.EncodedLength.Statement (.jcc imm) :=
  Laws.EncodedLength.of_words (m := .jcc) (w := (wordR · 0)) (fun _ => rfl) (opcodeField_wordR · _) rfl

theorem Laws.EncodedLength.jlt (imm : Word) :
    Laws.EncodedLength.Statement (.jlt imm) :=
  Laws.EncodedLength.of_words (m := .jlt) (w := (wordR · 0)) (fun _ => rfl) (opcodeField_wordR · _) rfl

theorem Laws.EncodedLength.jge (imm : Word) :
    Laws.EncodedLength.Statement (.jge imm) :=
  Laws.EncodedLength.of_words (m := .jge) (w := (wordR · 0)) (fun _ => rfl) (opcodeField_wordR · _) rfl

theorem Laws.EncodedLength.call (imm : Word) :
    Laws.EncodedLength.Statement (.call imm) :=
  Laws.EncodedLength.of_words (m := .call) (w := (wordR · 0)) (fun _ => rfl) (opcodeField_wordR · _) rfl

theorem Laws.EncodedLength.svio (rd : Reg) (imm : Word) :
    Laws.EncodedLength.Statement (.svio rd imm) :=
  Laws.EncodedLength.of_words (m := .svio) (w := (wordR · rd)) (fun _ => rfl) (opcodeField_wordR · _) rfl

theorem Laws.EncodedLength.loadio (rd : Reg) (imm : Word) :
    Laws.EncodedLength.Statement (.loadio rd imm) :=
  Laws.EncodedLength.of_words (m := .loadio) (w := (wordR · rd)) (fun _ => rfl) (opcodeField_wordR · _) rfl

theorem Laws.EncodedLength.showio (imm : Word) :
    Laws.EncodedLength.Statement (.showio imm) :=
  Laws.EncodedLength.of_words (m := .showio) (w := (wordR · 0)) (fun _ => rfl) (opcodeField_wordR · _) rfl

end Sys2Proof
end

