-- ==== Sys2Proof/Laws/Step.lean ====
section
/-! SUPPORT. Step.lean: everything decode, the stages of a step, and a step can do. -/

namespace Sys2Proof

/-- Everything decode can do with a word (30_encoding.md R97). -/
theorem decode_cases (map : OpcodeMap) (w : Word) (next : Option Word) :
    (formatOf map (opcodeField w) = none ∧
      decode map w next = .error (.unknownOpcode (opcodeField w))) ∨
    (formatOf map (opcodeField w) = some .ri ∧ next = none ∧
      decode map w next = .error (.noImmediate (opcodeField w))) ∨
    ∃ d, decode map w next = .ok d ∧ d.record.opcode = opcodeField w ∧
      d.record.wellFormed (formatOf map) = true ∧
      (d.record.format = .ri → d.record.imm = next ∧ next ≠ none) := by
  rcases hl : lookupOpcode map (opcodeField w) with _ | m
  · exact .inl ⟨by simp [formatOf, hl], decode_of_undefined next hl⟩
  · right
    rw [formatOf_of_lookup hl, decode_of_lookup next hl]
    rcases decodeAs_cases m.builder w next with ⟨hf, hn, e⟩ | ⟨d, e, ho, hf, hd, hs, hi, hx⟩
    · exact .inl ⟨by rw [hf], hn, e⟩
    · exact .inr ⟨d, e, ho, wellFormed_of_lookup (by rw [ho]; exact hl) hf hd hs hi, by rwa [hf]⟩

namespace Machine

/-- The state in which a decoded instruction executes (70_reset_and_hazards.md R311). -/
def State.decoded (s : State) (d : Decoded) : State :=
  { s with
    ipc := s.pc
    inst := some d.record
    pc := s.pc + (if d.record.format = .ri then 16 else 8) }

/-- The state after fetch and decode have raised a fatal error. -/
def State.notDecoded (s : State) (k : FatalKind) (op : Option Opcode) (a : Option Word) : State :=
  { s with ipc := s.pc, inst := none, running := false, fault := some ⟨k, s.pc, op, a⟩ }

/-- Everything the stages fetch and decode can do (30_encoding.md R97, 60_exceptions.md R288). -/
theorem fetchDecode_cases (s : State) :
    (s.memRead s.pc .b8 = none ∧
      fetchDecode s = .error (s.notDecoded .addressError none (some s.pc))) ∨
    ∃ w, s.memRead s.pc .b8 = some w ∧
      ((formatOf s.cfg.opcodeMap (opcodeField w) = none ∧
          fetchDecode s = .error (s.notDecoded .decodeError (some (opcodeField w)) none)) ∨
       (formatOf s.cfg.opcodeMap (opcodeField w) = some .ri ∧ s.memRead (s.pc + 8) .b8 = none ∧
          fetchDecode s =
            .error (s.notDecoded .addressError (some (opcodeField w)) (some (s.pc + 8)))) ∨
       ∃ d, decode s.cfg.opcodeMap w (s.memRead (s.pc + 8) .b8) = .ok d ∧
          fetchDecode s = .ok (d.instr, s.decoded d)) := by
  unfold fetchDecode fetch
  rcases hm : s.memRead s.pc .b8 with _ | w
  · refine .inl ⟨rfl, ?_⟩
    have h : State.memRead { s with ipc := s.pc, inst := none } s.pc .b8 = none := hm
    simp only [h]
    rfl
  · refine .inr ⟨w, rfl, ?_⟩
    have h : State.memRead { s with ipc := s.pc, inst := none } s.pc .b8 = some w := hm
    simp only [h]
    unfold decodeStage
    have hn : State.memRead (State.setPc { s with ipc := s.pc, inst := none } (s.pc + 8))
        (s.pc + 8) .b8 = s.memRead (s.pc + 8) .b8 := rfl
    simp only [State.setPc_pc, State.setPc_cfg, hn]
    rcases decode_cases s.cfg.opcodeMap w (s.memRead (s.pc + 8) .b8) with ⟨hf, e⟩ | ⟨hf, hx, e⟩ | ⟨d, e, -, -⟩
    · exact .inl ⟨hf, by rw [e]; rfl⟩
    · exact .inr (.inl ⟨hf, hx, by rw [e]; rfl⟩)
    · refine .inr (.inr ⟨d, e, ?_⟩)
      rw [e]
      have hpc : s.pc + 8 + BitVec.ofNat 64 (d.record.format.length - 8) =
          s.pc + (if d.record.format = .ri then 16 else 8) := by
        cases d.record.format <;> simp [Format.length, BitVec.add_assoc]
      simp only [State.decoded, State.setPc, hpc]

/-- Everything a step can do on its way to a next state: nothing, on a Halted core; RunawayProgram, at the
ceiling; a fatal error of fetch or decode; the execution of the decoded instruction (R311 to R314). -/
theorem step_cases {s t : State} (h : step s = .next t) :
    s.fault = none ∧
    ((s.running = false ∧ t = s) ∨
     (s.running = true ∧ s.ceilingReached = true ∧ t = s.runaway) ∨
     (s.running = true ∧ s.ceilingReached = false ∧
       ∃ k op a, k ≠ .runawayProgram ∧ t = s.notDecoded k op a) ∨
     (s.running = true ∧ s.ceilingReached = false ∧
       ∃ d u, fetchDecode s = .ok (d.instr, s.decoded d) ∧
         exec d.instr (s.decoded d) = .next u ∧ t = u.retire)) := by
  unfold step at h
  rcases hf : s.fault with _ | r
  · rw [hf] at h
    refine ⟨rfl, ?_⟩
    rcases hr : s.running with _ | _
    · simp only [hr] at h
      cases h
      exact .inl ⟨rfl, rfl⟩
    · rcases hc : s.ceilingReached with _ | _
      · simp only [hr, hc] at h
        refine .inr (.inr ?_)
        simp only [if_true, Bool.false_eq_true, if_false, tick] at h
        rcases fetchDecode_cases s with ⟨-, e⟩ | ⟨w, -, ⟨-, e⟩ | ⟨-, -, e⟩ | ⟨d, -, e⟩⟩
        · rw [e] at h
          cases h
          exact .inl ⟨rfl, rfl, _, _, _, by decide, rfl⟩
        · rw [e] at h
          cases h
          exact .inl ⟨rfl, rfl, _, _, _, by decide, rfl⟩
        · rw [e] at h
          cases h
          exact .inl ⟨rfl, rfl, _, _, _, by decide, rfl⟩
        · rw [e] at h
          refine .inr ⟨rfl, rfl, d, ?_⟩
          simp only [execute] at h
          rcases hx : exec d.instr (s.decoded d) with u | f | r
          · rw [hx] at h
            cases h
            exact ⟨u, e, rfl, rfl⟩
          · rw [hx] at h
            cases h
          · rw [hx] at h
            cases h
      · simp only [hr, hc] at h
        cases h
        exact .inr (.inl ⟨rfl, rfl, rfl⟩)
  · rw [hf] at h
    cases h

end Machine

end Sys2Proof
end

