-- ==== Sys2Proof/Tests/Slice0.lean ====
section
/-! SUPPORT. Slice0.lean: the model's own tests. The words of the decode tests are written out from the
fields of 30_encoding.md R82 to R92; the expected results are the vectors of 95_test_vectors.md or are
worked by hand from the rule named. A witness shows a state and operands that meet the hypotheses of one
obligation. -/

namespace Sys2Proof.Tests

-- Each test is elaborated in turn: the tests together would otherwise start a thread each.
set_option Elab.async false

open Sys2Proof.Machine

/-! ### Well-formedness (30_encoding.md R81, R89, R90): one ill-formed record for each check -/

/-- A well-formed ADD8 R2, R1. -/
def goodRecord : DecodedInst := ⟨0x0213, .rr, some 2, some 1, none⟩

theorem test_wellFormed_accepts : goodRecord.wellFormed (formatOf opcodeTable) = true := by decide

theorem test_wellFormed_refuses_undefined_opcode :
    DecodedInst.wellFormed (formatOf opcodeTable) { goodRecord with opcode := 0x0003 } = false := by decide

theorem test_wellFormed_refuses_wrong_format :
    DecodedInst.wellFormed (formatOf opcodeTable) ⟨0x0213, .r, some 2, none, none⟩ = false := by decide

theorem test_wellFormed_refuses_missing_rd :
    DecodedInst.wellFormed (formatOf opcodeTable) { goodRecord with rd := none } = false := by decide

theorem test_wellFormed_refuses_missing_rs :
    DecodedInst.wellFormed (formatOf opcodeTable) { goodRecord with rs := none } = false := by decide

theorem test_wellFormed_refuses_extra_imm :
    DecodedInst.wellFormed (formatOf opcodeTable) { goodRecord with imm := some 0 } = false := by decide

/-! ### Decode: a word for every constructor, written from its opcode and fields (R82 to R92) -/

theorem test_decode_op_1 :
    decodeTableWord 64 0x0000000000000000 = some .parar ∧
    decodeTableWord 64 0x0001000000000000 = some .nop ∧
    decodeTableWord 64 0x0002000000000000 = some .ret ∧
    decodeTableWord 64 0x0010000000000000 = some .setz ∧
    decodeTableWord 64 0x0011000000000000 = some .clrz ∧
    decodeTableWord 64 0x0012000000000000 = some .setn ∧
    decodeTableWord 64 0x0013000000000000 = some .clrn ∧
    decodeTableWord 64 0x0014000000000000 = some .setc := by decide +kernel

theorem test_decode_op_2 :
    decodeTableWord 64 0x0015000000000000 = some .clrc ∧
    decodeTableWord 64 0x0016000000000000 = some .setv ∧
    decodeTableWord 64 0x0017000000000000 = some .clrv := by decide +kernel

theorem test_decode_r_1 :
    decodeTableWord 64 0x0100300000000000 = some (.inc 3) ∧
    decodeTableWord 64 0x0101800000000000 = some (.dec 8) ∧
    decodeTableWord 64 0x0102D00000000000 = some (.clear 13) ∧
    decodeTableWord 64 0x0103200000000000 = some (.shl 2) ∧
    decodeTableWord 64 0x0104700000000000 = some (.shr 7) ∧
    decodeTableWord 64 0x0110300000000000 = some (.push1 3) ∧
    decodeTableWord 64 0x0111800000000000 = some (.push2 8) ∧
    decodeTableWord 64 0x0112D00000000000 = some (.push4 13) := by decide +kernel

theorem test_decode_r_2 :
    decodeTableWord 64 0x0113200000000000 = some (.push8 2) ∧
    decodeTableWord 64 0x0114700000000000 = some (.pop1 7) ∧
    decodeTableWord 64 0x0115C00000000000 = some (.pop2 12) ∧
    decodeTableWord 64 0x0116100000000000 = some (.pop4 1) ∧
    decodeTableWord 64 0x0117600000000000 = some (.pop8 6) ∧
    decodeTableWord 64 0x0120300000000000 = some (.fsqrt4 3) ∧
    decodeTableWord 64 0x0121800000000000 = some (.fsqrt8 8) ∧
    decodeTableWord 64 0x0122D00000000000 = some (.fsin4 13) := by decide +kernel

theorem test_decode_r_3 :
    decodeTableWord 64 0x0123200000000000 = some (.fsin8 2) ∧
    decodeTableWord 64 0x0124700000000000 = some (.fcos4 7) ∧
    decodeTableWord 64 0x0125C00000000000 = some (.fcos8 12) := by decide +kernel

theorem test_decode_rr_1 :
    decodeTableWord 64 0x0200000000000036 = some (.mov 3 6) ∧
    decodeTableWord 64 0x0201000000000089 = some (.and 8 9) ∧
    decodeTableWord 64 0x02020000000000DC = some (.or 13 12) ∧
    decodeTableWord 64 0x020300000000002F = some (.xor 2 15) ∧
    decodeTableWord 64 0x0210000000000036 = some (.add1 3 6) ∧
    decodeTableWord 64 0x0211000000000089 = some (.add2 8 9) ∧
    decodeTableWord 64 0x02120000000000DC = some (.add4 13 12) ∧
    decodeTableWord 64 0x021300000000002F = some (.add8 2 15) := by decide +kernel

theorem test_decode_rr_2 :
    decodeTableWord 64 0x0214000000000072 = some (.sub1 7 2) ∧
    decodeTableWord 64 0x02150000000000C5 = some (.sub2 12 5) ∧
    decodeTableWord 64 0x0216000000000018 = some (.sub4 1 8) ∧
    decodeTableWord 64 0x021700000000006B = some (.sub8 6 11) ∧
    decodeTableWord 64 0x02180000000000BE = some (.mul1 11 14) ∧
    decodeTableWord 64 0x0219000000000001 = some (.mul2 0 1) ∧
    decodeTableWord 64 0x021A000000000054 = some (.mul4 5 4) ∧
    decodeTableWord 64 0x021B0000000000A7 = some (.mul8 10 7) := by decide +kernel

theorem test_decode_rr_3 :
    decodeTableWord 64 0x021C0000000000FA = some (.div1 15 10) ∧
    decodeTableWord 64 0x021D00000000004D = some (.div2 4 13) ∧
    decodeTableWord 64 0x021E000000000090 = some (.div4 9 0) ∧
    decodeTableWord 64 0x021F0000000000E3 = some (.div8 14 3) ∧
    decodeTableWord 64 0x0220000000000036 = some (.divu1 3 6) ∧
    decodeTableWord 64 0x0221000000000089 = some (.divu2 8 9) ∧
    decodeTableWord 64 0x02220000000000DC = some (.divu4 13 12) ∧
    decodeTableWord 64 0x022300000000002F = some (.divu8 2 15) := by decide +kernel

theorem test_decode_rr_4 :
    decodeTableWord 64 0x0224000000000072 = some (.mod1 7 2) ∧
    decodeTableWord 64 0x02250000000000C5 = some (.mod2 12 5) ∧
    decodeTableWord 64 0x0226000000000018 = some (.mod4 1 8) ∧
    decodeTableWord 64 0x022700000000006B = some (.mod8 6 11) ∧
    decodeTableWord 64 0x02280000000000BE = some (.modu1 11 14) ∧
    decodeTableWord 64 0x0229000000000001 = some (.modu2 0 1) ∧
    decodeTableWord 64 0x022A000000000054 = some (.modu4 5 4) ∧
    decodeTableWord 64 0x022B0000000000A7 = some (.modu8 10 7) := by decide +kernel

theorem test_decode_rr_5 :
    decodeTableWord 64 0x022C0000000000FA = some (.cmp1 15 10) ∧
    decodeTableWord 64 0x022D00000000004D = some (.cmp2 4 13) ∧
    decodeTableWord 64 0x022E000000000090 = some (.cmp4 9 0) ∧
    decodeTableWord 64 0x022F0000000000E3 = some (.cmp8 14 3) ∧
    decodeTableWord 64 0x0240000000000036 = some (.fadd4 3 6) ∧
    decodeTableWord 64 0x0241000000000089 = some (.fadd8 8 9) ∧
    decodeTableWord 64 0x02420000000000DC = some (.fsub4 13 12) ∧
    decodeTableWord 64 0x024300000000002F = some (.fsub8 2 15) := by decide +kernel

theorem test_decode_rr_6 :
    decodeTableWord 64 0x0244000000000072 = some (.fmul4 7 2) ∧
    decodeTableWord 64 0x02450000000000C5 = some (.fmul8 12 5) ∧
    decodeTableWord 64 0x0246000000000018 = some (.fdiv4 1 8) ∧
    decodeTableWord 64 0x024700000000006B = some (.fdiv8 6 11) ∧
    decodeTableWord 64 0x0250000000000036 = some (.loadr1 3 6) ∧
    decodeTableWord 64 0x0251000000000089 = some (.loadr2 8 9) ∧
    decodeTableWord 64 0x02520000000000DC = some (.loadr4 13 12) ∧
    decodeTableWord 64 0x025300000000002F = some (.loadr8 2 15) := by decide +kernel

theorem test_decode_rr_7 :
    decodeTableWord 64 0x0254000000000072 = some (.storer1 7 2) ∧
    decodeTableWord 64 0x02550000000000C5 = some (.storer2 12 5) ∧
    decodeTableWord 64 0x0256000000000018 = some (.storer4 1 8) ∧
    decodeTableWord 64 0x025700000000006B = some (.storer8 6 11) := by decide +kernel

theorem test_decode_ri_1 :
    decodeTableWord 128 0x0123456789ABCD000300300000000000 = some (.loadv 3 0x0123456789ABCD00) ∧
    decodeTableWord 128 0x0123456789ABCD010301800000000000 = some (.cmpv 8 0x0123456789ABCD01) ∧
    decodeTableWord 128 0x0123456789ABCD100310300000000000 = some (.load1 3 0x0123456789ABCD10) ∧
    decodeTableWord 128 0x0123456789ABCD110311800000000000 = some (.load2 8 0x0123456789ABCD11) ∧
    decodeTableWord 128 0x0123456789ABCD120312D00000000000 = some (.load4 13 0x0123456789ABCD12) ∧
    decodeTableWord 128 0x0123456789ABCD130313200000000000 = some (.load8 2 0x0123456789ABCD13) ∧
    decodeTableWord 128 0x0123456789ABCD140314700000000000 = some (.store1 7 0x0123456789ABCD14) ∧
    decodeTableWord 128 0x0123456789ABCD150315C00000000000 = some (.store2 12 0x0123456789ABCD15) := by decide +kernel

theorem test_decode_ri_2 :
    decodeTableWord 128 0x0123456789ABCD160316100000000000 = some (.store4 1 0x0123456789ABCD16) ∧
    decodeTableWord 128 0x0123456789ABCD170317600000000000 = some (.store8 6 0x0123456789ABCD17) ∧
    decodeTableWord 128 0x0123456789ABCD200320000000000000 = some (.jmp 0x0123456789ABCD20) ∧
    decodeTableWord 128 0x0123456789ABCD210321000000000000 = some (.jeq 0x0123456789ABCD21) ∧
    decodeTableWord 128 0x0123456789ABCD220322000000000000 = some (.jne 0x0123456789ABCD22) ∧
    decodeTableWord 128 0x0123456789ABCD230323000000000000 = some (.jmi 0x0123456789ABCD23) ∧
    decodeTableWord 128 0x0123456789ABCD240324000000000000 = some (.jpl 0x0123456789ABCD24) ∧
    decodeTableWord 128 0x0123456789ABCD250325000000000000 = some (.jcs 0x0123456789ABCD25) := by decide +kernel

theorem test_decode_ri_3 :
    decodeTableWord 128 0x0123456789ABCD260326000000000000 = some (.jcc 0x0123456789ABCD26) ∧
    decodeTableWord 128 0x0123456789ABCD270327000000000000 = some (.jlt 0x0123456789ABCD27) ∧
    decodeTableWord 128 0x0123456789ABCD280328000000000000 = some (.jge 0x0123456789ABCD28) ∧
    decodeTableWord 128 0x0123456789ABCD300330000000000000 = some (.call 0x0123456789ABCD30) ∧
    decodeTableWord 128 0x0123456789ABCD400340300000000000 = some (.svio 3 0x0123456789ABCD40) ∧
    decodeTableWord 128 0x0123456789ABCD410341800000000000 = some (.loadio 8 0x0123456789ABCD41) ∧
    decodeTableWord 128 0x0123456789ABCD420342000000000000 = some (.showio 0x0123456789ABCD42) := by decide +kernel

/-- The unused bits of format RR are ignored (95_test_vectors.md, D-DEC). -/
theorem test_decode_unused_bits : decodeTableWord 64 0x0213FF0000000021 = some (.add8 2 1) := by
  decide +kernel

/-- A jump's register field, here 7, is ignored (D-DEC). -/
theorem test_decode_jump_register :
    decodeTableWord 128 (0x0320700000000000 + 0x40 * 2 ^ 64) = some (.jmp 0x40) := by decide +kernel

/-- Undefined opcodes are rejected, those inside a format's range too (D-DEC, R89). -/
theorem test_decode_undefined :
    decode opcodeTable 0x0003000000000000 none = .error (.unknownOpcode 0x0003) ∧
    decode opcodeTable 0x0118000000000000 (some 0) = .error (.unknownOpcode 0x0118) ∧
    decode opcodeTable 0xFFFF000000000000 (some 0) = .error (.unknownOpcode 0xFFFF) := ⟨rfl, rfl, rfl⟩

/-- Every gap of R91 begins after a defined opcode and ends before one. -/
theorem test_decode_gap_edges :
    ([0x0002, 0x0010, 0x0017, 0x0100, 0x0104, 0x0110, 0x0117, 0x0120, 0x0125, 0x0200, 0x0203, 0x0210,
      0x022F, 0x0240, 0x0247, 0x0250, 0x0257, 0x0300, 0x0301, 0x0310, 0x0317, 0x0320, 0x0328, 0x0330,
      0x0340, 0x0342].all fun o => (formatOf opcodeTable o).isSome) = true ∧
    ([0x0003, 0x000F, 0x0018, 0x00FF, 0x0105, 0x010F, 0x0118, 0x011F, 0x0126, 0x01FF, 0x0204, 0x020F,
      0x0230, 0x023F, 0x0248, 0x024F, 0x0258, 0x02FF, 0x0302, 0x030F, 0x0318, 0x031F, 0x0329, 0x032F,
      0x0331, 0x033F, 0x0343, 0xFFFF].all fun o => (formatOf opcodeTable o).isNone) = true := by decide +kernel

/-- The bytes of ADD8 R2, R1 in address order (D-DEC). -/
theorem test_encode_bytes :
    encodeBytes opcodeTable (.add8 2 1) = [0x21, 0x00, 0x00, 0x00, 0x00, 0x00, 0x13, 0x02] := by decide

/-- An immediate word that is not there (R97). -/
theorem test_decode_no_immediate :
    decode opcodeTable 0x0300100000000000 none = .error (.noImmediate 0x0300) := rfl

/-- A map that exchanges the numbers of NOP and PARAR: the word of R91's PARAR is NOP (00_scope.md R4). -/
def swappedMap : OpcodeMap := [(0x0000, .nop), (0x0001, .parar)]

theorem test_decode_other_map :
    decode swappedMap 0 none = .ok ⟨⟨0, .op, none, none, none⟩, .nop⟩ ∧
    decode swappedMap 0x0213000000000021 none = .error (.unknownOpcode 0x0213) ∧
    encodeBytes swappedMap .nop = [0, 0, 0, 0, 0, 0, 0, 0] := by
  decide +kernel

/-! ### One-step helpers -/

/-- R1 = a and R2 = b, with C and V set so that an instruction that clears them shows it. -/
def ab (a b : Word) : State :=
  { State.reset with regs := (resetRegs.set 1 a).set 2 b, flags := ⟨false, false, true, true⟩ }

/-- R1 and the flags after an instruction. -/
def out (i : Instr) (s : State) : Option (Word × Flags) :=
  match exec i s with
  | .next t => some (t.x 1, t.flags)
  | .fault _ => none
  | .refused _ => none

/-- What one sees of the state after an instruction. -/
def see {α : Type} (f : State → α) (i : Instr) (s : State) : Option α :=
  match exec i s with
  | .next t => some (f t)
  | .fault _ => none
  | .refused _ => none

/-- What one sees of the state after a step. -/
def stepped {α : Type} (f : State → α) (s : State) : Option α :=
  match step s with
  | .next t => some (f t)
  | .fault _ => none
  | .refused _ => none

/-- SP = p, R1 = a. -/
def stack (p a : Word) : State := { State.reset with regs := (resetRegs.set 1 a).set 15 p }

/-! ### Integer instructions (95_test_vectors.md D-ALU; by hand from R112 to R121 where no row is given) -/

theorem test_add1_wraps :
    out (.add1 1 2) (ab 0x12345678000000FF 1) = some (0, ⟨true, false, true, false⟩) := by
  decide

theorem test_add2_wraps :
    out (.add2 1 2) (ab 0xFFFF 1) = some (0, ⟨true, false, true, false⟩) := by
  decide

theorem test_add4_overflows :
    out (.add4 1 2) (ab 0x7FFFFFFF 1) = some (0x80000000, ⟨false, true, false, true⟩) := by
  decide

theorem test_add8_overflows :
    out (.add8 1 2) (ab 0x7FFFFFFFFFFFFFFF 0x7FFFFFFFFFFFFFFF) = some (0xFFFFFFFFFFFFFFFE, ⟨false, true, false, true⟩) := by
  decide

theorem test_add8_same_register :
    out (.add8 1 1) (ab 4 0) = some (8, ⟨false, false, false, false⟩) := by
  decide

theorem test_sub1_overflows :
    out (.sub1 1 2) (ab 0x80 1) = some (0x7F, ⟨false, false, false, true⟩) := by
  decide

theorem test_sub2_equal :
    out (.sub2 1 2) (ab 0x1234 0x1234) = some (0, ⟨true, false, false, false⟩) := by
  decide

theorem test_sub4_borrows :
    out (.sub4 1 2) (ab 0x7FFFFFFF 0xFFFFFFFF) = some (0x80000000, ⟨false, true, true, true⟩) := by
  decide

theorem test_sub8_borrows :
    out (.sub8 1 2) (ab 0 1) = some (0xFFFFFFFFFFFFFFFF, ⟨false, true, true, false⟩) := by
  decide

theorem test_mul1_both_overflows :
    out (.mul1 1 2) (ab 0x10 0x10) = some (0, ⟨true, false, true, true⟩) := by
  decide

theorem test_mul2_both_overflows :
    out (.mul2 1 2) (ab 0x100 0x100) = some (0, ⟨true, false, true, true⟩) := by
  decide

theorem test_mul4_unsigned_overflow :
    out (.mul4 1 2) (ab 0xFFFFFFFF 2) = some (0xFFFFFFFE, ⟨false, true, true, false⟩) := by
  decide

theorem test_mul8_smin_times_minus_one :
    out (.mul8 1 2) (ab 0x8000000000000000 0xFFFFFFFFFFFFFFFF) = some (0x8000000000000000, ⟨false, true, true, true⟩) := by
  decide

theorem test_div1_smin_by_minus_one :
    out (.div1 1 2) (ab 0x80 0xFF) = some (0x80, ⟨false, true, false, true⟩) := by
  decide

theorem test_div2_truncates :
    out (.div2 1 2) (ab 0xFFF9 2) = some (0xFFFD, ⟨false, true, false, false⟩) := by
  decide

theorem test_div2_floors :
    out (.div2 1 2) { ab 0xFFF9 2 with cfg := { Config.defaults with divMode := .floor } } = some (0xFFFC, ⟨false, true, false, false⟩) := by
  decide

theorem test_div4_quotient :
    out (.div4 1 2) (ab 0x64 7) = some (0xE, ⟨false, false, false, false⟩) := by
  decide

theorem test_div8_by_zero :
    out (.div8 1 2) (ab 7 0) = some (0, ⟨true, false, false, true⟩) := by
  decide

theorem test_div8_truncates :
    out (.div8 1 2) (ab 7 0xFFFFFFFFFFFFFFFE) = some (0xFFFFFFFFFFFFFFFD, ⟨false, true, false, false⟩) := by
  decide

theorem test_divu1_quotient :
    out (.divu1 1 2) (ab 0xFF 0x10) = some (0xF, ⟨false, false, false, false⟩) := by
  decide

theorem test_divu2_low_bytes :
    out (.divu2 1 2) (ab 0x1FFF9 2) = some (0x7FFC, ⟨false, false, false, false⟩) := by
  decide

theorem test_divu4_negative_result :
    out (.divu4 1 2) (ab 0x80000000 1) = some (0x80000000, ⟨false, true, false, false⟩) := by
  decide

theorem test_divu8_unsigned :
    out (.divu8 1 2) (ab 0xFFFFFFFFFFFFFFF9 2) = some (0x7FFFFFFFFFFFFFFC, ⟨false, false, false, false⟩) := by
  decide

theorem test_divu8_by_zero :
    out (.divu8 1 2) (ab 5 0) = some (0, ⟨true, false, false, true⟩) := by
  decide

theorem test_mod1_smin_by_minus_one :
    out (.mod1 1 2) (ab 0x80 0xFF) = some (0, ⟨true, false, false, false⟩) := by
  decide

theorem test_mod2_sign_of_dividend :
    out (.mod2 1 2) (ab 0xFFF9 2) = some (0xFFFF, ⟨false, true, false, false⟩) := by
  decide

theorem test_mod4_remainder :
    out (.mod4 1 2) (ab 0x64 7) = some (2, ⟨false, false, false, false⟩) := by
  decide

theorem test_mod8_truncates :
    out (.mod8 1 2) (ab 7 0xFFFFFFFFFFFFFFFE) = some (1, ⟨false, false, false, false⟩) := by
  decide

theorem test_mod8_floors :
    out (.mod8 1 2) { ab 7 0xFFFFFFFFFFFFFFFE with cfg := { Config.defaults with divMode := .floor } } = some (0xFFFFFFFFFFFFFFFF, ⟨false, true, false, false⟩) := by
  decide

theorem test_modu1_low_bytes :
    out (.modu1 1 2) (ab 0x1FF 0x10) = some (0xF, ⟨false, false, false, false⟩) := by
  decide

theorem test_modu2_unsigned :
    out (.modu2 1 2) (ab 0xFFF9 0xFFFA) = some (0xFFF9, ⟨false, true, false, false⟩) := by
  decide

theorem test_modu4_remainder :
    out (.modu4 1 2) (ab 0x64 7) = some (2, ⟨false, false, false, false⟩) := by
  decide

theorem test_modu8_by_zero :
    out (.modu8 1 2) (ab 7 0) = some (0, ⟨true, false, false, true⟩) := by
  decide

theorem test_cmp1_low_byte_only :
    out (.cmp1 1 2) (ab 0x1FF 0x2FF) = some (0x1FF, ⟨true, false, false, false⟩) := by
  decide

theorem test_cmp2_low_bytes :
    out (.cmp2 1 2) (ab 0x18000 0x20001) = some (0x18000, ⟨false, false, false, true⟩) := by
  decide

theorem test_cmp4_less :
    out (.cmp4 1 2) (ab 3 5) = some (3, ⟨false, true, true, false⟩) := by
  decide

theorem test_cmp8_signed_less :
    out (.cmp8 1 2) (ab 0x8000000000000000 1) = some (0x8000000000000000, ⟨false, false, false, true⟩) := by
  decide

theorem test_cmp8_less :
    out (.cmp8 1 2) (ab 3 5) = some (3, ⟨false, true, true, false⟩) := by
  decide

theorem test_cmpv_minus_one :
    out (.cmpv 1 0xFFFFFFFFFFFFFFFF) (ab 1 0) = some (1, ⟨false, false, true, false⟩) := by
  decide

theorem test_cmpv_less :
    out (.cmpv 1 7) (ab 5 0) = some (5, ⟨false, true, true, false⟩) := by
  decide

theorem test_inc_wraps :
    out (.inc 1) (ab 0xFFFFFFFFFFFFFFFF 0) = some (0, ⟨true, false, true, false⟩) := by
  decide

theorem test_inc_overflows :
    out (.inc 1) (ab 0x7FFFFFFFFFFFFFFF 0) = some (0x8000000000000000, ⟨false, true, false, true⟩) := by
  decide

theorem test_dec_borrows :
    out (.dec 1) (ab 0 0) = some (0xFFFFFFFFFFFFFFFF, ⟨false, true, true, false⟩) := by
  decide

theorem test_dec_overflows :
    out (.dec 1) (ab 0x8000000000000000 0) = some (0x7FFFFFFFFFFFFFFF, ⟨false, false, false, true⟩) := by
  decide

theorem test_and_bits :
    out (.and 1 2) (ab 0xF0F0 0xFF0) = some (0xF0, ⟨false, false, false, false⟩) := by
  decide

theorem test_or_bits :
    out (.or 1 2) (ab 0x8000000000000000 1) = some (0x8000000000000001, ⟨false, true, false, false⟩) := by
  decide

theorem test_xor_same_register :
    out (.xor 1 1) (ab 0xFF 0) = some (0, ⟨true, false, false, false⟩) := by
  decide

theorem test_shl_by_itself :
    out (.shl 1) (ab 0x3F 0) = some (0x8000000000000000, ⟨false, true, false, false⟩) := by
  decide

theorem test_shl_by_one :
    out (.shl 1) { ab 0x40 0 with cfg := { Config.defaults with shiftMode := .one } } = some (0x80, ⟨false, false, false, false⟩) := by
  decide

theorem test_shr_by_itself :
    out (.shr 1) (ab 6 0) = some (0, ⟨true, false, false, false⟩) := by
  decide

theorem test_shr_by_one :
    out (.shr 1) { ab 0x8000000000000001 0 with cfg := { Config.defaults with shiftMode := .one } } = some (0x4000000000000000, ⟨false, false, false, false⟩) := by
  decide

/-! ### Floating point (D-FPU) -/

theorem test_fadd4_clears_high_bits :
    out (.fadd4 1 2) (ab 0xFFFFFFFF3F800000 0x3F800000) = some (0x40000000, ⟨false, false, false, false⟩) := by
  decide +kernel

theorem test_fadd4_rounds :
    out (.fadd4 1 2) (ab 0x3DCCCCCD 0x3E4CCCCD) = some (0x3E99999A, ⟨false, false, false, false⟩) := by
  decide +kernel

theorem test_fadd8_tie_to_even :
    out (.fadd8 1 2) (ab 0x3FF0000000000000 0x3CA0000000000000) = some (0x3FF0000000000000, ⟨false, false, false, false⟩) := by
  decide +kernel

theorem test_fadd8_opposite_infinities :
    out (.fadd8 1 2) (ab 0x7FF0000000000000 0xFFF0000000000000) = some (0x7FF8000000000000, ⟨false, false, false, true⟩) := by
  decide +kernel

theorem test_fsub4_difference :
    out (.fsub4 1 2) (ab 0x3FC00000 0x3E800000) = some (0x3FA00000, ⟨false, false, false, false⟩) := by
  decide +kernel

theorem test_fsub8_negative_zero :
    out (.fsub8 1 2) (ab 0x8000000000000000 0) = some (0x8000000000000000, ⟨true, true, false, false⟩) := by
  decide +kernel

theorem test_fmul4_overflows :
    out (.fmul4 1 2) (ab 0x7F7FFFFF 0x40000000) = some (0x7F800000, ⟨false, false, false, true⟩) := by
  decide +kernel

theorem test_fmul8_subnormal :
    out (.fmul8 1 2) (ab 0x10000000000000 0x3FE0000000000000) = some (0x8000000000000, ⟨false, false, false, false⟩) := by
  decide +kernel

theorem test_fdiv4_rounds :
    out (.fdiv4 1 2) (ab 0x3F800000 0x40400000) = some (0x3EAAAAAB, ⟨false, false, false, false⟩) := by
  decide +kernel

theorem test_fdiv8_by_infinity :
    out (.fdiv8 1 2) (ab 0x3FF0000000000000 0x7FF0000000000000) = some (0, ⟨true, false, false, false⟩) := by
  decide +kernel

theorem test_fdiv8_by_negative_zero :
    out (.fdiv8 1 2) (ab 0x3FF0000000000000 0x8000000000000000) = some (0xFFF0000000000000, ⟨false, true, false, true⟩) := by
  decide +kernel

theorem test_fsqrt4_rounds :
    out (.fsqrt4 1) (ab 0x40000000 0) = some (0x3FB504F3, ⟨false, false, false, false⟩) := by
  decide +kernel

theorem test_fsqrt8_of_negative :
    out (.fsqrt8 1) (ab 0xC010000000000000 0) = some (0x7FF8000000000000, ⟨false, false, false, true⟩) := by
  decide +kernel

theorem test_fsqrt8_of_least_subnormal :
    out (.fsqrt8 1) (ab 1 0) = some (0x1E60000000000000, ⟨false, false, false, false⟩) := by
  decide +kernel

theorem test_fsin4_negative_zero :
    out (.fsin4 1) (ab 0x80000000 0) = some (0x80000000, ⟨true, true, false, false⟩) := by
  decide +kernel

theorem test_fsin8_of_infinity :
    out (.fsin8 1) (ab 0x7FF0000000000000 0) = some (0x7FF8000000000000, ⟨false, false, false, true⟩) := by
  decide +kernel

theorem test_fcos4_of_zero :
    out (.fcos4 1) (ab 0 0) = some (0x3F800000, ⟨false, false, false, false⟩) := by
  decide +kernel

theorem test_fcos8_of_negative_zero :
    out (.fcos8 1) (ab 0x8000000000000000 0) = some (0x3FF0000000000000, ⟨false, false, false, false⟩) := by
  decide +kernel

/-- FDIV by zero and FSQRT of a negative value warn (R172, R178, R179). -/
theorem test_fp_warnings :
    see State.warnings (.fdiv8 1 2) (ab 0x3FF0000000000000 0) = some [.fpDivisionByZero] ∧
    see State.warnings (.fsqrt8 1) (ab 0xC010000000000000 0) = some [.sqrtOfNegative] ∧
    see State.warnings (.fsqrt8 1) (ab 0x8000000000000000 0) = some [] := by decide +kernel

/-! ### Memory and data movement (D-MEM) -/

theorem test_load1_reads :
    see (fun t => t.x 1) (.load1 1 0x100)
      ((ab 0xFFFFFFFFFFFFFFFF 0).poke 0x100 [0xFF, 0xEE, 0xDD, 0xCC, 0xBB, 0xAA, 0x99, 0x88]) =
    some 0xFF := by
  decide +kernel

theorem test_loadr1_reads :
    see (fun t => t.x 1) (.loadr1 1 2)
      ((ab 0xFFFFFFFFFFFFFFFF 0x100).poke 0x100 [0xFF, 0xEE, 0xDD, 0xCC, 0xBB, 0xAA, 0x99, 0x88]) =
    some 0xFF := by
  decide +kernel

theorem test_store1_writes :
    see State.mem (.store1 1 0x200)
      (ab 0x1122334455667788 0) =
    some [(0x200, 0x88)] := by
  decide +kernel

theorem test_storer1_writes :
    see State.mem (.storer1 1 2)
      (ab 0x1122334455667788 0x200) =
    some [(0x200, 0x88)] := by
  decide +kernel

theorem test_load2_reads :
    see (fun t => t.x 1) (.load2 1 0x100)
      ((ab 0xFFFFFFFFFFFFFFFF 0).poke 0x100 [0xFF, 0xEE, 0xDD, 0xCC, 0xBB, 0xAA, 0x99, 0x88]) =
    some 0xEEFF := by
  decide +kernel

theorem test_loadr2_reads :
    see (fun t => t.x 1) (.loadr2 1 2)
      ((ab 0xFFFFFFFFFFFFFFFF 0x100).poke 0x100 [0xFF, 0xEE, 0xDD, 0xCC, 0xBB, 0xAA, 0x99, 0x88]) =
    some 0xEEFF := by
  decide +kernel

theorem test_store2_writes :
    see State.mem (.store2 1 0x200)
      (ab 0x1122334455667788 0) =
    some [(0x200, 0x88), (0x201, 0x77)] := by
  decide +kernel

theorem test_storer2_writes :
    see State.mem (.storer2 1 2)
      (ab 0x1122334455667788 0x200) =
    some [(0x200, 0x88), (0x201, 0x77)] := by
  decide +kernel

theorem test_load4_reads :
    see (fun t => t.x 1) (.load4 1 0x100)
      ((ab 0xFFFFFFFFFFFFFFFF 0).poke 0x100 [0xFF, 0xEE, 0xDD, 0xCC, 0xBB, 0xAA, 0x99, 0x88]) =
    some 0xCCDDEEFF := by
  decide +kernel

theorem test_loadr4_reads :
    see (fun t => t.x 1) (.loadr4 1 2)
      ((ab 0xFFFFFFFFFFFFFFFF 0x100).poke 0x100 [0xFF, 0xEE, 0xDD, 0xCC, 0xBB, 0xAA, 0x99, 0x88]) =
    some 0xCCDDEEFF := by
  decide +kernel

theorem test_store4_writes :
    see State.mem (.store4 1 0x200)
      (ab 0x1122334455667788 0) =
    some [(0x200, 0x88), (0x201, 0x77), (0x202, 0x66), (0x203, 0x55)] := by
  decide +kernel

theorem test_storer4_writes :
    see State.mem (.storer4 1 2)
      (ab 0x1122334455667788 0x200) =
    some [(0x200, 0x88), (0x201, 0x77), (0x202, 0x66), (0x203, 0x55)] := by
  decide +kernel

theorem test_load8_reads :
    see (fun t => t.x 1) (.load8 1 0x100)
      ((ab 0xFFFFFFFFFFFFFFFF 0).poke 0x100 [0xFF, 0xEE, 0xDD, 0xCC, 0xBB, 0xAA, 0x99, 0x88]) =
    some 0x8899AABBCCDDEEFF := by
  decide +kernel

theorem test_loadr8_reads :
    see (fun t => t.x 1) (.loadr8 1 2)
      ((ab 0xFFFFFFFFFFFFFFFF 0x100).poke 0x100 [0xFF, 0xEE, 0xDD, 0xCC, 0xBB, 0xAA, 0x99, 0x88]) =
    some 0x8899AABBCCDDEEFF := by
  decide +kernel

theorem test_store8_writes :
    see State.mem (.store8 1 0x200)
      (ab 0x1122334455667788 0) =
    some [(0x200, 0x88), (0x201, 0x77), (0x202, 0x66), (0x203, 0x55), (0x204, 0x44), (0x205, 0x33), (0x206, 0x22), (0x207, 0x11)] := by
  decide +kernel

theorem test_storer8_writes :
    see State.mem (.storer8 1 2)
      (ab 0x1122334455667788 0x200) =
    some [(0x200, 0x88), (0x201, 0x77), (0x202, 0x66), (0x203, 0x55), (0x204, 0x44), (0x205, 0x33), (0x206, 0x22), (0x207, 0x11)] := by
  decide +kernel

theorem test_load2_out_of_range :
    see (fun t => (t.fault, t.running, t.regs == (ab 0x1122 0xFFFFFFFFFFFFFFFF).regs, t.mem)) (.load2 1 0xFFFF)
      (ab 0x1122 0xFFFFFFFFFFFFFFFF) =
    some (some ⟨.addressError, 0, none, some 0xFFFF⟩, false, true, []) := by
  decide +kernel

theorem test_loadr1_does_not_wrap :
    see (fun t => (t.fault, t.running, t.regs == (ab 0x1122 0xFFFFFFFFFFFFFFFF).regs, t.mem)) (.loadr1 1 2)
      (ab 0x1122 0xFFFFFFFFFFFFFFFF) =
    some (some ⟨.addressError, 0, none, some 0xFFFFFFFFFFFFFFFF⟩, false, true, []) := by
  decide +kernel

theorem test_store8_out_of_range :
    see (fun t => (t.fault, t.running, t.regs == (ab 0x1122 0xFFFFFFFFFFFFFFFF).regs, t.mem)) (.store8 1 0xFFF9)
      (ab 0x1122 0xFFFFFFFFFFFFFFFF) =
    some (some ⟨.addressError, 0, none, some 0xFFF9⟩, false, true, []) := by
  decide +kernel

theorem test_storer8_same_register :
    see State.mem (.storer8 2 2)
      (ab 0 0x300) =
    some [(0x301, 0x03)] := by
  decide +kernel

theorem test_loadv_minus_one :
    see (fun t => t.x 1) (.loadv 1 0xFFFFFFFFFFFFFFFF)
      (ab 0 0) =
    some 0xFFFFFFFFFFFFFFFF := by
  decide +kernel

theorem test_mov_from_sp :
    see (fun t => t.x 1) (.mov 1 15)
      (stack 0x8000 5) =
    some 0x8000 := by
  decide +kernel

theorem test_clear_clears_flags :
    see (fun t => (t.x 1, t.flags)) (.clear 1)
      (ab 99 0) =
    some (0, ⟨false, false, false, false⟩) := by
  decide +kernel

/-! ### Jumps, calls and the stack (43_control_stack.md; W2 to W4, D-CTRL, D-STACK) -/

/-- A jump taken and not taken, at the flags ZNCV. -/
def jumps (i : Word → Instr) (z n c v : Bool) : Option Bool :=
  see (fun t => t.pc == 0x40) (i 0x40) { State.reset with pc := 0x20, flags := ⟨z, n, c, v⟩ }

theorem test_jmp_predicate :
    jumps .jmp false false false false = some true ∧
    jumps .jmp false false false true = some true ∧
    jumps .jmp false true false true = some true ∧
    jumps .jmp true true true false = some true := by decide

theorem test_jeq_predicate :
    jumps .jeq false false false false = some false ∧
    jumps .jeq false false false true = some false ∧
    jumps .jeq false true false true = some false ∧
    jumps .jeq true true true false = some true := by decide

theorem test_jne_predicate :
    jumps .jne false false false false = some true ∧
    jumps .jne false false false true = some true ∧
    jumps .jne false true false true = some true ∧
    jumps .jne true true true false = some false := by decide

theorem test_jmi_predicate :
    jumps .jmi false false false false = some false ∧
    jumps .jmi false false false true = some false ∧
    jumps .jmi false true false true = some true ∧
    jumps .jmi true true true false = some true := by decide

theorem test_jpl_predicate :
    jumps .jpl false false false false = some true ∧
    jumps .jpl false false false true = some true ∧
    jumps .jpl false true false true = some false ∧
    jumps .jpl true true true false = some false := by decide

theorem test_jcs_predicate :
    jumps .jcs false false false false = some false ∧
    jumps .jcs false false false true = some false ∧
    jumps .jcs false true false true = some false ∧
    jumps .jcs true true true false = some true := by decide

theorem test_jcc_predicate :
    jumps .jcc false false false false = some true ∧
    jumps .jcc false false false true = some true ∧
    jumps .jcc false true false true = some true ∧
    jumps .jcc true true true false = some false := by decide

theorem test_jlt_predicate :
    jumps .jlt false false false false = some false ∧
    jumps .jlt false false false true = some true ∧
    jumps .jlt false true false true = some false ∧
    jumps .jlt true true true false = some true := by decide

theorem test_jge_predicate :
    jumps .jge false false false false = some true ∧
    jumps .jge false false false true = some false ∧
    jumps .jge false true false true = some true ∧
    jumps .jge true true true false = some false := by decide

/-- CALL 0x100 at 0x40, whose fetch has moved pc to 0x50. -/
theorem test_call_pushes :
    see (fun t => (t.pc, t.sp, t.mem)) (.call 0x100)
      { stack 0x8000 0 with pc := 0x50 } =
    some (0x100, 0x8008, [(0x8000, 0x50)]) := by
  decide +kernel

theorem test_call_overflow :
    see (fun t => (t.pc, t.sp, t.mem, t.fault)) (.call 0x100)
      { stack 0xFFF9 0 with pc := 0x50, ipc := 0x40 } =
    some (0x40, 0xFFF9, [], some ⟨.stackOverflow, 0x40, none, some 0xFFF9⟩) := by
  decide +kernel

theorem test_ret_pops :
    see (fun t => (t.pc, t.sp)) .ret ((stack 0x8008 0).poke 0x8000 [0x50]) = some (0x50, 0x8000) := by
  decide +kernel

theorem test_ret_past_memory :
    see (fun t => (t.sp, t.fault)) .ret (stack 0x10010 0) =
    some (0x10010, some ⟨.addressError, 0, none, some 0x10008⟩) := by
  decide +kernel

theorem test_push1_stores :
    see (fun t => (t.sp, t.mem)) (.push1 1)
      (stack 0x8000 0x1122334455667788) =
    some (0x8001, [(0x8000, 0x88)]) := by
  decide +kernel

theorem test_pop1_loads :
    see (fun t => (t.sp, t.x 1)) (.pop1 1)
      ((stack 0x8001 0xFFFFFFFFFFFFFFFF).poke 0x8000 [0x88, 0x77, 0x66, 0x55, 0x44, 0x33, 0x22, 0x11]) =
    some (0x8000, 0x88) := by
  decide +kernel

theorem test_push2_stores :
    see (fun t => (t.sp, t.mem)) (.push2 1)
      (stack 0x8000 0x1122334455667788) =
    some (0x8002, [(0x8000, 0x88), (0x8001, 0x77)]) := by
  decide +kernel

theorem test_pop2_loads :
    see (fun t => (t.sp, t.x 1)) (.pop2 1)
      ((stack 0x8002 0xFFFFFFFFFFFFFFFF).poke 0x8000 [0x88, 0x77, 0x66, 0x55, 0x44, 0x33, 0x22, 0x11]) =
    some (0x8000, 0x7788) := by
  decide +kernel

theorem test_push4_stores :
    see (fun t => (t.sp, t.mem)) (.push4 1)
      (stack 0x8000 0x1122334455667788) =
    some (0x8004, [(0x8000, 0x88), (0x8001, 0x77), (0x8002, 0x66), (0x8003, 0x55)]) := by
  decide +kernel

theorem test_pop4_loads :
    see (fun t => (t.sp, t.x 1)) (.pop4 1)
      ((stack 0x8004 0xFFFFFFFFFFFFFFFF).poke 0x8000 [0x88, 0x77, 0x66, 0x55, 0x44, 0x33, 0x22, 0x11]) =
    some (0x8000, 0x55667788) := by
  decide +kernel

theorem test_push8_stores :
    see (fun t => (t.sp, t.mem)) (.push8 1)
      (stack 0x8000 0x1122334455667788) =
    some (0x8008, [(0x8000, 0x88), (0x8001, 0x77), (0x8002, 0x66), (0x8003, 0x55), (0x8004, 0x44), (0x8005, 0x33), (0x8006, 0x22), (0x8007, 0x11)]) := by
  decide +kernel

theorem test_pop8_loads :
    see (fun t => (t.sp, t.x 1)) (.pop8 1)
      ((stack 0x8008 0xFFFFFFFFFFFFFFFF).poke 0x8000 [0x88, 0x77, 0x66, 0x55, 0x44, 0x33, 0x22, 0x11]) =
    some (0x8000, 0x1122334455667788) := by
  decide +kernel

theorem test_push8_of_sp :
    see (fun t => (t.sp, t.mem)) (.push8 15)
      (stack 0x8000 0) =
    some (0x8008, [(0x8001, 0x80)]) := by
  decide +kernel

theorem test_push4_to_the_end :
    see (fun t => (t.sp, t.fault)) (.push4 1)
      (stack 0xFFFC 0) =
    some (0x10000, none) := by
  decide +kernel

theorem test_pop8_into_sp :
    see (fun t => t.sp) (.pop8 15)
      ((stack 0x8008 0).poke 0x8000 [0x00, 0x10]) =
    some 0x1000 := by
  decide +kernel

theorem test_pop4_underflow :
    see (fun t => (t.sp, t.fault)) (.pop4 1)
      (stack 3 0) =
    some (3, some ⟨.stackUnderflow, 0, none, some 3⟩) := by
  decide +kernel

theorem test_pop4_floor :
    see (fun t => (t.sp, t.fault)) (.pop4 1)
      { stack 0x1003 0 with cfg := { Config.defaults with stackFloor := 0x1000 } } =
    some (0x1003, some ⟨.stackUnderflow, 0, none, some 0x1003⟩) := by
  decide +kernel

/-! ### I/O (D-IO) -/

/-- A Screen at 0x30 whose last value is 15, and a Keyboard at 0x40. -/
def withDevices (q : List Word) (a : Word) : State :=
  { ab a 0 with io := [(0x30, .screen 15), (0x40, .keyboard q)] }

theorem test_svio_screen :
    see State.io (.svio 1 0x30)
      (withDevices [] 7) =
    some [(0x30, .screen 7), (0x40, .keyboard [])] := by
  decide +kernel

theorem test_svio_unmapped :
    see (fun t => (t.io, t.warnings)) (.svio 1 0x99)
      (withDevices [] 7) =
    some ([(0x30, .screen 15), (0x40, .keyboard [])], [.unmappedIoWrite]) := by
  decide +kernel

theorem test_loadio_keyboard :
    see (fun t => (t.x 1, t.io)) (.loadio 1 0x40)
      (withDevices [65, 66] 7) =
    some (65, [(0x30, .screen 15), (0x40, .keyboard [66])]) := by
  decide +kernel

theorem test_loadio_screen :
    see (fun t => (t.x 1, t.io, t.warnings)) (.loadio 1 0x30)
      (withDevices [] 7) =
    some (0, [(0x30, .screen 15), (0x40, .keyboard [])], [.unmappedIoRead]) := by
  decide +kernel

theorem test_showio_screen :
    see (fun t => (t.ioCalls, t.warnings)) (.showio 0x30)
      (withDevices [] 7) =
    some ([.shown 0x30], []) := by
  decide +kernel

theorem test_showio_unmapped :
    see (fun t => (t.ioCalls, t.warnings)) (.showio 0x99)
      (withDevices [] 7) =
    some ([], [.unmappedIoShow]) := by
  decide +kernel

/-! ### System (D-SYS) and the step (W7, D-EXC, 70_reset_and_hazards.md) -/

theorem test_parar_halts :
    see (fun t => (t.running, t.fault, t.pc)) (.parar)
      ({ State.reset with pc := 0x70 }) =
    some (false, none, 0x70) := by
  decide +kernel

theorem test_nop_nothing :
    see (fun t => decide (t = ab 1 2)) (.nop)
      (ab 1 2) =
    some true := by
  decide +kernel

theorem test_setz_one_flag :
    see State.flags (.setz)
      ({ State.reset with flags := ⟨false, true, true, false⟩ }) =
    some ⟨true, true, true, false⟩ := by
  decide

theorem test_clrz_one_flag :
    see State.flags (.clrz)
      ({ State.reset with flags := ⟨true, false, false, false⟩ }) =
    some ⟨false, false, false, false⟩ := by
  decide

theorem test_setn_one_flag :
    see State.flags (.setn)
      ({ State.reset with flags := ⟨false, false, false, false⟩ }) =
    some ⟨false, true, false, false⟩ := by
  decide

theorem test_clrn_one_flag :
    see State.flags (.clrn)
      ({ State.reset with flags := ⟨false, true, false, true⟩ }) =
    some ⟨false, false, false, true⟩ := by
  decide

theorem test_setc_one_flag :
    see State.flags (.setc)
      ({ State.reset with flags := ⟨false, false, false, false⟩ }) =
    some ⟨false, false, true, false⟩ := by
  decide

theorem test_clrc_one_flag :
    see State.flags (.clrc)
      ({ State.reset with flags := ⟨false, false, true, false⟩ }) =
    some ⟨false, false, false, false⟩ := by
  decide

theorem test_setv_one_flag :
    see State.flags (.setv)
      ({ State.reset with flags := ⟨false, false, false, false⟩ }) =
    some ⟨false, false, false, true⟩ := by
  decide

theorem test_clrv_one_flag :
    see State.flags (.clrv)
      ({ State.reset with flags := ⟨true, false, false, true⟩ }) =
    some ⟨true, false, false, false⟩ := by
  decide

/-- From reset, with DIV8 R1, R2 placed: by zero, flags 1001, pc past the word, no fault (W7). -/
theorem test_step_div_by_zero :
    stepped (fun t => (t.x 1, t.flags, t.pc, t.fault))
      (State.withFetchWord { State.reset with regs := resetRegs.set 1 7 } 64 0x021F000000000012) =
    some (0, ⟨true, false, false, true⟩, 8, none) := by
  decide +kernel

/-- A 16-byte instruction moves pc by 16, and a step leaves no transient record (R97, R311). -/
theorem test_step_loadv :
    stepped (fun t => (t.x 1, t.pc, t.ipc, t.inst))
      (State.reset.withFetchWord 128 (0x0300100000000000 + 5 * 2 ^ 64)) =
    some (5, 16, 0, none) := by
  decide +kernel

/-- With nothing placed, the first step from reset reads zeros, which are PARAR, and halts (D-DEC). -/
theorem test_step_from_bare_reset :
    stepped (fun t => (t.running, t.fault, t.pc)) State.reset = some (false, none, 8) := by
  decide +kernel

/-- Under the other map the same zeros are NOP, and the core runs on (00_scope.md R4, OPCODE_MAP). -/
theorem test_step_other_map :
    stepped (fun t => (t.running, t.fault, t.pc))
      { State.reset with cfg := { Config.defaults with opcodeMap := swappedMap } } =
    some (true, none, 8) := by
  decide +kernel

/-- pc = 0xFFF9: AddressError on the fetch, with no opcode (D-DEC). -/
theorem test_step_fetch_out_of_range :
    stepped (fun t => (t.fault, t.running, t.pc)) { State.reset with pc := 0xFFF9 } =
    some (some ⟨.addressError, 0xFFF9, none, some 0xFFF9⟩, false, 0xFFF9) := by
  decide +kernel

/-- An RI word at 0xFFF8: AddressError(0x10000) with its opcode, pc as before (D-DEC, R288). -/
theorem test_step_immediate_out_of_range :
    stepped (fun t => (t.fault, t.pc))
      (State.poke { State.reset with pc := 0xFFF8 } 0xFFF8 (bytesLE 8 0x0300100000000000)) =
    some (some ⟨.addressError, 0xFFF8, some 0x0300, some 0x10000⟩, 0xFFF8) := by
  decide +kernel

/-- An undefined opcode at 0xFFF8: DecodeError comes first (D-DEC, R288). -/
theorem test_step_undefined_opcode_first :
    stepped (fun t => (t.fault, t.pc))
      (State.poke { State.reset with pc := 0xFFF8 } 0xFFF8 (bytesLE 8 0x0302000000000000)) =
    some (some ⟨.decodeError, 0xFFF8, some 0x0302, none⟩, 0xFFF8) := by
  decide +kernel

/-- `run(0)` on a Running core: RunawayProgram at once, with no step (D-EXC). -/
theorem test_step_runaway_at_zero :
    stepped (fun t => (t.fault, t.running, t.pc)) (State.reset.callRun 0) =
    some (some ⟨.runawayProgram, 0, none, none⟩, false, 0) := by
  decide +kernel

/-- A Halted core does not step; the host may set it running again (D-EXC, R298). -/
theorem test_step_halted :
    stepped (fun t => decide (t = { State.reset with running := false }))
      { State.reset with running := false } = some true ∧
    (State.hostRunning { State.reset with running := false } true).isRunning = true := by
  decide +kernel

/-! ### Witnesses: a state and operands that meet each obligation's hypotheses together -/

/-- Reset with the word of NOP placed. -/
def nopPlaced : State := State.reset.withFetchWord 64 0x0001000000000000

/-- What the word of NOP decodes to. -/
def nopDecoded : Decoded := ⟨⟨0x0001, .op, none, none, none⟩, .nop⟩

theorem test_witness_DecodeIgnoresUnusedBits :
    formatOf opcodeTable (opcodeField 0x0213000000000021) = some .rr ∧
    opcodeField 0x0213FF0000000021 = opcodeField 0x0213000000000021 ∧
    (0x0213FF0000000021 : Word).toNat % 256 = (0x0213000000000021 : Word).toNat % 256 ∧
    formatOf opcodeTable (opcodeField 0x0100A00000000000) = some .r ∧
    opcodeField 0x0100A0000000FFFF = opcodeField 0x0100A00000000000 ∧
    (0x0100A0000000FFFF : Word).toNat / 2 ^ 44 % 16 =
      (0x0100A00000000000 : Word).toNat / 2 ^ 44 % 16 := by
  decide +kernel

theorem test_witness_DecodeIgnoresUnusedBits_jump :
    lookupOpcode opcodeTable (opcodeField 0x0320700000000000) = some .jmp ∧
    opcodeField 0x0320000000000000 = opcodeField 0x0320700000000000 ∧
    (∃ d, decode opcodeTable 0x0320700000000000 (some 0x40) = .ok d) ∧
    (∃ d, decode opcodeTable 0x0320000000000000 (some 0x40) = .ok d) :=
  ⟨by decide, by decide, ⟨_, rfl⟩, ⟨_, rfl⟩⟩

/-- The map of R91 is complete, and so is one that lists other numbers before it. -/
theorem test_witness_EncodeThenDecodeGivesTheInstruction :
    opcodeTable.Complete ∧ OpcodeMap.Complete ((0x1234, .add8) :: opcodeTable) :=
  ⟨fun m => by cases m <;> rfl, fun m => by cases m <;> rfl⟩

theorem test_witness_OpcodesOutsideTheMapAreRejected :
    (∀ (w : Word) (next : Option Word), opcodeField w = 0x0343 →
      decode opcodeTable w next = .error (.unknownOpcode 0x0343)) := by
  intro w next h
  have e : lookupOpcode opcodeTable (opcodeField w) = none := by rw [h]; rfl
  simp only [decode, e]
  rw [h]

theorem test_witness_DecodedRecordHoldsTheFields :
    (∃ d, decode opcodeTable 0x0100A00000000000 none = .ok d ∧ d.record.format = .r) ∧
    (∃ d, decode opcodeTable 0x0213000000000021 none = .ok d ∧ d.record.format = .rr) ∧
    (∃ d, decode opcodeTable 0x0300F00000000000 (some 5) = .ok d ∧ d.record.format = .ri) :=
  ⟨⟨_, rfl, rfl⟩, ⟨_, rfl, rfl⟩, ⟨_, rfl, rfl⟩⟩

theorem test_witness_StepRunsTheDecodedInstruction :
    nopPlaced.fault = none ∧ nopPlaced.running = true ∧ nopPlaced.ceilingReached = false ∧
    nopPlaced.memRead nopPlaced.pc .b8 = some 0x0001000000000000 ∧
    decode nopPlaced.cfg.opcodeMap 0x0001000000000000 (nopPlaced.memRead (nopPlaced.pc + 8) .b8) = .ok nopDecoded :=
  ⟨rfl, rfl, rfl, by decide +kernel, rfl⟩

/-- The last pc at which a word can be fetched is 0xFFF8: 0xFFF9 meets the first clause. -/
theorem test_witness_FetchAndDecodeErrorsAreFatal_fetch :
    let s : State := { State.reset with pc := 0xFFF9 }
    s.fault = none ∧ s.running = true ∧ s.ceilingReached = false ∧
      s.cfg.memSize < s.pc.toNat + 8 := by
  decide +kernel

theorem test_witness_FetchAndDecodeErrorsAreFatal_opcode :
    let s := State.reset.withFetchWord 64 0x0003000000000000
    s.fault = none ∧ s.running = true ∧ s.ceilingReached = false ∧
      s.memRead s.pc .b8 = some 0x0003000000000000 ∧
      formatOf s.cfg.opcodeMap (opcodeField 0x0003000000000000) = none :=
  ⟨rfl, rfl, rfl, by decide +kernel, rfl⟩

theorem test_witness_FetchAndDecodeErrorsAreFatal_immediate :
    let s : State := State.poke { State.reset with pc := 0xFFF8 } 0xFFF8 (bytesLE 8 0x0300000000000000)
    s.fault = none ∧ s.running = true ∧ s.ceilingReached = false ∧
      s.memRead s.pc .b8 = some 0x0300000000000000 ∧ s.memRead (s.pc + 8) .b8 = none ∧
      formatOf s.cfg.opcodeMap (opcodeField 0x0300000000000000) = some .ri :=
  ⟨rfl, rfl, rfl, by decide +kernel, by decide +kernel, rfl⟩

/-- A state after a fatal error. -/
def faultedState : State := State.reset.fatal .addressError none (some 0)

theorem test_witness_StoppedCoreDoesNotStep :
    faultedState.fault = some ⟨.addressError, 0, none, some 0⟩ ∧
    (let s : State := { State.reset with running := false }
     s.fault = none ∧ s.running = false) := by
  decide

theorem test_witness_RunawayExactlyAtTheCeiling :
    (let s : State := { State.reset with call := some ⟨5, 5⟩ }
     s.fault = none ∧ s.running = true ∧ s.call = some ⟨5, 5⟩) ∧
    (let s : State := { State.reset with call := some ⟨5, 4⟩ }
     s.fault = none ∧ (∀ c, s.call = some c → c.cycles < c.maxCycles) ∧
       (stepped (fun t => t.call) s) = some (some ⟨5, 5⟩)) := by
  refine ⟨⟨rfl, rfl, rfl⟩, rfl, ?_, by decide +kernel⟩
  intro c h
  cases h
  decide

theorem test_witness_RunStopsWithinItsCeiling : State.reset.fault = none := rfl

theorem test_witness_EveryStepKeepsTheInvariant :
    State.reset.Inv ∧ ∃ t, step State.reset = .next t :=
  ⟨⟨rfl, rfl, fun h => absurd rfl h, by simp [State.reset], rfl, fun c h => by cases h⟩, ⟨_, rfl⟩⟩

/-- A launch with one byte at the last address and two devices. -/
def someLaunch : Launch :=
  { cfg := Config.defaults, io := [(0x30, .screen 0), (0x40, .keyboard [])], mem := [(0xFFFF, 1)]
    pc := 0x100, regs := resetRegs, flags := ⟨true, false, false, true⟩ }

theorem test_witness_LaunchAndResetMeetTheInvariant :
    someLaunch.mem.wf = true ∧ someLaunch.mem.below someLaunch.cfg.memSize = true ∧
    (someLaunch.io.map Prod.fst).Nodup := by
  decide

theorem test_witness_ParametersAndRegistryNeverChange : ∃ t, step State.reset = .next t := ⟨_, rfl⟩

/-- DIV8 R1, R2 by zero: an ordinary step that changes the flags and a register. -/
def divStep : State := State.reset.withFetchWord 64 0x021F000000000012

theorem test_witness_step_changes_state :
    stepped (fun t => decide (t.flags = divStep.flags)) divStep = some false := by
  decide +kernel

/-- A step that raises an error while it executes: RET with SP = 7. -/
theorem test_witness_FatalErrorsArePrecise :
    let s := State.withFetchWord (stack 7 0) 64 0x0002000000000000
    s.fault = none ∧ stepped (fun t => t.fault) s =
      some (some ⟨.stackUnderflow, 0, some 0x0002, some 7⟩) := by
  decide +kernel

theorem test_witness_OnlyPararHalts :
    State.reset.running = true ∧
    see State.running .parar State.reset = some false ∧
    see State.running .ret State.reset = some false := by
  decide +kernel

theorem test_witness_OnlyListedRegistersChange :
    (∃ t, exec (.add8 1 2) (ab 3 4) = .next t) ∧ (2 : Reg) ∉ Forms.writesRegs (.add8 1 2) ∧
    (∃ t, exec (.pop8 1) (stack 8 0) = .next t) ∧ (2 : Reg) ∉ Forms.writesRegs (.pop8 1) :=
  ⟨⟨_, rfl⟩, by decide, ⟨_, rfl⟩, by decide⟩

theorem test_witness_OnlyListedFlagsChange :
    (∃ t, exec .setz State.reset = .next t) ∧ FlagName.n ∉ Forms.writesFlags .setz :=
  ⟨⟨_, rfl⟩, by decide⟩

/-- The bytes just below and just above the four that STORE4 writes at 0x200. -/
theorem test_witness_OnlyStoredBytesChange :
    (ab 1 2).mem.wf = true ∧ (∃ t, exec (.store4 1 0x200) (ab 1 2) = .next t) ∧
    Forms.storesTo (.store4 1 0x200) (ab 1 2) = some (0x200, 4) ∧
    (0x1FF < 0x200 ∨ 0x200 + 4 ≤ 0x1FF) ∧ (0x204 < 0x200 ∨ 0x200 + 4 ≤ 0x204) ∧
    Forms.storesTo (.call 0x40) (stack 0x8000 0) = some (0x8000, 8) :=
  ⟨rfl, ⟨_, rfl⟩, rfl, by decide, by decide, rfl⟩

theorem test_witness_OnlyIoInstructionsReachDevices :
    (∃ t, exec (.add8 1 2) (ab 3 4) = .next t) ∧ Forms.reachesIo (.add8 1 2) = false ∧
    Forms.fpWarns (.add8 1 2) = false ∧ Forms.reachesIo (.fdiv8 1 2) = false :=
  ⟨⟨_, rfl⟩, rfl, rfl, rfl⟩

theorem test_witness_ControlStateFrame :
    (∃ t, exec (.jmp 0x40) State.reset = .next t) ∧
    exec .ret State.reset = .next (Forms.faulted State.reset .stackUnderflow 0) := by
  exact ⟨⟨_, rfl⟩, by rfl⟩

theorem test_witness_CompareOrdersTheOperands :
    ∃ t, exec (Forms.cmp .b1 1 2) (ab 0x1FF 0x2FE) = .next t := ⟨_, rfl⟩

theorem test_witness_SizedRegisterPorts : (1 : Reg) ≠ 15 := by decide

theorem test_witness_ShiftsFollowTheirLaws : State.reset.cfg.shiftMode = .self := rfl

/-- 1.0 and 3.0 in binary64, the largest finite binary32 value, and zero: finite patterns. -/
theorem test_witness_SumsAndProductsAreCorrectlyRounded :
    0x3FF0000000000000 < 2 ^ Forms.fpBits .binary64 ∧
    Forms.IsFinite .binary64 0x3FF0000000000000 ∧ Forms.IsFinite .binary64 0x4008000000000000 ∧
    Forms.IsFinite .binary32 0x7F7FFFFF ∧ Forms.IsFinite .binary32 0 := by
  unfold Forms.IsFinite
  decide +kernel

theorem test_witness_QuotientsAreCorrectlyRounded :
    Forms.IsFinite .binary64 0x3FF0000000000000 ∧ Forms.IsFinite .binary64 0x4008000000000000 ∧
    ¬Forms.IsZero .binary64 0x4008000000000000 := by
  unfold Forms.IsFinite Forms.IsZero
  decide +kernel

theorem test_witness_RootsAreCorrectlyRounded :
    Forms.IsFinite .binary64 0x4000000000000000 ∧
    Forms.signBit .binary64 0x4000000000000000 = false := by
  unfold Forms.IsFinite
  decide +kernel

/-- Every kind of invalid operation has operands: the two infinities, zero and minus one in binary32. -/
theorem test_witness_NanExactlyForNanOrInvalid :
    0xFF800000 < 2 ^ Forms.fpBits .binary32 ∧
    Forms.IsInf .binary32 0x7F800000 ∧ Forms.IsInf .binary32 0xFF800000 ∧
    Forms.signBit .binary32 0x7F800000 ≠ Forms.signBit .binary32 0xFF800000 ∧
    Forms.IsZero .binary32 0x80000000 ∧ Forms.IsNan .binary32 0x7F800001 ∧
    Forms.signBit .binary32 0xBF800000 = true ∧ ¬Forms.IsZero .binary32 0xBF800000 := by
  unfold Forms.IsInf Forms.IsNan Forms.IsZero
  decide +kernel

theorem test_witness_FpDivisionByZeroGivesInfinity :
    ¬Forms.IsNan .binary64 0x3FF0000000000000 ∧ ¬Forms.IsZero .binary64 0x3FF0000000000000 ∧
    Forms.IsZero .binary64 0x8000000000000000 ∧
    ¬Forms.IsNan .binary64 0x7FF0000000000000 ∧ ¬Forms.IsZero .binary64 0x7FF0000000000000 := by
  unfold Forms.IsNan Forms.IsZero
  decide +kernel

/-- The two infinities of binary64 with operands for each clause: an infinity of either sign, a finite value,
a nonzero value that is no NaN, and zero at the edge of the finite values. -/
theorem test_witness_InfinitiesAndZeroSigns_infinities :
    Forms.IsInf .binary64 0x7FF0000000000000 ∧ Forms.IsInf .binary64 0xFFF0000000000000 ∧
    0xFFF0000000000000 < 2 ^ Forms.fpBits .binary64 ∧
    Forms.signBit .binary64 0x7FF0000000000000 ≠ Forms.signBit .binary64 0xFFF0000000000000 ∧
    Forms.IsFinite .binary64 0x7FEFFFFFFFFFFFFF ∧ Forms.IsFinite .binary64 0x8000000000000000 ∧
    ¬Forms.IsNan .binary64 1 ∧ ¬Forms.IsZero .binary64 1 ∧
    ¬Forms.IsNan .binary64 0xFFF0000000000000 ∧ ¬Forms.IsZero .binary64 0xFFF0000000000000 := by
  unfold Forms.IsInf Forms.IsNan Forms.IsFinite Forms.IsZero
  decide +kernel

theorem test_witness_InfinitiesAndZeroSigns :
    (Forms.IsFinite .binary64 0x3FF0000000000000 ∧
      Forms.signBit .binary64 0x3FF0000000000000 ≠ Forms.signBit .binary64 0xBFF0000000000000 ∧
      0x3FF0000000000000 % 2 ^ (Forms.fpBits .binary64 - 1) =
        0xBFF0000000000000 % 2 ^ (Forms.fpBits .binary64 - 1)) ∧
    (Forms.IsInf .binary64 0xFFF0000000000000 ∧ Forms.IsFinite .binary64 0) ∧
    ¬Forms.IsNan .binary64 (fpMul Config.defaults .binary64 0x3FF0000000000000 0xBFF0000000000000) ∧
    ¬Forms.IsNan .binary64 (fpDiv Config.defaults .binary64 0x3FF0000000000000 0xBFF0000000000000) := by
  unfold Forms.IsInf Forms.IsNan Forms.IsFinite
  decide +kernel

theorem test_witness_SinAndCosKeepTheirProperties :
    ¬Forms.IsFinite .binary64 0xFFF0000000000000 ∧ Forms.IsZero .binary64 0x8000000000000000 ∧
    Forms.IsFinite .binary64 0x3FF0000000000000 := by
  unfold Forms.IsZero Forms.IsFinite
  decide +kernel

/-- The last address at which eight bytes can be loaded or stored, and the first at which they cannot. -/
theorem test_witness_memory_bounds :
    (0xFFF8 : Word).toNat + Size.b8.bytes ≤ State.reset.cfg.memSize ∧
    State.reset.cfg.memSize < (0xFFF9 : Word).toNat + Size.b8.bytes ∧
    (0xFFFF : Word).toNat + Size.b1.bytes ≤ State.reset.cfg.memSize ∧
    State.reset.cfg.memSize < (0x10000 : Word).toNat + Size.b1.bytes := by
  decide

theorem test_witness_LoadsReadLittleEndianBytes :
    ((ab 0 0xFFF8).x 2).toNat + Size.b8.bytes ≤ (ab 0 0xFFF8).cfg.memSize := by decide

theorem test_witness_StoresWriteLittleEndianBytes :
    (ab 0 0xFFFE).mem.wf = true ∧
    ((ab 0 0xFFFE).x 2).toNat + Size.b2.bytes ≤ (ab 0 0xFFFE).cfg.memSize := by decide

theorem test_witness_OutOfRangeAccessIsAddressError :
    (ab 0 0xFFFF).cfg.memSize < ((ab 0 0xFFFF).x 2).toNat + Size.b2.bytes := by decide

theorem test_witness_MemoryPortsReadAndWrite :
    State.reset.mem.wf = true ∧
    (0xFFF8 : Word).toNat + Size.b8.bytes ≤ State.reset.cfg.memSize ∧
    State.reset.cfg.memSize < (0xFFF9 : Word).toNat + Size.b8.bytes := by decide

/-- The last SP at which eight bytes can be pushed (D-CTRL: SP = 0xFFF8 is legal). -/
theorem test_witness_CallPushesTheReturnAddress :
    (stack 0xFFF8 0).mem.wf = true ∧
    (stack 0xFFF8 0).sp.toNat + 8 ≤ (stack 0xFFF8 0).cfg.memSize := by decide

/-- The least and the greatest SP at which RET can read (SP = 8 and SP = MEM_SIZE). -/
theorem test_witness_RetPopsThePc :
    (stack 8 0).cfg.stackFloor + 8 ≤ (stack 8 0).sp.toNat ∧
    (stack 0x10000 0).sp.toNat ≤ (stack 0x10000 0).cfg.memSize ∧
    (stack 8 0).sp.toNat ≤ (stack 8 0).cfg.memSize := by decide

theorem test_witness_CallThenRetReturns :
    let s := stack 0xFFF8 0
    s.mem.wf = true ∧ s.cfg.memSize < 2 ^ 64 ∧ s.cfg.stackFloor ≤ s.sp.toNat ∧
      s.sp.toNat + 8 ≤ s.cfg.memSize ∧ ∃ t, exec (.call 0x100) s = .next t :=
  ⟨rfl, by decide, by decide, by decide, ⟨_, rfl⟩⟩

theorem test_witness_PushStoresAtSp :
    (stack 0xFFFC 0).mem.wf = true ∧
    (stack 0xFFFC 0).sp.toNat + Size.b4.bytes ≤ (stack 0xFFFC 0).cfg.memSize := by decide

theorem test_witness_PopLoadsBelowSp :
    (stack 4 0).cfg.stackFloor + Size.b4.bytes ≤ (stack 4 0).sp.toNat ∧
    (stack 4 0).sp.toNat ≤ (stack 4 0).cfg.memSize := by decide

theorem test_witness_PushThenPopMovesTheValue :
    let s := stack 0xFFFE 0xAABB
    s.mem.wf = true ∧ s.cfg.memSize < 2 ^ 64 ∧ s.cfg.stackFloor ≤ s.sp.toNat ∧
      s.sp.toNat + Size.b2.bytes ≤ s.cfg.memSize ∧ (5 : Reg) ≠ 15 ∧
      ∃ t, exec (Forms.push .b2 1) s = .next t :=
  ⟨rfl, by decide, by decide, by decide, by decide, ⟨_, rfl⟩⟩

/-- The six clauses at their boundaries: a push one byte too high, a pop one byte too low, a pop from just
past the end of Memory. -/
theorem test_witness_StackErrorsAreFatal :
    (stack 0xFFFD 0).cfg.memSize < (stack 0xFFFD 0).sp.toNat + Size.b4.bytes ∧
    (stack 0xFFF9 0).cfg.memSize < (stack 0xFFF9 0).sp.toNat + 8 ∧
    (stack 3 0).sp.toNat < (stack 3 0).cfg.stackFloor + Size.b4.bytes ∧
    (stack 7 0).sp.toNat < (stack 7 0).cfg.stackFloor + 8 ∧
    (stack 0x10001 0).cfg.stackFloor + Size.b4.bytes ≤ (stack 0x10001 0).sp.toNat ∧
    (stack 0x10001 0).cfg.stackFloor + 8 ≤ (stack 0x10001 0).sp.toNat ∧
    (stack 0x10001 0).cfg.memSize < (stack 0x10001 0).sp.toNat := by decide

theorem test_witness_DeviceStatesAreSeparate :
    deviceAt (withDevices [65] 7).io 0x40 = some (.keyboard [65]) ∧ (0x30 : Word) ≠ 0x40 := by decide


end Sys2Proof.Tests
end

section
/-! The sized register ports (10_state.md R20 to R22): the statement follows from the value of a mask and the
read-after-write laws of the register file. -/

namespace Sys2Proof.Machine

/-- Settles O22. The read port and the write port both answer a mask, whose value is the low bytes; the write
itself is an update of the one register `i`. -/
theorem sizedRegisterPorts : Obligations.SizedRegisterPorts := by
  intro s i j v z
  have hread : (s.readReg i z).toNat = Forms.low (s.x i) z := s.readReg_toNat i z
  have hwrite : ((s.writeReg i v z).x i).toNat = Forms.low v z := by
    rw [State.writeReg_eq, State.x_setX_same]
    exact mask_toNat v z
  have hframe (hne : j ≠ i) : (s.writeReg i v z).x j = s.x j := by
    rw [State.writeReg_eq, State.x_setX_ne s _ hne]
  exact ⟨hread, hwrite, hframe⟩

end Sys2Proof.Machine
end

section
/-! The Memory ports (20_memory.md R52, R53): the value of the bytes a read answers, and what a write leaves, as
the statements say them. -/

namespace Sys2Proof

theorem Size.pow_bytes (z : Size) : 256 ^ z.bytes = 2 ^ z.bits := by
  rw [z.bits_eq, pow_mul]
  norm_num

namespace Machine

/-- The least significant byte in front of the value of the rest (R52). -/
theorem memValue_succ (s : State) (a k : Nat) :
    Forms.memValue s a (k + 1) = (s.byteAt a).toNat + 256 * Forms.memValue s (a + 1) k := by
  have hterm (i : Nat) : (s.byteAt (a + (i + 1))).toNat * 2 ^ (8 * (i + 1)) =
      256 * ((s.byteAt (a + 1 + i)).toNat * 2 ^ (8 * i)) := by
    rw [Nat.add_comm i 1, ← Nat.add_assoc, Nat.mul_add, pow_add]
    ring
  simp only [Forms.memValue, List.range_succ_eq_map, List.map_cons, List.map_map, Function.comp_def,
    List.sum_cons, Nat.succ_eq_add_one, hterm, List.sum_map_mul_left]
  simp

/-- The bytes read make up the sum of the statements (R52). -/
theorem natOfBytesLE_readBytes (s : State) (a k : Nat) :
    natOfBytesLE (s.mem.readBytes a k) = Forms.memValue s a k := by
  induction k generalizing a with
  | zero => rfl
  | succ k ih => rw [memValue_succ, Memory.readBytes, natOfBytesLE, ih, State.byteAt]

theorem wordOfBytesLE_readBytes (s : State) (a k : Nat) :
    wordOfBytesLE (s.mem.readBytes a k) = BitVec.ofNat 64 (Forms.memValue s a k) := by
  rw [wordOfBytesLE, natOfBytesLE_readBytes]

theorem memValue_lt (s : State) (a : Nat) (z : Size) : Forms.memValue s a z.bytes < 2 ^ z.bits := by
  rw [← natOfBytesLE_readBytes, ← z.pow_bytes]
  simpa only [Memory.readBytes_length] using natOfBytesLE_lt (s.mem.readBytes a z.bytes)

/-- A value of at most eight bytes fits a word, so the read port answers it whole. -/
theorem wordOfBytesLE_readBytes_toNat (s : State) (a : Nat) (z : Size) :
    (wordOfBytesLE (s.mem.readBytes a z.bytes)).toNat = Forms.memValue s a z.bytes := by
  rw [wordOfBytesLE_readBytes, BitVec.toNat_ofNat]
  exact Nat.mod_eq_of_lt ((memValue_lt s a z).trans_le z.pow_bits_le)

/-- The bytes below the operand size do not see the mask: byte `i` of `u(v, sz)` is byte `i` of `v`. -/
theorem uval_div_mod (v : Word) (z : Size) {i : Nat} (hi : i < z.bytes) :
    uval v z / 256 ^ i % 256 = v.toNat / 2 ^ (8 * i) % 256 := by
  have hsplit : 2 ^ z.bits = 256 ^ i * 256 ^ (z.bytes - i) := by
    rw [← z.pow_bytes, ← pow_add, Nat.add_sub_cancel' hi.le]
  have hdvd : 256 ∣ 256 ^ (z.bytes - i) := dvd_pow_self 256 (by omega)
  rw [uval, hsplit, Nat.mod_mul_right_div_self, Nat.mod_mod_of_dvd _ hdvd, pow_mul]
  norm_num

/-- What the write port leaves in Memory, as the statements say it (R53). -/
theorem storedOnly_writeBytes {s : State} (hwf : s.mem.wf = true) (a : Nat) (z : Size) (v : Word) :
    Forms.StoredOnly s (s.mem.writeBytes a (bytesLE z.bytes (uval v z))) a z.bytes v := by
  constructor
  · intro i hi
    rw [Memory.readByte_writeBytes hwf, dif_pos (by simp [hi]), bytesLE_getElem, BitVec.toNat_ofNat,
      Nat.add_sub_cancel_left]
    exact uval_div_mod v z hi
  · intro b hb
    rw [Memory.readByte_writeBytes hwf, dif_neg (by rw [bytesLE_length]; omega), State.byteAt]

/-- A read of the bytes just written gives the masked value. -/
theorem wordOfBytesLE_bytesLE_uval (v : Word) (z : Size) :
    wordOfBytesLE (bytesLE z.bytes (uval v z)) = mask v z := by
  rw [wordOfBytesLE, natOfBytesLE_bytesLE, z.pow_bytes, Nat.mod_eq_of_lt (uval_lt v z), mask]

theorem State.memRead_of_le {s : State} {a : Word} {z : Size} (h : a.toNat + z.bytes ≤ s.cfg.memSize) :
    s.memRead a z = some (wordOfBytesLE (s.mem.readBytes a.toNat z.bytes)) := by
  obtain ⟨-, hread⟩ | ⟨hout, -⟩ := s.memRead_cases a z
  · exact hread
  · omega

theorem State.memRead_of_lt {s : State} {a : Word} {z : Size} (h : s.cfg.memSize < a.toNat + z.bytes) :
    s.memRead a z = none := by
  obtain ⟨hin, -⟩ | ⟨-, hread⟩ := s.memRead_cases a z
  · omega
  · exact hread

theorem State.memWrite_of_le {s : State} {a : Word} {z : Size} (v : Word)
    (h : a.toNat + z.bytes ≤ s.cfg.memSize) : s.memWrite a z v =
      some { s with mem := s.mem.writeBytes a.toNat (bytesLE z.bytes (uval v z)) } := by
  obtain ⟨-, hwrite⟩ | ⟨hout, -⟩ := s.memWrite_cases a z v
  · exact hwrite
  · omega

theorem State.memWrite_of_lt {s : State} {a : Word} {z : Size} (v : Word)
    (h : s.cfg.memSize < a.toNat + z.bytes) : s.memWrite a z v = none := by
  obtain ⟨hin, -⟩ | ⟨-, hwrite⟩ := s.memWrite_cases a z v
  · omega
  · exact hwrite

/-- A read of the size just written answers the value masked to it (R52, R53). -/
theorem State.memRead_writeBytes {s : State} (hwf : s.mem.wf = true) {a : Word} {z : Size} (v : Word)
    (h : a.toNat + z.bytes ≤ s.cfg.memSize) :
    State.memRead { s with mem := s.mem.writeBytes a.toNat (bytesLE z.bytes (uval v z)) } a z =
      some (mask v z) := by
  have hback := Memory.readBytes_writeBytes hwf a.toNat (bytesLE z.bytes (uval v z))
  rw [bytesLE_length] at hback
  rw [State.memRead_of_le (by exact h), hback, wordOfBytesLE_bytesLE_uval]

/-- Settles O46. In range both ports go by the bytes from `a` on, whose little-endian value and whose
read-after-write law the lemmas above give; out of range both answer nothing. -/
theorem memoryPortsReadAndWrite : Obligations.MemoryPortsReadAndWrite := by
  intro s a z v hwf
  constructor
  · intro hin
    have hread := wordOfBytesLE_readBytes_toNat s a.toNat z
    have hstored := storedOnly_writeBytes hwf a.toNat z v
    have hback := State.memRead_writeBytes hwf v hin
    exact ⟨⟨_, State.memRead_of_le hin, hread⟩,
      _, State.memWrite_of_le v hin, hstored, _, hback, mask_toNat v z⟩
  · intro hout
    exact ⟨State.memRead_of_lt hout, State.memWrite_of_lt v hout⟩

end Machine

end Sys2Proof
end

section
/-! ADD and SUB (40_alu_integer.md R112 to R114). At every size the instruction is one law of the integer unit
followed by one register-and-flags write; each of these, and each signed overflow, is said once in the terms of
the statements. -/

namespace Sys2Proof.Machine

/-- The four flags of a result of the unit are those of the statements (R112). -/
theorem aluOut_flags (r : Nat) (z : Size) (c v : Bool) : (aluOut r z c v).flags = Forms.intFlags z r c v := rfl

/-- The end of an integer instruction whose result fits its size, as the statements say it (R119). -/
theorem aluWrite_aluOut {z : Size} {r : Nat} (hr : r < 2 ^ z.bits) (c v : Bool) (rd : Reg) (s : State) :
    aluWrite z rd (aluOut r z c v) s = .next (Forms.wrote s rd r (Forms.intFlags z r c v)) := by
  rw [aluWrite_eq (by exact hr), aluOut_flags]
  rfl

/-- ADD is the add law on the operands of its size (R122). -/
theorem exec_add (z : Size) (rd rs : Reg) (s : State) :
    exec (Forms.add z rd rs) s = aluWrite z rd (aluAdd (s.opnd rd z) (s.opnd rs z) z) s := by
  cases z <;> rfl

/-- SUB is the sub law on the operands of its size (R123). -/
theorem exec_sub (z : Size) (rd rs : Reg) (s : State) :
    exec (Forms.sub z rd rs) s = aluWrite z rd (aluSub (s.opnd rd z) (s.opnd rs z) z) s := by
  cases z <;> rfl

/-- An operand of the unit is the low bytes of its register (R110). -/
theorem State.opnd_eq_low (s : State) (i : Reg) (z : Size) : s.opnd i z = Forms.low (s.x i) z :=
  s.opnd_eq i z

theorem low_lt (v : Word) (z : Size) : Forms.low v z < 2 ^ z.bits := uval_lt v z

/-- Signed overflow of a sum: like signs, and the result's sign is the other one (R113). -/
theorem addOverflow_eq_decide (a b r : Nat) (z : Size) :
    addOverflow a b r z =
      decide (a.testBit (z.bits - 1) = b.testBit (z.bits - 1) ∧
        r.testBit (z.bits - 1) ≠ a.testBit (z.bits - 1)) := by
  simp only [addOverflow, msbOf, Bool.decide_and, Bool.beq_eq_decide_eq, bne, decide_not]

/-- Signed overflow of a difference: unlike signs, and the result's sign is not the minuend's (R114). -/
theorem subOverflow_eq_decide (a b r : Nat) (z : Size) :
    subOverflow a b r z =
      decide (a.testBit (z.bits - 1) ≠ b.testBit (z.bits - 1) ∧
        r.testBit (z.bits - 1) ≠ a.testBit (z.bits - 1)) := by
  simp only [subOverflow, msbOf, Bool.decide_and, Bool.beq_eq_decide_eq, bne, decide_not]

/-- Settles O23. The sum modulo 2^n fits the size, so the write port keeps it whole, and the carry of the unit is
that of the statement by definition. -/
theorem addWritesSumAndFlags : Obligations.AddWritesSumAndFlags := by
  intro z rd rs s n a b r
  have hfits : r < 2 ^ z.bits := Nat.mod_lt _ z.pow_bits_pos
  calc exec (Forms.add z rd rs) s
      = aluWrite z rd (aluAdd a b z) s := by rw [exec_add, State.opnd_eq_low, State.opnd_eq_low]
    _ = .next (Forms.wrote s rd r (Forms.intFlags z r (addCarry a b z) (addOverflow a b r z))) :=
      aluWrite_aluOut hfits _ _ rd s
    _ = _ := by rw [addOverflow_eq_decide]; rfl

/-- Settles O24. The mask of the exact difference is the difference itself, or the difference after a borrow of
2^n; both fit the size. -/
theorem subWritesDifferenceAndFlags : Obligations.SubWritesDifferenceAndFlags := by
  intro z rd rs s n a b r
  have hmask : maskInt ((a : Int) - b) z = r := maskInt_sub (low_lt _ z) (low_lt _ z)
  have hfits : r < 2 ^ z.bits := hmask ▸ maskInt_lt _ z
  calc exec (Forms.sub z rd rs) s
      = aluWrite z rd (aluSub a b z) s := by rw [exec_sub, State.opnd_eq_low, State.opnd_eq_low]
    _ = aluWrite z rd (aluOut r z (subBorrow a b) (subOverflow a b r z)) s := by simp only [aluSub, hmask]
    _ = .next (Forms.wrote s rd r (Forms.intFlags z r (subBorrow a b) (subOverflow a b r z))) :=
      aluWrite_aluOut hfits _ _ rd s
    _ = _ := by rw [subOverflow_eq_decide]; rfl

end Sys2Proof.Machine
end

section
/-! What every instruction may do (10_state.md R23, R27, R30, 20_memory.md R57, R61): each answers a next state that
keeps the frame of the instruction, or raises a fatal error. The shared operations are shown to do so once each,
and `exec_answers` collects the instructions; the frame statements are its fields. -/

namespace Sys2Proof.Machine

/-- The frame of an instruction between the state it executes in and the one it answers without a fatal error. -/
structure Framed (i : Instr) (s t : State) : Prop where
  cfg : t.cfg = s.cfg
  ipc : t.ipc = s.ipc
  inst : t.inst = s.inst
  call : t.call = s.call
  fault : t.fault = s.fault
  running : i = .parar ∨ t.running = s.running
  pc : Forms.writesPc i = true ∨ t.pc = s.pc
  regs : ∀ r, r ∉ Forms.writesRegs i → t.x r = s.x r
  flags : ∀ k, k ∉ Forms.writesFlags i → Forms.flag t.flags k = Forms.flag s.flags k
  /-- Memory is kept, or the bytes the instruction stores are written inside it. -/
  mem : t.mem = s.mem ∨ ∃ a bs, Forms.storesTo i s = some (a, bs.length) ∧
    a + bs.length ≤ s.cfg.memSize ∧ t.mem = s.mem.writeBytes a bs
  devices : Forms.reachesIo i = true ∨ (t.io = s.io ∧ t.ioCalls = s.ioCalls ∧ t.draws = s.draws)
  addresses : t.io.map Prod.fst = s.io.map Prod.fst
  warnings : Forms.reachesIo i = true ∨ Forms.fpWarns i = true ∨ t.warnings = s.warnings

/-- All four flags. -/
abbrev allFlags : List FlagName := [.z, .n, .c, .v]

theorem mem_allFlags (k : FlagName) : k ∈ allFlags := by cases k <;> decide

/-- A single-flag port leaves the three other flags (10_state.md R26). -/
theorem flag_put_ne (f : Flags) {j k : FlagName} (hne : k ≠ j) (b : Bool) :
    Forms.flag (f.put j b) k = Forms.flag f k := by
  cases j <;> cases k <;> simp_all [Forms.flag, Flags.put]

namespace Framed

variable {i : Instr} {s t : State}

protected theorem refl (i : Instr) (s : State) : Framed i s s where
  cfg := rfl
  ipc := rfl
  inst := rfl
  call := rfl
  fault := rfl
  running := .inr rfl
  pc := .inr rfl
  regs _ _ := rfl
  flags _ _ := rfl
  mem := .inl rfl
  devices := .inr ⟨rfl, rfl, rfl⟩
  addresses := rfl
  warnings := .inr (.inr rfl)

theorem setX (h : Framed i s t) {rd : Reg} (hrd : rd ∈ Forms.writesRegs i) (v : Word) :
    Framed i s (t.setX rd v) where
  __ := h
  regs r hr := by
    have hne : r ≠ rd := fun e => hr (e ▸ hrd)
    rw [State.x_setX_ne t v hne, h.regs r hr]

theorem setFlags (h : Framed i s t) (hw : Forms.writesFlags i = allFlags) (f : Flags) :
    Framed i s (t.setFlags f) where
  __ := h
  flags k hk := absurd (hw ▸ mem_allFlags k) hk

/-- A single-flag port writes its one flag (10_state.md R26). -/
theorem putFlag (h : Framed i s t) {j : FlagName} (hj : j ∈ Forms.writesFlags i) (b : Bool) :
    Framed i s (t.setFlags (t.flags.put j b)) where
  __ := h
  flags k hk := by
    have hne : k ≠ j := fun e => hk (e ▸ hj)
    rw [State.setFlags_flags, flag_put_ne t.flags hne, h.flags k hk]

theorem setPc (h : Framed i s t) (hw : Forms.writesPc i = true) (a : Word) : Framed i s (t.setPc a) where
  __ := h
  pc := .inl hw

theorem warn (h : Framed i s t) (hw : Forms.reachesIo i = true ∨ Forms.fpWarns i = true) (w : Warning) :
    Framed i s (t.warn w) where
  __ := h
  warnings := hw.imp_right .inl

theorem warnIf (h : Framed i s t) (hw : Forms.fpWarns i = true) (c : Bool) (w : Warning) :
    Framed i s (t.warnIf c w) := by
  cases c
  · exact h
  · exact h.warn (.inr hw) w

/-- What an instruction that reaches the I/O space does to the devices (44_io.md R241 to R243). -/
theorem reachDevices (h : Framed i s t) (hio : Forms.reachesIo i = true) {io : List (Word × Device)}
    (haddr : io.map Prod.fst = t.io.map Prod.fst) (n : Nat) (c : DeviceCall) :
    Framed i s (State.logCall { t with io := io, draws := n } c) where
  __ := h
  devices := .inl hio
  addresses := haddr.trans h.addresses

/-- A store, in the state it executes in (20_memory.md R53, R57). -/
theorem store {a : Nat} {bs : List Byte} (hto : Forms.storesTo i s = some (a, bs.length))
    (hin : a + bs.length ≤ s.cfg.memSize) : Framed i s { s with mem := s.mem.writeBytes a bs } where
  __ := Framed.refl i s
  mem := .inr ⟨a, bs, hto, hin, rfl⟩

end Framed

/-- Everything an instruction can do: it keeps its frame, or it raises a fatal error of execution. -/
def Answers (i : Instr) (s : State) (o : Result) : Prop :=
  ∃ t, o = .next t ∧ (Framed i s t ∨ ∃ kind a, kind ≠ .runawayProgram ∧ t = s.raise kind a)

section Operations

variable {i : Instr} {s t : State}

theorem Framed.answers (h : Framed i s t) : Answers i s (.next t) := ⟨t, rfl, .inl h⟩

theorem raise_answers {kind : FatalKind} (hk : kind ≠ .runawayProgram) (a : Word) :
    Answers i s (.next (s.raise kind a)) := ⟨_, rfl, .inr ⟨kind, a, hk, rfl⟩⟩

theorem aluWrite_answers {rd : Reg} (hrd : Forms.writesRegs i = [rd]) (hf : Forms.writesFlags i = allFlags)
    (z : Size) (o : UnitOut) : Answers i s (aluWrite z rd o s) :=
  (((Framed.refl i s).setX (hrd ▸ List.mem_singleton_self rd) _).setFlags hf _).answers

theorem fpWrite_answers (h : Framed i s t) {rd : Reg} (hrd : Forms.writesRegs i = [rd])
    (hf : Forms.writesFlags i = allFlags) (f : FpFormat) (r : Nat) : Answers i s (fpWrite f rd r t) :=
  ((h.setX (hrd ▸ List.mem_singleton_self rd) _).setFlags hf _).answers

theorem flagWrite_answers (hf : Forms.writesFlags i = allFlags) (o : UnitOut) : Answers i s (flagWrite o s) :=
  ((Framed.refl i s).setFlags hf _).answers

theorem putFlag_answers {j : FlagName} (hj : Forms.writesFlags i = [j]) (b : Bool) :
    Answers i s (putFlag j b s) :=
  ((Framed.refl i s).putFlag (hj ▸ List.mem_singleton_self j) b).answers

theorem jumpIf_answers (hw : Forms.writesPc i = true) (k : Condition) (imm : Word) :
    Answers i s (jumpIf k imm s) := by
  unfold jumpIf
  split
  · exact ((Framed.refl i s).setPc hw imm).answers
  · exact (Framed.refl i s).answers

theorem loadInto_answers {rd : Reg} (hrd : Forms.writesRegs i = [rd]) (z : Size) (a : Word) :
    Answers i s (loadInto z rd a s) := by
  obtain ⟨-, e⟩ | ⟨-, e⟩ := loadInto_cases z rd a s <;> rw [e]
  · exact ((Framed.refl i s).setX (hrd ▸ List.mem_singleton_self rd) _).answers
  · exact raise_answers (by decide) a

theorem storeFrom_answers {z : Size} {a : Word} (hto : Forms.storesTo i s = some (a.toNat, z.bytes)) (rd : Reg) :
    Answers i s (storeFrom z rd a s) := by
  obtain ⟨hin, e⟩ | ⟨-, e⟩ := storeFrom_cases z rd a s <;> rw [e]
  · exact (Framed.store (by rwa [bytesLE_length]) (by rwa [bytesLE_length])).answers
  · exact raise_answers (by decide) a

theorem pushThen_answers {z : Size} (hto : Forms.storesTo i s = some (s.pushAddress.toNat, z.bytes))
    (hsp : Forms.writesRegs i = [15]) (v : Word) {rest : State → State}
    (hrest : ∀ t, Framed i s t → Framed i s (rest t)) : Answers i s (pushThen z v s rest) := by
  obtain ⟨hin, e⟩ | ⟨-, e⟩ := pushThen_cases z v s rest <;> rw [e]
  · refine (hrest _ (Framed.setX (Framed.store ?_ ?_) (hsp ▸ List.mem_singleton_self 15) _)).answers
    · rw [bytesLE_length]; exact hto
    · rwa [bytesLE_length]
  · exact raise_answers (by decide) _

theorem popThen_answers (hsp : 15 ∈ Forms.writesRegs i) (z : Size) {rest : Word → State → State}
    (hrest : ∀ v t, Framed i s t → Framed i s (rest v t)) : Answers i s (popThen z s rest) := by
  obtain ⟨-, -, e⟩ | ⟨-, -, e⟩ | ⟨-, e⟩ := popThen_cases z s rest <;> rw [e]
  · exact (hrest _ _ ((Framed.refl i s).setX hsp _)).answers
  · exact raise_answers (by decide) _
  · exact raise_answers (by decide) _

/-- A pop into a register writes SP and then the register (43_control_stack.md R227). -/
theorem popInto_answers {rd : Reg} (hr : Forms.writesRegs i = [15, rd]) (z : Size) :
    Answers i s (popThen z s fun v t => t.writeReg rd v z) :=
  popThen_answers (by simp [hr]) z fun _ _ h => h.setX (by simp [hr]) _

theorem ioWrite_answers (hio : Forms.reachesIo i = true) (a v : Word) : Answers i s (.next (s.ioWrite a v)) := by
  obtain ⟨d, -, -, e⟩ | e := s.ioWrite_cases a v <;> rw [e]
  · exact ((Framed.refl i s).reachDevices hio (setDeviceAt_addresses _ _ _) _ _).answers
  · exact ((Framed.refl i s).warn (.inl hio) _).answers

theorem ioReadEffect_framed (hio : Forms.reachesIo i = true) (a : Word) : Framed i s (s.ioReadEffect a) := by
  obtain ⟨d, -, -, e⟩ | e := s.ioReadEffect_cases a <;> rw [e]
  · exact (Framed.refl i s).reachDevices hio (setDeviceAt_addresses _ _ _) _ _
  · exact (Framed.refl i s).warn (.inl hio) _

theorem ioShow_answers (hio : Forms.reachesIo i = true) (a : Word) : Answers i s (.next (s.ioShow a)) := by
  obtain e | e := s.ioShow_cases a <;> rw [e]
  · exact ((Framed.refl i s).reachDevices hio rfl _ _).answers
  · exact ((Framed.refl i s).warn (.inl hio) _).answers

end Operations

/-- Every instruction keeps its frame or raises a fatal error: each is one of the shared operations, and its lists
of writable registers and flags are those the operation asks for. -/
theorem exec_answers (i : Instr) (s : State) : Answers i s (exec i s) := by
  cases i with
  | parar => exact ⟨_, rfl, .inl { Framed.refl .parar s with running := .inl rfl }⟩
  | nop => exact (Framed.refl _ s).answers
  | setz | clrz | setn | clrn | setc | clrc | setv | clrv => exact putFlag_answers rfl _
  | ret => exact popThen_answers List.mem_cons_self _ fun _ _ h => h.setPc rfl _
  | call imm => exact pushThen_answers rfl rfl _ fun _ h => h.setPc rfl _
  | push1 rd | push2 rd | push4 rd | push8 rd => exact pushThen_answers rfl rfl _ fun _ h => h
  | pop1 rd | pop2 rd | pop4 rd | pop8 rd => exact popInto_answers rfl _
  | inc rd | dec rd | shl rd | shr rd | and rd rs | or rd rs | xor rd rs
  | add1 rd rs | add2 rd rs | add4 rd rs | add8 rd rs | sub1 rd rs | sub2 rd rs | sub4 rd rs | sub8 rd rs
  | mul1 rd rs | mul2 rd rs | mul4 rd rs | mul8 rd rs | div1 rd rs | div2 rd rs | div4 rd rs | div8 rd rs
  | divu1 rd rs | divu2 rd rs | divu4 rd rs | divu8 rd rs | mod1 rd rs | mod2 rd rs | mod4 rd rs | mod8 rd rs
  | modu1 rd rs | modu2 rd rs | modu4 rd rs | modu8 rd rs => exact aluWrite_answers rfl rfl _ _
  | cmp1 rd rs | cmp2 rd rs | cmp4 rd rs | cmp8 rd rs | cmpv rd imm => exact flagWrite_answers rfl _
  | fadd4 rd rs | fadd8 rd rs | fsub4 rd rs | fsub8 rd rs | fmul4 rd rs | fmul8 rd rs
  | fsin4 rd | fsin8 rd | fcos4 rd | fcos8 rd => exact fpWrite_answers (Framed.refl _ s) rfl rfl _ _
  | fdiv4 rd rs | fdiv8 rd rs | fsqrt4 rd | fsqrt8 rd =>
    exact fpWrite_answers ((Framed.refl _ s).warnIf rfl _ _) rfl rfl _ _
  | load1 rd imm | load2 rd imm | load4 rd imm | load8 rd imm
  | loadr1 rd rs | loadr2 rd rs | loadr4 rd rs | loadr8 rd rs => exact loadInto_answers rfl _ _
  | store1 rd imm | store2 rd imm | store4 rd imm | store8 rd imm
  | storer1 rd rs | storer2 rd rs | storer4 rd rs | storer8 rd rs => exact storeFrom_answers rfl _
  | clear rd =>
    exact (((Framed.refl _ s).setX (List.mem_singleton_self rd) 0).setFlags rfl _).answers
  | mov rd rs | loadv rd imm => exact ((Framed.refl _ s).setX (List.mem_singleton_self rd) _).answers
  | jmp imm | jeq imm | jne imm | jmi imm | jpl imm | jcs imm | jcc imm | jlt imm | jge imm =>
    exact jumpIf_answers rfl _ _
  | svio rd imm => exact ioWrite_answers rfl _ _
  | loadio rd imm => exact ((ioReadEffect_framed rfl imm).setX (List.mem_singleton_self rd) _).answers
  | showio imm => exact ioShow_answers rfl _

/-- What holds of the next state of an instruction. -/
theorem framed_or_raise_of_exec {i : Instr} {s t : State} (h : exec i s = .next t) :
    Framed i s t ∨ ∃ kind a, kind ≠ .runawayProgram ∧ t = s.raise kind a := by
  obtain ⟨t', e, ht⟩ := exec_answers i s
  cases h.symm.trans e
  exact ht

end Sys2Proof.Machine
end

section
/-! The frame statements of the instructions (10_state.md R23, R27, R30, R33, 20_memory.md R57, R61): each is a field
of `Framed`, and a fatal error keeps all but pc, the run state and the fault record. -/

namespace Sys2Proof.Machine

/-- Settles O16. -/
theorem everyInstructionAnswersANextState : Obligations.EveryInstructionAnswersANextState := by
  intro i s
  obtain ⟨t, e, -⟩ := exec_answers i s
  exact ⟨t, e⟩

/-- Settles O15. A state framed by an instruction other than PARAR runs as before. -/
theorem onlyPararHalts : Obligations.OnlyPararHalts := by
  intro i s t h hrun hstop
  obtain hf | ⟨kind, a, -, rfl⟩ := framed_or_raise_of_exec h
  · refine hf.running.imp_right fun hkept => ?_
    rw [hkept, hrun] at hstop
    cases hstop
  · exact .inr nofun

/-- Settles O17. -/
theorem onlyListedRegistersChange : Obligations.OnlyListedRegistersChange := by
  intro i s t r h hr
  obtain hf | ⟨kind, a, -, rfl⟩ := framed_or_raise_of_exec h
  · exact hf.regs r hr
  · rfl

/-- Settles O18. -/
theorem onlyListedFlagsChange : Obligations.OnlyListedFlagsChange := by
  intro i s t k h hk
  obtain hf | ⟨kind, a, -, rfl⟩ := framed_or_raise_of_exec h
  · exact hf.flags k hk
  · rfl

/-- Settles O19. A byte outside those stored is read back as it was. -/
theorem onlyStoredBytesChange : Obligations.OnlyStoredBytesChange := by
  intro i s t b hwf h hb
  obtain hf | ⟨kind, a, -, rfl⟩ := framed_or_raise_of_exec h
  · obtain hkept | ⟨a, bs, hto, -, hmem⟩ := hf.mem
    · rw [State.byteAt, hkept, State.byteAt]
    · have hout := hb a bs.length hto
      rw [State.byteAt, hmem, Memory.readByte_writeBytes hwf, dif_neg (by omega), State.byteAt]
  · rfl

/-- Settles O20. -/
theorem onlyIoInstructionsReachDevices : Obligations.OnlyIoInstructionsReachDevices := by
  intro i s t h hio
  obtain hf | ⟨kind, a, -, rfl⟩ := framed_or_raise_of_exec h
  · have hdev := hf.devices
    have hwarn := hf.warnings
    simp only [hio, Bool.false_eq_true, false_or] at hdev hwarn
    obtain ⟨hregistry, hcalls, hdraws⟩ := hdev
    exact ⟨hregistry, hcalls, hdraws, fun hfp => hwarn.resolve_left (by simp [hfp])⟩
  · exact ⟨rfl, rfl, rfl, fun _ => rfl⟩

/-- Settles O21. -/
theorem controlStateFrame : Obligations.ControlStateFrame := by
  intro i s t h
  obtain hf | ⟨kind, a, -, rfl⟩ := framed_or_raise_of_exec h
  · exact ⟨hf.cfg, hf.ipc, hf.inst, hf.call, .inl ⟨hf.fault, hf.running, hf.pc⟩⟩
  · exact ⟨rfl, rfl, rfl, rfl, .inr ⟨kind, a, rfl⟩⟩

end Sys2Proof.Machine
end

section
/-! The step (30_encoding.md R97, 60_exceptions.md R281 to R287, 70_reset_and_hazards.md R310 to R314). With the
frame of the instructions, all that a step can do is one of four things; the statements about a step are read off
them. -/

namespace Sys2Proof.Machine

/-- A fatal error of execution leaves the step as one of fetch and decode does (60_exceptions.md R286). -/
theorem State.raise_retire_decoded (s : State) (d : Decoded) (kind : FatalKind) (a : Word) :
    ((s.decoded d).raise kind a).retire = s.notDecoded kind (some d.record.opcode) (some a) := rfl

/-- Everything a step that answers a next state has done: nothing, on a Halted core; RunawayProgram, at the ceiling;
a fatal error undone; or an instruction within its frame. -/
theorem step_framed {s t : State} (h : step s = .next t) :
    s.fault = none ∧
    ((s.running = false ∧ t = s) ∨
     (s.ceilingReached = true ∧ t = s.runaway) ∨
     (∃ kind op a, kind ≠ .runawayProgram ∧ t = s.notDecoded kind op a) ∨
     (s.ceilingReached = false ∧ ∃ d u, Framed d.instr (s.decoded d) u ∧ t = u.retire)) := by
  obtain ⟨hfault, ⟨hrun, e⟩ | ⟨-, hc, e⟩ | ⟨-, -, hfatal⟩ | ⟨-, hc, d, u, -, hx, e⟩⟩ := step_cases h
  · exact ⟨hfault, .inl ⟨hrun, e⟩⟩
  · exact ⟨hfault, .inr (.inl ⟨hc, e⟩)⟩
  · exact ⟨hfault, .inr (.inr (.inl hfatal))⟩
  · refine ⟨hfault, .inr (.inr ?_)⟩
    obtain hf | ⟨kind, a, hk, rfl⟩ := framed_or_raise_of_exec hx
    · exact .inr ⟨hc, d, u, hf, e⟩
    · exact .inl ⟨kind, _, _, hk, e.trans (s.raise_retire_decoded d kind a)⟩

theorem State.ceilingReached_eq_false_iff (s : State) :
    s.ceilingReached = false ↔ ∀ c, s.call = some c → c.cycles < c.maxCycles := by
  unfold State.ceilingReached
  cases s.call <;> simp

/-- An instruction executed below the ceiling counts one cycle of the run call (70_reset_and_hazards.md R312). -/
theorem Framed.retire_call {i : Instr} {s u : State} {d : Decoded} (h : Framed i (s.decoded d) u)
    (hfault : s.fault = none) : u.retire.call = s.call.map RunCall.counted := by
  have hnone : u.fault = none := h.fault.trans hfault
  have hcall : u.call = s.call := h.call
  rw [State.retire_call, if_pos hnone, hcall]

/-- A Running core below its ceiling ticks (R311). -/
theorem step_eq_tick {s : State} (hfault : s.fault = none) (hrun : s.running = true)
    (hc : s.ceilingReached = false) : step s = tick s := by
  simp [step, hfault, hrun, hc]

/-- Where decode answers, the word's opcode is defined with the record's format, and format RI has its immediate
word (30_encoding.md R81, R97). -/
theorem formatOf_of_decode {map : OpcodeMap} {w : Word} {next : Option Word} {d : Decoded}
    (h : decode map w next = .ok d) :
    formatOf map (opcodeField w) = some d.record.format ∧ (d.record.format = .ri → next ≠ none) := by
  obtain ⟨-, e⟩ | ⟨-, -, e⟩ | ⟨d', e, ho, hwf, himm⟩ := decode_cases map w next
  · simp [h] at e
  · simp [h] at e
  · obtain rfl : d = d' := Except.ok.inj (h.symm.trans e)
    simp only [DecodedInst.wellFormed, DecodedInst.opcodeOk, Bool.and_eq_true, beq_iff_eq, ho] at hwf
    obtain ⟨⟨⟨hformat, -⟩, -⟩, -⟩ := hwf
    exact ⟨hformat, fun hri => (himm hri).2⟩

/-- The stages fetch and decode, where both succeed (R97, R311). -/
theorem fetchDecode_of_decode {s : State} {w : Word} {d : Decoded} (hw : s.memRead s.pc .b8 = some w)
    (hd : decode s.cfg.opcodeMap w (s.memRead (s.pc + 8) .b8) = .ok d) :
    fetchDecode s = .ok (d.instr, s.decoded d) := by
  obtain ⟨hformat, hnext⟩ := formatOf_of_decode hd
  obtain ⟨hn, -⟩ | ⟨w', hw', hcases⟩ := fetchDecode_cases s
  · simp [hn] at hw
  · obtain rfl : w' = w := Option.some.inj (hw'.symm.trans hw)
    obtain ⟨hf, -⟩ | ⟨hf, hn, -⟩ | ⟨d', hd', e⟩ := hcases
    · simp [hformat] at hf
    · exact absurd hn (hnext (Option.some.inj (hformat.symm.trans hf)))
    · obtain rfl : d = d' := Except.ok.inj (hd.symm.trans hd')
      exact e

/-- Settles O6. The step is `execute` after fetch and decode, whose end is `State.retire`. -/
theorem stepRunsTheDecodedInstruction : Obligations.StepRunsTheDecodedInstruction := by
  intro s w d hfault hrun hc hw hd
  have htick : step s = execute d.instr (s.decoded d) := by
    rw [step_eq_tick hfault hrun hc, tick, fetchDecode_of_decode hw hd]
  rw [htick, execute, State.decoded]
  cases exec d.instr _ <;> rfl

/-- A fatal error of fetch or decode is the step's answer. -/
theorem step_of_fetchDecode_error {s t : State} (hfault : s.fault = none) (hrun : s.running = true)
    (hc : s.ceilingReached = false) (h : fetchDecode s = .error t) : step s = .next t := by
  rw [step_eq_tick hfault hrun hc, tick, h]

/-- Settles O7. The three cases of the stages fetch and decode other than success exclude each other by what the
fetches and the opcode map answer. -/
theorem fetchAndDecodeErrorsAreFatal : Obligations.FetchAndDecodeErrorsAreFatal := by
  intro s hfault hrun hc
  have hstep {t : State} : fetchDecode s = .error t → step s = .next t :=
    step_of_fetchDecode_error hfault hrun hc
  obtain ⟨hn, e⟩ | ⟨w, hw, hcases⟩ := fetchDecode_cases s
  · exact ⟨fun _ => hstep e, by simp [hn], by simp [hn]⟩
  · refine ⟨fun hout => ?_, fun w' hw' hf' => ?_, fun w' hw' hf' hn' => ?_⟩
    · rw [State.memRead_of_lt (z := .b8) hout] at hw
      cases hw
    all_goals
      obtain rfl : w = w' := Option.some.inj (hw.symm.trans hw')
      obtain ⟨hf, e⟩ | ⟨hf, hn, e⟩ | ⟨d, hd, -⟩ := hcases
    · exact hstep e
    · simp [hf] at hf'
    · simp [formatOf_of_decode hd] at hf'
    · simp [hf] at hf'
    · exact hstep e
    · obtain ⟨hformat, hnext⟩ := formatOf_of_decode hd
      exact absurd hn' (hnext (Option.some.inj (hformat.symm.trans hf')))

/-- Settles O8. -/
theorem stoppedCoreDoesNotStep : Obligations.StoppedCoreDoesNotStep := by
  constructor
  · intro s r hfault
    simp only [step, hfault]
  · intro s hfault hstop
    simp [step, hfault, hstop]

/-- A Running core at its ceiling raises RunawayProgram (70_reset_and_hazards.md R313). -/
theorem step_eq_runaway {s : State} (hfault : s.fault = none) (hrun : s.running = true)
    (hc : s.ceilingReached = true) : step s = .next s.runaway := by
  simp [step, hfault, hrun, hc]

/-- Settles O9. Below the ceiling the fault of the next state comes from fetch, decode or execution, none of which
raises RunawayProgram. -/
theorem runawayExactlyAtTheCeiling : Obligations.RunawayExactlyAtTheCeiling := by
  constructor
  · intro s c hfault hrun hcall hle
    exact step_eq_runaway hfault hrun (by simp [State.ceilingReached, hcall, hle])
  · intro s t hfault hbelow h r hr
    have hc := s.ceilingReached_eq_false_iff.mpr hbelow
    obtain ⟨-, ⟨-, rfl⟩ | ⟨hc', -⟩ | ⟨kind, op, a, hk, rfl⟩ | ⟨-, d, u, hf, rfl⟩⟩ := step_framed h
    · simp [hfault] at hr
    · simp [hc] at hc'
    · obtain rfl := Option.some.inj hr
      exact hk
    · have hnone : u.fault = none := hf.fault.trans hfault
      simp [hnone] at hr

/-- Settles O11. The four things a step can do: only an instruction within its frame touches Memory, where it stores
inside it, the registry, whose addresses it keeps, and the cycle count, which it raises below the ceiling. -/
theorem everyStepKeepsTheInvariant : Obligations.EveryStepKeepsTheInvariant := by
  intro s t hinv h
  obtain ⟨hfault, ⟨-, rfl⟩ | ⟨-, rfl⟩ | ⟨kind, op, a, -, rfl⟩ | ⟨hc, d, u, hf, rfl⟩⟩ := step_framed h
  · exact hinv
  · exact { hinv with faultedStopped := fun _ => rfl }
  · exact { hinv with faultedStopped := fun _ => rfl, noTransient := rfl }
  · have hnone : u.fault = none := hf.fault.trans hfault
    have hcfg : u.cfg = s.cfg := hf.cfg
    have haddr : u.io.map Prod.fst = s.io.map Prod.fst := hf.addresses
    have hmem : u.mem.wf = true ∧ u.mem.below s.cfg.memSize = true := by
      obtain e | ⟨a, bs, -, hin, e⟩ := hf.mem <;> rw [e]
      · exact ⟨hinv.memCanonical, hinv.memInside⟩
      · exact ⟨Memory.wf_writeBytes a bs hinv.memCanonical, Memory.below_writeBytes a bs hin hinv.memInside⟩
    obtain ⟨hwf, hbelow⟩ := hmem
    exact {
      memCanonical := hwf
      memInside := by rwa [State.retire_mem, State.retire_cfg, hcfg]
      faultedStopped := fun hne => absurd hnone hne
      oneDevicePerAddress := by rw [State.retire_io, haddr]; exact hinv.oneDevicePerAddress
      noTransient := rfl
      withinCeiling := fun c hcall => by
        rw [hf.retire_call hfault, Option.map_eq_some_iff] at hcall
        obtain ⟨c₀, hc₀, rfl⟩ := hcall
        exact s.ceilingReached_eq_false_iff.mp hc c₀ hc₀ }

/-- The state of reset is that of a launch. -/
theorem reset_eq_launch : State.reset = launch
    ⟨Config.defaults, [(defaultScreenAddress, .screen 0)], [], resetPc, resetRegs, ⟨false, false, false, false⟩⟩ :=
  rfl

/-- A launch with a canonical image inside Memory and one device per address meets the invariant (R315). -/
theorem launch_inv {l : Launch} (hwf : l.mem.wf = true) (hbelow : l.mem.below l.cfg.memSize = true)
    (hone : (l.io.map Prod.fst).Nodup) : (launch l).Inv where
  memCanonical := hwf
  memInside := hbelow
  faultedStopped h := absurd rfl h
  oneDevicePerAddress := hone
  noTransient := rfl
  withinCeiling := nofun

/-- Settles O12. -/
theorem launchAndResetMeetTheInvariant : Obligations.LaunchAndResetMeetTheInvariant := by
  refine ⟨fun l => ⟨⟨rfl, rfl⟩, rfl, rfl, rfl, rfl, rfl, rfl, launch_inv⟩, ?_⟩
  rw [reset_eq_launch]
  exact launch_inv rfl rfl (List.nodup_singleton _)

/-- Settles O13. -/
theorem parametersAndRegistryNeverChange : Obligations.ParametersAndRegistryNeverChange := by
  intro s t h
  obtain ⟨-, ⟨-, rfl⟩ | ⟨-, rfl⟩ | ⟨kind, op, a, -, rfl⟩ | ⟨-, d, u, hf, rfl⟩⟩ := step_framed h
  · exact ⟨rfl, rfl⟩
  · exact ⟨rfl, rfl⟩
  · exact ⟨rfl, rfl⟩
  · exact ⟨hf.cfg, hf.addresses⟩

/-- Settles O14. RunawayProgram and the errors undone name what they keep; an instruction within its frame raises
nothing. -/
theorem fatalErrorsArePrecise : Obligations.FatalErrorsArePrecise := by
  intro s t r hfault h hr
  obtain ⟨-, ⟨-, rfl⟩ | ⟨-, rfl⟩ | ⟨kind, op, a, -, rfl⟩ | ⟨-, d, u, hf, rfl⟩⟩ := step_framed h
  · simp [hfault] at hr
  · obtain rfl := Option.some.inj hr
    exact ⟨rfl, rfl, rfl, rfl, rfl, rfl, rfl, rfl, rfl, rfl, rfl⟩
  · obtain rfl := Option.some.inj hr
    exact ⟨rfl, rfl, rfl, rfl, rfl, rfl, rfl, rfl, rfl, rfl, rfl⟩
  · have hnone : u.fault = none := hf.fault.trans hfault
    simp [hnone] at hr

/-- A step of a core that is not Faulted answers a next state. -/
theorem exists_step_eq_next {s : State} (hfault : s.fault = none) : ∃ t, step s = .next t := by
  unfold step
  rw [hfault]
  dsimp only
  split
  · split
    · exact ⟨_, rfl⟩
    · unfold tick
      split
      · exact ⟨_, rfl⟩
      · next i u _ =>
        obtain ⟨t, e, -⟩ := exec_answers i u
        exact ⟨t.retire, by rw [execute, e]⟩
  · exact ⟨_, rfl⟩

/-- The loop of a run call leaves a stopped core as it is (70_reset_and_hazards.md R312). -/
theorem runLoop_stopped (n : Nat) {s : State} (hstop : s.running = false) : runLoop n s = .next s := by
  cases n <;> simp [runLoop, State.isRunning, hstop]

theorem runLoop_succ {n : Nat} {s t : State} (hrun : s.running = true) (hfault : s.fault = none)
    (h : step s = .next t) : runLoop (n + 1) s = runLoop n t := by
  simp [runLoop, State.isRunning, hrun, hfault, h]

/-- How a run call with ceiling n has ended: the core is Halted or Faulted, the count is within the ceiling, and at
it where RunawayProgram was raised (R312, R313). -/
def RunEnded (n : Nat) (t : State) : Prop :=
  ∃ c, (t.Halted ∨ (t.Faulted ∧ t.running = false)) ∧ t.call = some c ∧ c.maxCycles = n ∧ c.cycles ≤ n ∧
    ∀ r, t.fault = some r → r.kind = .runawayProgram → c.cycles = n

theorem runEnded_of_halted {t : State} {c : RunCall} (h : t.Halted) (hcall : t.call = some c)
    (hle : c.cycles ≤ c.maxCycles) : RunEnded c.maxCycles t :=
  ⟨c, .inl h, hcall, rfl, hle, by simp [h.2]⟩

/-- The loop with one turn more than the cycles left ends the run call: each turn stops the core or counts a cycle,
and the turn at the ceiling raises RunawayProgram. -/
theorem runLoop_ends (k : Nat) {s : State} {c : RunCall} (hfault : s.fault = none) (hcall : s.call = some c)
    (hk : c.cycles + k = c.maxCycles) : ∃ t, runLoop (k + 1) s = .next t ∧ RunEnded c.maxCycles t := by
  induction k generalizing s c with
  | zero =>
    cases hrun : s.running with
    | false =>
      exact ⟨s, runLoop_stopped _ hrun, runEnded_of_halted ⟨hrun, hfault⟩ hcall (by omega)⟩
    | true =>
      have hc : s.ceilingReached = true := by simp only [State.ceilingReached, hcall]; exact decide_eq_true (by omega)
      refine ⟨s.runaway, ?_, c, .inr ⟨nofun, rfl⟩, hcall, rfl, by omega, fun _ _ _ => by omega⟩
      rw [runLoop_succ hrun hfault (step_eq_runaway hfault hrun hc), runLoop_stopped _ rfl]
  | succ k ih =>
    cases hrun : s.running with
    | false =>
      exact ⟨s, runLoop_stopped _ hrun, runEnded_of_halted ⟨hrun, hfault⟩ hcall (by omega)⟩
    | true =>
      obtain ⟨t, h⟩ := exists_step_eq_next hfault
      rw [runLoop_succ hrun hfault h]
      obtain ⟨-, ⟨hstop, -⟩ | ⟨hc, -⟩ | ⟨kind, op, a, hkind, rfl⟩ | ⟨-, d, u, hf, rfl⟩⟩ := step_framed h
      · simp [hrun] at hstop
      · simp only [State.ceilingReached, hcall, decide_eq_true_eq] at hc
        omega
      · refine ⟨_, runLoop_stopped _ rfl, c, .inr ⟨nofun, rfl⟩, hcall, rfl, by omega, fun r hr => ?_⟩
        obtain rfl := Option.some.inj hr
        exact fun e => absurd e hkind
      · have hcall' : u.retire.call = some c.counted := by rw [hf.retire_call hfault, hcall]; rfl
        exact ih (c := c.counted) (hf.fault.trans hfault) hcall' (by simp only [RunCall.counted]; omega)

/-- Settles O10. -/
theorem runStopsWithinItsCeiling : Obligations.RunStopsWithinItsCeiling := by
  intro n s hfault
  obtain ⟨t, hrun, c, hend⟩ := runLoop_ends n (s := s.callRun n) (c := ⟨n, 0⟩) hfault rfl (Nat.zero_add n)
  exact ⟨t, c, by simp only [run, hfault]; exact hrun, hend⟩

end Sys2Proof.Machine
end

section
/-! Encoding and decode (30_encoding.md R80 to R97). The fields of a word are read as numbers once; what decode
answers is then read off `decodeAs`, format by format. -/

namespace Sys2Proof

theorem opcodeField_toNat (w : Word) : (opcodeField w).toNat = w.toNat / 2 ^ 48 := by
  have h := w.isLt
  rw [opcodeField, BitVec.extractLsb'_toNat, Nat.shiftRight_eq_div_pow]
  omega

theorem highRegField_val (w : Word) : (highRegField w).val = w.toNat / 2 ^ 44 % 16 := by
  simp [highRegField, Nat.shiftRight_eq_div_pow]

theorem lowRdField_val (w : Word) : (lowRdField w).val = w.toNat / 2 ^ 4 % 16 := by
  simp [lowRdField, Nat.shiftRight_eq_div_pow]

theorem lowRsField_val (w : Word) : (lowRsField w).val = w.toNat % 16 := by
  simp [lowRsField]

/-- Where decode answers, it has read the operands of the instruction the map has for the word's opcode (R97). -/
theorem lookup_of_decode {map : OpcodeMap} {w : Word} {next : Option Word} {d : Decoded}
    (h : decode map w next = .ok d) :
    ∃ m, lookupOpcode map (opcodeField w) = some m ∧ decodeAs m.builder w next = .ok d := by
  cases hl : lookupOpcode map (opcodeField w) with
  | none => simp [decode_of_undefined next hl] at h
  | some m => exact ⟨m, rfl, (decode_of_lookup next hl).symm.trans h⟩

/-- The round trip of a format RI instruction with no register operand (R85, R88, R95). -/
theorem RoundTrip.of_ri_noReg {map : OpcodeMap} {m : Mnemonic} {g : Word → Instr} {imm : Word} (hc : map.Complete)
    (h : encode map (g imm) = [wordR (numberIn map m) 0, imm]) (hb : m.builder = .ri fun _ => g) :
    RoundTrip map (g imm) :=
  RoundTrip.of_ri (f := fun _ => g) hc h hb

/-- Every instruction makes the round trip, each by its format. -/
theorem roundTrip_of_complete {map : OpcodeMap} (hc : map.Complete) (i : Instr) : RoundTrip map i := by
  cases i with
  | parar | nop | ret | setz | clrz | setn | clrn | setc | clrc | setv | clrv => exact RoundTrip.of_op hc rfl rfl
  | inc rd | dec rd | clear rd | shl rd | shr rd | push1 rd | push2 rd | push4 rd | push8 rd
  | pop1 rd | pop2 rd | pop4 rd | pop8 rd | fsqrt4 rd | fsqrt8 rd | fsin4 rd | fsin8 rd | fcos4 rd | fcos8 rd =>
    exact RoundTrip.of_r hc rfl rfl
  | mov rd rs | and rd rs | or rd rs | xor rd rs
  | add1 rd rs | add2 rd rs | add4 rd rs | add8 rd rs | sub1 rd rs | sub2 rd rs | sub4 rd rs | sub8 rd rs
  | mul1 rd rs | mul2 rd rs | mul4 rd rs | mul8 rd rs | div1 rd rs | div2 rd rs | div4 rd rs | div8 rd rs
  | divu1 rd rs | divu2 rd rs | divu4 rd rs | divu8 rd rs | mod1 rd rs | mod2 rd rs | mod4 rd rs | mod8 rd rs
  | modu1 rd rs | modu2 rd rs | modu4 rd rs | modu8 rd rs | cmp1 rd rs | cmp2 rd rs | cmp4 rd rs | cmp8 rd rs
  | fadd4 rd rs | fadd8 rd rs | fsub4 rd rs | fsub8 rd rs | fmul4 rd rs | fmul8 rd rs | fdiv4 rd rs | fdiv8 rd rs
  | loadr1 rd rs | loadr2 rd rs | loadr4 rd rs | loadr8 rd rs
  | storer1 rd rs | storer2 rd rs | storer4 rd rs | storer8 rd rs => exact RoundTrip.of_rr hc rfl rfl
  | loadv rd imm | cmpv rd imm | load1 rd imm | load2 rd imm | load4 rd imm | load8 rd imm
  | store1 rd imm | store2 rd imm | store4 rd imm | store8 rd imm | svio rd imm | loadio rd imm =>
    exact RoundTrip.of_ri hc rfl rfl
  | jmp imm | jeq imm | jne imm | jmi imm | jpl imm | jcs imm | jcc imm | jlt imm | jge imm
  | call imm | showio imm => exact RoundTrip.of_ri_noReg hc rfl rfl

/-- Settles O1. -/
theorem encodeThenDecodeGivesTheInstruction : Obligations.EncodeThenDecodeGivesTheInstruction :=
  ⟨opcodeTable_complete, fun _ hc i => roundTrip_of_complete hc i⟩

/-- Decode rejects a word for its opcode exactly where the map does not have it (R89). -/
theorem decode_eq_unknownOpcode_iff {map : OpcodeMap} {w : Word} {next : Option Word} :
    decode map w next = .error (.unknownOpcode (opcodeField w)) ↔ lookupOpcode map (opcodeField w) = none := by
  refine ⟨fun h => ?_, decode_of_undefined next⟩
  cases hl : lookupOpcode map (opcodeField w) with
  | none => rfl
  | some m =>
    rw [decode_of_lookup next hl] at h
    obtain ⟨-, -, e⟩ | ⟨d, e, -⟩ := decodeAs_cases m.builder w next <;> simp [e] at h

/-- The first and the last number of each run of consecutive opcodes of R91. -/
def opcodeRuns : List (Nat × Nat) :=
  [(0x0000, 0x0002), (0x0010, 0x0017), (0x0100, 0x0104), (0x0110, 0x0117), (0x0120, 0x0125), (0x0200, 0x0203),
   (0x0210, 0x022F), (0x0240, 0x0247), (0x0250, 0x0257), (0x0300, 0x0301), (0x0310, 0x0317), (0x0320, 0x0328),
   (0x0330, 0x0330), (0x0340, 0x0342)]

/-- The map of R91 lists its runs, number after number. -/
theorem opcodeTable_numbers :
    opcodeTable.map (fun e => e.1.toNat) = opcodeRuns.flatMap fun r => List.range' r.1 (r.2 + 1 - r.1) := by
  decide

/-- An opcode is undefined in the map of R91 exactly where it lies in none of the runs. -/
theorem lookupOpcode_opcodeTable_eq_none_iff (op : Opcode) :
    lookupOpcode opcodeTable op = none ↔ ∀ r ∈ opcodeRuns, ¬(r.1 ≤ op.toNat ∧ op.toNat ≤ r.2) := by
  have hmem : op.toNat ∈ opcodeTable.map (fun e => e.1.toNat) ↔ ∃ m, (op, m) ∈ opcodeTable := by
    simp [BitVec.toNat_inj]
  rw [opcodeTable_numbers, List.mem_flatMap] at hmem
  rw [lookupOpcode_eq_none_iff, ← not_exists, ← hmem]
  simp only [List.mem_range'_1, not_exists, not_and]
  refine forall₂_congr fun r _ => ?_
  omega

/-- Settles O2. The gaps of the statement are what the runs of R91 leave. -/
theorem opcodesOutsideTheMapAreRejected : Obligations.OpcodesOutsideTheMapAreRejected := by
  refine ⟨fun map w next => decode_eq_unknownOpcode_iff.trans (lookupOpcode_eq_none_iff map _), fun op => ?_⟩
  have hlookup : (∀ (w : Word) (next : Option Word), opcodeField w = op →
      decode opcodeTable w next = .error (.unknownOpcode op)) ↔ lookupOpcode opcodeTable op = none := by
    constructor
    · intro h
      have hw := opcodeField_wordOp op
      have hrejected : decode opcodeTable (wordOp op) none = .error (.unknownOpcode (opcodeField (wordOp op))) := by
        rw [hw]; exact h _ _ hw
      simpa only [hw] using decode_eq_unknownOpcode_iff.mp hrejected
    · rintro h w next rfl
      exact decode_of_undefined next h
  have hlt := op.isLt
  rw [hlookup, lookupOpcode_opcodeTable_eq_none_iff]
  simp only [opcodeRuns, List.forall_mem_cons, List.not_mem_nil, false_imp_iff, implies_true, and_true]
  omega

/-- The operands are read from the opcode and the fields of the format alone (R82 to R85). -/
theorem decodeAs_congr (b : Builder) {w w' : Word} (next : Option Word) (hop : opcodeField w' = opcodeField w)
    (hhigh : b.format = .r ∨ b.format = .ri → highRegField w' = highRegField w)
    (hlow : b.format = .rr → lowRdField w' = lowRdField w ∧ lowRsField w' = lowRsField w) :
    decodeAs b w' next = decodeAs b w next := by
  cases b with
  | op i => simp only [decodeAs, hop]
  | r f => simp only [decodeAs, hop, hhigh (.inl rfl)]
  | rr f =>
    obtain ⟨hrd, hrs⟩ := hlow rfl
    simp only [decodeAs, hop, hrd, hrs]
  | ri f => simp only [decodeAs, hop, hhigh (.inr rfl)]

/-- The nine jumps, CALL and SHOWIO are made of their immediate alone (R85, R88). -/
theorem builder_ignores_register {m : Mnemonic}
    (hm : m ∈ ([.jmp, .jeq, .jne, .jmi, .jpl, .jcs, .jcc, .jlt, .jge, .call, .showio] : List Mnemonic)) :
    ∃ g : Word → Instr, m.builder = .ri fun _ => g := by
  cases m with
  | jmp | jeq | jne | jmi | jpl | jcs | jcc | jlt | jge | call | showio => exact ⟨_, rfl⟩
  | _ => simp at hm

/-- Settles O3. Equal fields as numbers are equal fields, and `decodeAs` reads nothing else. -/
theorem decodeIgnoresUnusedBits : Obligations.DecodeIgnoresUnusedBits := by
  constructor
  · intro map w w' next f hf hop hhigh hlow
    obtain ⟨m, hl, rfl⟩ := Option.map_eq_some_iff.mp hf
    rw [decode_of_lookup next hl, decode_of_lookup next (hop ▸ hl)]
    refine decodeAs_congr m.builder next hop (fun h => Fin.ext ?_) fun h => ⟨Fin.ext ?_, Fin.ext ?_⟩
    · rw [highRegField_val, highRegField_val]
      exact hhigh h
    all_goals have hbyte := hlow h
    · rw [lowRdField_val, lowRdField_val]
      omega
    · rw [lowRsField_val, lowRsField_val]
      omega
  · intro map w w' imm m d d' hm hl hop hd hd'
    obtain ⟨g, hb⟩ := builder_ignores_register hm
    rw [decode_of_lookup _ hl, hb] at hd
    rw [decode_of_lookup _ (hop ▸ hl), hb] at hd'
    cases hd
    cases hd'
    rfl

/-- The record decode answers, format by format (R90). -/
theorem record_of_decodeAs {b : Builder} {w : Word} {next : Option Word} {d : Decoded}
    (h : decodeAs b w next = .ok d) :
    (d.record.format = .r ∨ d.record.format = .ri → d.record.rd = some (highRegField w)) ∧
    (d.record.format = .rr → d.record.rd = some (lowRdField w) ∧ d.record.rs = some (lowRsField w)) ∧
    (d.record.format = .ri → d.record.imm = next) := by
  cases b with
  | op i => cases h; simp
  | r f => cases h; simp
  | rr f => cases h; simp
  | ri f =>
    cases next with
    | none => cases h
    | some imm => cases h; simp

/-- Settles O4. -/
theorem decodedRecordHoldsTheFields : Obligations.DecodedRecordHoldsTheFields := by
  intro map w next d h
  obtain ⟨m, -, hd⟩ := lookup_of_decode h
  obtain ⟨hhigh, hlow, himm⟩ := record_of_decodeAs hd
  obtain ⟨-, e⟩ | ⟨-, -, e⟩ | ⟨d', e, hop, hwf, -⟩ := decode_cases map w next
  · simp [h] at e
  · simp [h] at e
  · obtain rfl : d = d' := Except.ok.inj (h.symm.trans e)
    refine ⟨hwf, hop ▸ opcodeField_toNat w, fun hf => ⟨_, hhigh hf, highRegField_val w⟩, fun hf => ?_, himm⟩
    obtain ⟨hrd, hrs⟩ := hlow hf
    exact ⟨_, _, hrd, hrs, lowRdField_val w, lowRsField_val w⟩

/-- Settles O5. -/
theorem wordsOfTheSpecDecode : Obligations.WordsOfTheSpecDecode := by
  unfold Obligations.WordsOfTheSpecDecode
  decide

end Sys2Proof
end

section
/-! The integer instructions (40_alu_integer.md R112 to R137). At every size an instruction is one law of the integer
unit; the signed reading, the rounded quotient and the mask of the statements are those of the unit. -/

namespace Sys2Proof.Machine

/-- The signed reading of the statements is that of the unit (00_scope.md R6). -/
theorem int_eq_signedOf (v : Word) (z : Size) : Forms.int v z = signedOf (Forms.low v z) z :=
  (signedOf_eq (low_lt v z)).symm

/-- The quotient of the statements is that of the unit (R116). -/
theorem roundedQuotient_eq (m : DivMode) (a b : Int) : Forms.roundedQuotient m a b = signedQuotient m a b := by
  rw [signedQuotient_eq]
  cases m <;> rfl

@[simp] theorem low_b8 (v : Word) : Forms.low v .b8 = v.toNat := Nat.mod_eq_of_lt v.isLt

/-- The end of a division or modulo by zero (R116, R117). -/
theorem aluWrite_byZeroOut (z : Size) (rd : Reg) (s : State) :
    aluWrite z rd byZeroOut s = .next (Forms.wrote s rd 0 ⟨true, false, false, true⟩) :=
  aluWrite_eq (Nat.two_pow_pos _) rd s

/-! ### MUL, DIV, DIVU, MOD, MODU -/

theorem exec_mul (z : Size) (rd rs : Reg) (s : State) :
    exec (Forms.mul z rd rs) s = aluWrite z rd (aluMul (Forms.low (s.x rd) z) (Forms.low (s.x rs) z) z) s := by
  simp only [← State.opnd_eq_low]
  cases z <;> rfl

theorem exec_div (z : Size) (rd rs : Reg) (s : State) :
    exec (Forms.div z rd rs) s =
      aluWrite z rd (aluDivSigned s.cfg.divMode (Forms.low (s.x rd) z) (Forms.low (s.x rs) z) z) s := by
  simp only [← State.opnd_eq_low]
  cases z <;> rfl

theorem exec_divu (z : Size) (rd rs : Reg) (s : State) :
    exec (Forms.divu z rd rs) s =
      aluWrite z rd (aluDivUnsigned (Forms.low (s.x rd) z) (Forms.low (s.x rs) z) z) s := by
  simp only [← State.opnd_eq_low]
  cases z <;> rfl

theorem exec_mod (z : Size) (rd rs : Reg) (s : State) :
    exec (Forms.mod z rd rs) s =
      aluWrite z rd (aluModSigned s.cfg.divMode (Forms.low (s.x rd) z) (Forms.low (s.x rs) z) z) s := by
  simp only [← State.opnd_eq_low]
  cases z <;> rfl

theorem exec_modu (z : Size) (rd rs : Reg) (s : State) :
    exec (Forms.modu z rd rs) s =
      aluWrite z rd (aluModUnsigned (Forms.low (s.x rd) z) (Forms.low (s.x rs) z) z) s := by
  simp only [← State.opnd_eq_low]
  cases z <;> rfl

/-- V of a product: the signed product lies outside its range (R115). -/
theorem mulOverflow_eq_decide (a b : Nat) (z : Size) :
    mulOverflow a b z =
      decide (¬(-(2 ^ (z.bits - 1)) ≤ signedOf a z * signedOf b z ∧
        signedOf a z * signedOf b z ≤ 2 ^ (z.bits - 1) - 1)) := by
  rw [decide_not, Bool.decide_and]
  rfl

/-- Settles O25. The low half of the product fits the size, and is the signed product modulo 2^n. -/
theorem mulWritesLowProductAndFlags : Obligations.MulWritesLowProductAndFlags := by
  intro z rd rs s n a b p r
  have hp : p = signedOf a z * signedOf b z := by simp only [p, int_eq_signedOf, a, b]
  have hfits : r < 2 ^ z.bits := Nat.mod_lt _ z.pow_bits_pos
  refine ⟨?_, hp ▸ (signedOf_mul_emod a b z).symm⟩
  calc exec (Forms.mul z rd rs) s
      = aluWrite z rd (aluOut r z (mulCarry a b z) (mulOverflow a b z)) s := exec_mul z rd rs s
    _ = .next (Forms.wrote s rd r (Forms.intFlags z r (mulCarry a b z) (mulOverflow a b z))) :=
      aluWrite_aluOut hfits _ _ rd s
    _ = _ := by rw [mulOverflow_eq_decide, ← hp]; rfl

/-- Settles O26. For a nonzero divisor the rounded quotient is masked to the size. -/
theorem divWritesRoundedQuotient : Obligations.DivWritesRoundedQuotient := by
  intro z rd rs s n q r
  rw [exec_div, aluDivSigned]
  split
  · exact aluWrite_byZeroOut z rd s
  · have hq : signedQuotient s.cfg.divMode (signedOf (Forms.low (s.x rd) z) z)
        (signedOf (Forms.low (s.x rs) z) z) = q := by
      rw [← int_eq_signedOf, ← int_eq_signedOf, ← roundedQuotient_eq]
    simp only [hq]
    exact aluWrite_aluOut (maskInt_lt q z) _ _ rd s

/-- Settles O27. The quotient is at most the dividend, which fits the size. -/
theorem divuWritesQuotient : Obligations.DivuWritesQuotient := by
  intro z rd rs s a b
  have hfits : a / b < 2 ^ z.bits := (Nat.div_le_self a b).trans_lt (low_lt _ z)
  rw [exec_divu, aluDivUnsigned]
  split
  · exact aluWrite_byZeroOut z rd s
  · exact aluWrite_aluOut hfits _ _ rd s

/-- Settles O28. -/
theorem modWritesRemainder : Obligations.ModWritesRemainder := by
  intro z rd rs s n a b r
  rw [exec_mod, aluModSigned]
  split
  · exact aluWrite_byZeroOut z rd s
  · simp only [← int_eq_signedOf, ← roundedQuotient_eq]
    exact aluWrite_aluOut (maskInt_lt _ z) _ _ rd s

/-- Settles O29. -/
theorem moduWritesRemainder : Obligations.ModuWritesRemainder := by
  intro z rd rs s a b
  have hfits : a % b < 2 ^ z.bits := (Nat.mod_le a b).trans_lt (low_lt _ z)
  rw [exec_modu, aluModUnsigned, ← Nat.mod_def]
  split
  · exact aluWrite_byZeroOut z rd s
  · exact aluWrite_aluOut hfits _ _ rd s

/-! ### CMP and CMPV -/

theorem exec_cmp (z : Size) (rd rs : Reg) (s : State) :
    exec (Forms.cmp z rd rs) s = flagWrite (aluSub (Forms.low (s.x rd) z) (Forms.low (s.x rs) z) z) s := by
  simp only [← State.opnd_eq_low]
  cases z <;> rfl

/-- The flags of a difference of two values of the size (R112, R114). -/
theorem aluSub_flags {a b : Nat} {z : Size} (ha : a < 2 ^ z.bits) (hb : b < 2 ^ z.bits) :
    (aluSub a b z).flags =
      Forms.intFlags z (if b ≤ a then a - b else a + 2 ^ z.bits - b) (decide (a < b))
        (decide (a.testBit (z.bits - 1) ≠ b.testBit (z.bits - 1) ∧
          (if b ≤ a then a - b else a + 2 ^ z.bits - b).testBit (z.bits - 1) ≠ a.testBit (z.bits - 1))) := by
  rw [← subOverflow_eq_decide, ← maskInt_sub ha hb]
  rfl

/-- Settles O30. -/
theorem compareWritesOnlyFlags : Obligations.CompareWritesOnlyFlags := by
  constructor
  · intro z rd rs s n a b r
    rw [exec_cmp, flagWrite, aluSub_flags (low_lt _ z) (low_lt _ z)]
    rfl
  · intro rd imm s a b r
    have hexec : exec (.cmpv rd imm) s = flagWrite (aluSub a b .b8) s := by
      rw [show a = s.opnd rd .b8 by rw [State.opnd_eq_low, low_b8]]
      rfl
    rw [hexec, flagWrite, aluSub_flags (z := .b8) (s.x rd).isLt imm.isLt]
    rfl

theorem pow_bits_eq_double (z : Size) : 2 ^ z.bits = 2 * 2 ^ (z.bits - 1) := by
  rw [← pow_succ', Nat.sub_add_cancel z.bits_pos]

/-- The sign of a difference, corrected by its overflow, orders the signed readings: with the sign bit read as "at
least half the range" this is linear arithmetic in each of the cases of the three signs. -/
theorem sign_xor_overflow_iff {a b r half : Nat} (ha : a < 2 * half) (hb : b < 2 * half)
    (hr : r = if b ≤ a then a - b else a + 2 * half - b) :
    ((decide (half ≤ r) ^^ (decide (half ≤ a) != decide (half ≤ b) && decide (half ≤ r) != decide (half ≤ a)))
      = true) ↔
    (if half ≤ a then (a : Int) - (2 * half : Nat) else a) < if half ≤ b then (b : Int) - (2 * half : Nat) else b := by
  by_cases h1 : half ≤ a <;> by_cases h2 : half ≤ b <;> by_cases h3 : half ≤ r <;>
    simp only [h1, h2, h3, if_true, if_false] <;> split at hr <;> simp <;> omega

/-- What the flags of a difference say of its operands (R114, R129). -/
theorem aluSub_orders {a b : Nat} {z : Size} (ha : a < 2 ^ z.bits) (hb : b < 2 ^ z.bits) :
    ((aluSub a b z).flags.z = true ↔ a = b) ∧ ((aluSub a b z).flags.c = true ↔ a < b) ∧
    (((aluSub a b z).flags.n ^^ (aluSub a b z).flags.v) = true ↔ signedOf a z < signedOf b z) := by
  have hlt := maskInt_lt ((a : Int) - b) z
  have hsub := maskInt_sub ha hb
  have hz : (aluSub a b z).flags.z = decide (maskInt ((a : Int) - b) z = 0) := rfl
  have hnv : ((aluSub a b z).flags.n ^^ (aluSub a b z).flags.v) =
      (msbOf (maskInt ((a : Int) - b) z) z ^^ subOverflow a b (maskInt ((a : Int) - b) z) z) := rfl
  have hcast : (2 : Int) ^ z.bits = ((2 ^ z.bits : Nat) : Int) := by push_cast; rfl
  refine ⟨?_, decide_eq_true_iff, ?_⟩
  · rw [hz, decide_eq_true_iff, hsub]
    split <;> omega
  · rw [hnv, subOverflow, msbOf_eq ha, msbOf_eq hb, msbOf_eq hlt, signedOf, signedOf, hcast]
    rw [pow_bits_eq_double z] at ha hb hsub ⊢
    exact sign_xor_overflow_iff ha hb hsub

/-- Settles O31. -/
theorem compareOrdersTheOperands : Obligations.CompareOrdersTheOperands := by
  intro z rd rs s t h
  rw [exec_cmp] at h
  cases h
  rw [int_eq_signedOf, int_eq_signedOf]
  exact aluSub_orders (low_lt _ z) (low_lt _ z)

/-! ### INC and DEC -/

theorem exec_inc (rd : Reg) (s : State) :
    exec (.inc rd) s = aluWrite .b8 rd (aluAdd (s.x rd).toNat 1 .b8) s := by
  rw [← low_b8, ← State.opnd_eq_low]
  rfl

theorem exec_dec (rd : Reg) (s : State) :
    exec (.dec rd) s = aluWrite .b8 rd (aluSub (s.x rd).toNat 1 .b8) s := by
  rw [← low_b8, ← State.opnd_eq_low]
  rfl

/-- The sign bit at size 8. -/
theorem msbOf_b8 {u : Nat} (h : u < 2 ^ 64) : msbOf u .b8 = decide (2 ^ 63 ≤ u) := msbOf_eq (z := .b8) h

/-- The add law with 1 at size 8 (R113, R131). -/
theorem aluAdd_one {a : Nat} (ha : a < 2 ^ 64) :
    aluAdd a 1 .b8 =
      aluOut ((a + 1) % 2 ^ 64) .b8 (decide (a = 2 ^ 64 - 1)) (decide (a = 2 ^ 63 - 1)) := by
  have hr : (a + 1) % 2 ^ 64 < 2 ^ 64 := Nat.mod_lt _ (by decide)
  have hcarry : addCarry a 1 .b8 = decide (a = 2 ^ 64 - 1) := by
    refine decide_eq_decide.mpr ?_
    change 2 ^ 64 - 1 < a + 1 ↔ _
    omega
  have hoverflow : addOverflow a 1 ((a + 1) % 2 ^ 64) .b8 = decide (a = 2 ^ 63 - 1) := by
    rw [addOverflow, msbOf_b8 ha, msbOf_b8 hr, msbOf_b8 (by decide), Bool.eq_iff_iff]
    simp only [Bool.and_eq_true, beq_iff_eq, bne_iff_ne, ne_eq, decide_eq_decide, decide_eq_true_eq]
    omega
  rw [← hcarry, ← hoverflow]
  rfl

/-- The sub law with 1 at size 8 (R114, R132). -/
theorem aluSub_one {a : Nat} (ha : a < 2 ^ 64) :
    aluSub a 1 .b8 =
      aluOut ((a + (2 ^ 64 - 1)) % 2 ^ 64) .b8 (decide (a = 0)) (decide (a = 2 ^ 63)) := by
  have hr : (a + (2 ^ 64 - 1)) % 2 ^ 64 < 2 ^ 64 := Nat.mod_lt _ (by decide)
  have hmask : maskInt ((a : Int) - (1 : Nat)) .b8 = (a + (2 ^ 64 - 1)) % 2 ^ 64 := by
    rw [maskInt_sub (z := .b8) ha (by decide)]
    simp only [Size.bits, Size.bytes]
    split <;> omega
  have hborrow : subBorrow a 1 = decide (a = 0) := decide_eq_decide.mpr Nat.lt_one_iff
  have hoverflow : subOverflow a 1 ((a + (2 ^ 64 - 1)) % 2 ^ 64) .b8 = decide (a = 2 ^ 63) := by
    rw [subOverflow, msbOf_b8 ha, msbOf_b8 hr, msbOf_b8 (by decide), Bool.eq_iff_iff]
    simp only [Bool.and_eq_true, bne_iff_ne, ne_eq, decide_eq_decide, decide_eq_true_eq]
    omega
  rw [← hborrow, ← hoverflow, ← hmask]
  rfl

/-- Settles O32. -/
theorem incAndDecWriteResultAndFlags : Obligations.IncAndDecWriteResultAndFlags := by
  intro rd s a i d
  have ha : a < 2 ^ 64 := (s.x rd).isLt
  constructor
  · rw [exec_inc, aluAdd_one ha]
    exact aluWrite_aluOut (z := .b8) (Nat.mod_lt _ (by decide)) _ _ rd s
  · rw [exec_dec, aluSub_one ha]
    exact aluWrite_aluOut (z := .b8) (Nat.mod_lt _ (by decide)) _ _ rd s

/-! ### AND, OR, XOR and the shifts -/

/-- The end of a bitwise instruction: the flags of a 64-bit result, read from the word itself (R112, R120). -/
theorem aluWrite_word (v : Word) (rd : Reg) (s : State) :
    aluWrite .b8 rd (aluOut v.toNat .b8 false false) s =
      .next { s with regs := s.regs.set rd v, flags := ⟨v == 0, v.msb, false, false⟩ } := by
  have hz : (v == 0) = decide (v.toNat = 0) := by
    rw [Bool.beq_eq_decide_eq, decide_eq_decide]
    exact BitVec.toNat_inj.symm
  have hn : v.msb = v.toNat.testBit 63 := BitVec.msb_eq_getLsbD_last v
  rw [aluWrite_aluOut (z := .b8) v.isLt, hz, hn, Forms.wrote, BitVec.ofNat_toNat, BitVec.setWidth_eq]
  rfl

theorem exec_and (rd rs : Reg) (s : State) :
    exec (.and rd rs) s = aluWrite .b8 rd (aluOut (s.x rd &&& s.x rs).toNat .b8 false false) s := by
  rw [BitVec.toNat_and, ← low_b8, ← low_b8, ← State.opnd_eq_low, ← State.opnd_eq_low]
  rfl

theorem exec_or (rd rs : Reg) (s : State) :
    exec (.or rd rs) s = aluWrite .b8 rd (aluOut (s.x rd ||| s.x rs).toNat .b8 false false) s := by
  rw [BitVec.toNat_or, ← low_b8, ← low_b8, ← State.opnd_eq_low, ← State.opnd_eq_low]
  rfl

theorem exec_xor (rd rs : Reg) (s : State) :
    exec (.xor rd rs) s = aluWrite .b8 rd (aluOut (s.x rd ^^^ s.x rs).toNat .b8 false false) s := by
  rw [BitVec.toNat_xor, ← low_b8, ← low_b8, ← State.opnd_eq_low, ← State.opnd_eq_low]
  rfl

/-- Settles O33. -/
theorem logicWritesBitwiseResult : Obligations.LogicWritesBitwiseResult := by
  intro rd rs s a b
  exact ⟨(exec_and rd rs s).trans (aluWrite_word _ rd s), (exec_or rd rs s).trans (aluWrite_word _ rd s),
    (exec_xor rd rs s).trans (aluWrite_word _ rd s)⟩

theorem exec_shl (rd : Reg) (s : State) :
    exec (.shl rd) s = aluWrite .b8 rd (aluShl s.cfg.shiftMode (s.x rd).toNat) s := by
  rw [← low_b8, ← State.opnd_eq_low]
  rfl

theorem exec_shr (rd : Reg) (s : State) :
    exec (.shr rd) s = aluWrite .b8 rd (aluShr s.cfg.shiftMode (s.x rd).toNat) s := by
  rw [← low_b8, ← State.opnd_eq_low]
  rfl

theorem shiftAmount_eq (m : ShiftMode) (a : Nat) : shiftAmount m a = if m = .self then a else 1 := by
  cases m <;> rfl

/-- From an amount of 64 on, a shift to the left leaves no bit of the word (R121). -/
theorem aluShl_eq (m : ShiftMode) (a : Nat) :
    aluShl m a = aluOut (a * 2 ^ shiftAmount m a % 2 ^ 64) .b8 false false := by
  unfold aluShl
  dsimp only
  split
  · next hk =>
    have hdvd : 2 ^ 64 ∣ a * 2 ^ shiftAmount m a := Dvd.dvd.mul_left (pow_dvd_pow 2 hk) a
    rw [Nat.mod_eq_zero_of_dvd hdvd]
  · rfl

/-- From an amount of 64 on, a shift to the right leaves no bit of the word (R121). -/
theorem aluShr_eq (m : ShiftMode) {a : Nat} (ha : a < 2 ^ 64) :
    aluShr m a = aluOut (a / 2 ^ shiftAmount m a) .b8 false false := by
  unfold aluShr
  dsimp only
  split
  · next hk =>
    have hlt : a < 2 ^ shiftAmount m a := ha.trans_le (Nat.pow_le_pow_right (by decide) hk)
    rw [Nat.div_eq_of_lt hlt]
  · rfl

/-- Settles O34. Under `self` the amount is the value itself, which is below its own power of two. -/
theorem shiftsFollowTheirLaws : Obligations.ShiftsFollowTheirLaws := by
  intro rd s a k
  have hk : shiftAmount s.cfg.shiftMode a = k := shiftAmount_eq _ a
  have ha : a < 2 ^ 64 := (s.x rd).isLt
  refine ⟨?_, ?_, fun hself => ?_⟩
  · rw [exec_shl, aluShl_eq, hk]
    exact aluWrite_aluOut (z := .b8) (Nat.mod_lt _ (by decide)) _ _ rd s
  · rw [exec_shr, aluShr_eq _ ha, hk]
    exact aluWrite_aluOut (z := .b8) ((Nat.div_le_self a _).trans_lt ha) _ _ rd s
  · rw [show k = a from if_pos hself]
    exact Nat.div_eq_of_lt Nat.lt_two_pow_self

end Sys2Proof.Machine
end

section
/-! Memory access and data movement (42_memory_access.md R190 to R197). Loads and stores go through one operation
each, in range or out of it. -/

namespace Sys2Proof.Machine

theorem exec_load (z : Size) (rd : Reg) (a : Word) (s : State) :
    exec (Forms.load z rd a) s = loadInto z rd a s := by
  cases z <;> rfl

theorem exec_loadr (z : Size) (rd rs : Reg) (s : State) :
    exec (Forms.loadr z rd rs) s = loadInto z rd (s.x rs) s := by
  cases z <;> rfl

theorem exec_store (z : Size) (rd : Reg) (a : Word) (s : State) :
    exec (Forms.store z rd a) s = storeFrom z rd a s := by
  cases z <;> rfl

theorem exec_storer (z : Size) (rd rs : Reg) (s : State) :
    exec (Forms.storer z rd rs) s = storeFrom z rd (s.x rs) s := by
  cases z <;> rfl

section Access

variable {z : Size} {a : Word} {s : State} (rd : Reg)

/-- A load in range, as the statements say it (R52). -/
theorem loadInto_of_le (h : a.toNat + z.bytes ≤ s.cfg.memSize) :
    loadInto z rd a s = .next { s with
      regs := s.regs.set rd (BitVec.ofNat 64 (Forms.memValue s a.toNat z.bytes)) } := by
  obtain ⟨-, e⟩ | ⟨hout, -⟩ := loadInto_cases z rd a s
  · rw [e, wordOfBytesLE_readBytes]
    rfl
  · omega

theorem loadInto_of_lt (h : s.cfg.memSize < a.toNat + z.bytes) :
    loadInto z rd a s = .next (Forms.faulted s .addressError a) := by
  obtain ⟨hin, -⟩ | ⟨-, e⟩ := loadInto_cases z rd a s
  · omega
  · exact e

/-- A store in range, as the statements say it (R53). -/
theorem storeFrom_of_le (hwf : s.mem.wf = true) (h : a.toNat + z.bytes ≤ s.cfg.memSize) :
    ∃ m, storeFrom z rd a s = .next { s with mem := m } ∧ Forms.StoredOnly s m a.toNat z.bytes (s.x rd) := by
  obtain ⟨-, e⟩ | ⟨hout, -⟩ := storeFrom_cases z rd a s
  · exact ⟨_, e, storedOnly_writeBytes hwf a.toNat z (s.x rd)⟩
  · omega

theorem storeFrom_of_lt (h : s.cfg.memSize < a.toNat + z.bytes) :
    storeFrom z rd a s = .next (Forms.faulted s .addressError a) := by
  obtain ⟨hin, -⟩ | ⟨-, e⟩ := storeFrom_cases z rd a s
  · omega
  · exact e

end Access

/-- Settles O43. -/
theorem loadsReadLittleEndianBytes : Obligations.LoadsReadLittleEndianBytes :=
  ⟨fun z rd a s h => (exec_load z rd a s).trans (loadInto_of_le rd h),
    fun z rd rs s h => (exec_loadr z rd rs s).trans (loadInto_of_le rd h)⟩

/-- Settles O44. -/
theorem storesWriteLittleEndianBytes : Obligations.StoresWriteLittleEndianBytes := by
  constructor
  · intro z rd a s hwf h
    rw [exec_store]
    exact storeFrom_of_le rd hwf h
  · intro z rd rs s hwf h
    rw [exec_storer]
    exact storeFrom_of_le rd hwf h

/-- Settles O45. -/
theorem outOfRangeAccessIsAddressError : Obligations.OutOfRangeAccessIsAddressError := by
  constructor
  · intro z rd a s h
    rw [exec_load, exec_store]
    exact ⟨loadInto_of_lt rd h, storeFrom_of_lt rd h⟩
  · intro z rd rs s h
    rw [exec_loadr, exec_storer]
    exact ⟨loadInto_of_lt rd h, storeFrom_of_lt rd h⟩

/-- Settles O47. -/
theorem movesAndClear : Obligations.MovesAndClear := by
  intro rd rs imm s
  exact ⟨rfl, rfl, rfl⟩

end Sys2Proof.Machine
end

section
/-! Jumps, calls and the stack (43_control_stack.md R211 to R227). PUSH and CALL are one push, POP and RET one pop,
each followed by the rest of its instruction. -/

namespace Sys2Proof.Machine

theorem jumpIf_eq (k : Condition) (imm : Word) (s : State) :
    jumpIf k imm s = .next { s with pc := if k.holds s.flags then imm else s.pc } := by
  rw [jumpIf]
  cases k.holds s.flags <;> rfl

/-- Settles O48. Each jump is `jumpIf` under its predicate; JLT and JGE compare N and V. -/
theorem jumpsFollowTheirPredicates : Obligations.JumpsFollowTheirPredicates := by
  intro a s f go
  have hless : Condition.signedLess.holds f = (f.v != f.n) := rfl
  have hge : Condition.signedGreaterEq.holds f = (f.v == f.n) := by
    rw [Condition.holds]
    cases f.v <;> cases f.n <;> rfl
  refine ⟨rfl, jumpIf_eq .zSet a s, jumpIf_eq .zClear a s, jumpIf_eq .nSet a s, jumpIf_eq .nClear a s,
    jumpIf_eq .cSet a s, jumpIf_eq .cClear a s, ?_, ?_⟩
  · rw [← hless]
    exact jumpIf_eq .signedLess a s
  · rw [← hge]
    exact jumpIf_eq .signedGreaterEq a s

theorem exec_push (z : Size) (rd : Reg) (s : State) :
    exec (Forms.push z rd) s = pushThen z (s.readReg rd z) s id := by
  cases z <;> rfl

theorem exec_pop (z : Size) (rd : Reg) (s : State) :
    exec (Forms.pop z rd) s = popThen z s fun v t => t.writeReg rd v z := by
  cases z <;> rfl

theorem exec_call (a : Word) (s : State) :
    exec (.call a) s = pushThen .b8 s.pc s fun t => t.setPc a := rfl

theorem exec_ret (s : State) : exec .ret s = popThen .b8 s fun v t => t.setPc v := rfl

section Stack

variable {z : Size} {s : State}

/-- The state after a push of v, before the rest of the instruction (R221). -/
def State.pushed (s : State) (z : Size) (v : Word) : State :=
  { s with
    mem := s.mem.writeBytes s.sp.toNat (bytesLE z.bytes (uval v z))
    regs := s.regs.set 15 (s.sp + BitVec.ofNat 64 z.bytes) }

theorem pushThen_of_le (v : Word) (rest : State → State) (h : s.sp.toNat + z.bytes ≤ s.cfg.memSize) :
    pushThen z v s rest = .next (rest (s.pushed z v)) := by
  obtain ⟨-, e⟩ | ⟨hout, -⟩ := pushThen_cases z v s rest
  · exact e
  · rw [State.sp_eq] at h
    omega

theorem pushThen_of_lt (v : Word) (rest : State → State) (h : s.cfg.memSize < s.sp.toNat + z.bytes) :
    pushThen z v s rest = .next (Forms.faulted s .stackOverflow s.sp) := by
  obtain ⟨hin, -⟩ | ⟨-, e⟩ := pushThen_cases z v s rest
  · rw [State.sp_eq] at h
    omega
  · exact e

variable (rest : Word → State → State)

theorem popThen_of_le (hfloor : s.cfg.stackFloor + z.bytes ≤ s.sp.toNat) (hin : s.sp.toNat ≤ s.cfg.memSize) :
    popThen z s rest =
      .next (rest (wordOfBytesLE (s.mem.readBytes (s.sp.toNat - z.bytes) z.bytes))
        (s.setX 15 (s.sp - BitVec.ofNat 64 z.bytes))) := by
  rw [State.sp_eq] at hfloor hin
  obtain ⟨-, -, e⟩ | ⟨-, hout, -⟩ | ⟨hunder, -⟩ := popThen_cases z s rest
  · exact e
  · omega
  · omega

theorem popThen_outside (hfloor : s.cfg.stackFloor + z.bytes ≤ s.sp.toNat) (hout : s.cfg.memSize < s.sp.toNat) :
    popThen z s rest = .next (Forms.faulted s .addressError (s.sp - BitVec.ofNat 64 z.bytes)) := by
  rw [State.sp_eq] at hfloor hout
  obtain ⟨-, hin, -⟩ | ⟨-, -, e⟩ | ⟨hunder, -⟩ := popThen_cases z s rest
  · omega
  · exact e
  · omega

theorem popThen_underflow (h : s.sp.toNat < s.cfg.stackFloor + z.bytes) :
    popThen z s rest = .next (Forms.faulted s .stackUnderflow s.sp) := by
  rw [State.sp_eq] at h
  obtain ⟨hfloor, -⟩ | ⟨hfloor, -⟩ | ⟨-, e⟩ := popThen_cases z s rest
  · omega
  · omega
  · exact e

end Stack

/-- What a push leaves in Memory, as the statements say it (R53, R221). -/
theorem storedOnly_pushed {s : State} (hwf : s.mem.wf = true) (z : Size) (v : Word) :
    Forms.StoredOnly s (s.pushed z v).mem s.sp.toNat z.bytes v :=
  storedOnly_writeBytes hwf s.sp.toNat z v

/-- The low bytes of a register read at a size are those of the register. -/
theorem pushed_readReg (s : State) (z : Size) (rd : Reg) : s.pushed z (s.readReg rd z) = s.pushed z (s.x rd) := by
  rw [State.pushed, State.readReg, uval_mask, State.pushed]

/-- Settles O49. -/
theorem callPushesTheReturnAddress : Obligations.CallPushesTheReturnAddress := by
  intro a s hwf h
  exact ⟨_, (exec_call a s).trans (pushThen_of_le s.pc _ h), storedOnly_pushed hwf .b8 s.pc⟩

/-- Settles O50. -/
theorem retPopsThePc : Obligations.RetPopsThePc := by
  intro s hfloor hin
  rw [exec_ret, popThen_of_le (z := .b8) _ hfloor hin, wordOfBytesLE_readBytes]
  rfl

/-- Settles O52. -/
theorem pushStoresAtSp : Obligations.PushStoresAtSp := by
  intro z rd s hwf h
  refine ⟨(s.pushed z (s.x rd)).mem, ?_, storedOnly_pushed hwf z (s.x rd)⟩
  rw [exec_push, pushThen_of_le _ _ h, pushed_readReg]
  rfl

/-- Settles O53. The popped value fits its size, so the write port keeps it whole. -/
theorem popLoadsBelowSp : Obligations.PopLoadsBelowSp := by
  intro z rd s hfloor hin
  rw [exec_pop, popThen_of_le _ hfloor hin, State.writeReg_eq, mask_wordOfBytesLE, wordOfBytesLE_readBytes]
  rfl

/-- A pop of the size just pushed, in a state that has the pushed bytes and SP, reads the value back and restores
SP (R225, R227). With Memory smaller than 2^64 bytes SP does not wrap. -/
theorem popThen_pushed {z : Size} {s t : State} (v : Word) (rest : Word → State → State) (hwf : s.mem.wf = true)
    (hsize : s.cfg.memSize < 2 ^ 64) (hfloor : s.cfg.stackFloor ≤ s.sp.toNat)
    (hroom : s.sp.toNat + z.bytes ≤ s.cfg.memSize) (hcfg : t.cfg = s.cfg) (hmem : t.mem = (s.pushed z v).mem)
    (hsp : t.sp = s.sp + BitVec.ofNat 64 z.bytes) :
    popThen z t rest = .next (rest (mask v z) (t.setX 15 s.sp)) := by
  have hnat : t.sp.toNat = s.sp.toNat + z.bytes := by
    rw [hsp, BitVec.toNat_add, BitVec.toNat_ofNat]
    omega
  have hback := Memory.readBytes_writeBytes hwf s.sp.toNat (bytesLE z.bytes (uval v z))
  rw [bytesLE_length] at hback
  have hread : t.mem.readBytes (t.sp.toNat - z.bytes) z.bytes = bytesLE z.bytes (uval v z) := by
    rw [hnat, Nat.add_sub_cancel, hmem]
    exact hback
  rw [popThen_of_le rest (by rw [hcfg]; omega) (by rw [hcfg]; omega), hread, wordOfBytesLE_bytesLE_uval, hsp,
    BitVec.add_sub_cancel]

theorem State.sp_pushed (s : State) (z : Size) (v : Word) :
    (s.pushed z v).sp = s.sp + BitVec.ofNat 64 z.bytes := (s.x_setX_same 15 _ :)

/-- Settles O51. -/
theorem callThenRetReturns : Obligations.CallThenRetReturns := by
  intro a p s t hwf hsize hfloor hroom h
  rw [exec_call, pushThen_of_le (z := .b8) _ _ hroom] at h
  cases h
  have hpop := popThen_pushed (z := .b8) (t := { (s.pushed .b8 s.pc).setPc a with pc := p }) s.pc
    (fun v t => t.setPc v) hwf hsize hfloor hroom rfl rfl (s.sp_pushed .b8 s.pc)
  refine ⟨_, (exec_ret _).trans hpop, mask_b8 s.pc, ?_⟩
  rw [State.sp_eq, State.x_setPc, State.x_setX_same]

/-- Settles O54. -/
theorem pushThenPopMovesTheValue : Obligations.PushThenPopMovesTheValue := by
  intro z x y s t hwf hsize hfloor hroom hy h
  rw [exec_push, pushThen_of_le _ _ hroom, pushed_readReg] at h
  cases h
  have hpop := popThen_pushed (t := s.pushed z (s.x x)) (s.x x) (fun v t => t.writeReg y v z) hwf hsize hfloor hroom
    rfl rfl (s.sp_pushed z (s.x x))
  refine ⟨_, (exec_pop z y _).trans hpop, ?_, ?_⟩
  · rw [State.writeReg_eq, State.x_setX_same, mask_toNat, mask_toNat, Nat.mod_mod]
    rfl
  · rw [State.sp_eq, State.writeReg_eq, State.x_setX_ne _ _ hy.symm, State.x_setX_same]

/-- Settles O55. -/
theorem stackErrorsAreFatal : Obligations.StackErrorsAreFatal := by
  intro z rd a s
  rw [exec_push, exec_call, exec_pop, exec_ret]
  exact ⟨pushThen_of_lt _ _, pushThen_of_lt (z := .b8) _ _, popThen_underflow _, popThen_underflow (z := .b8) _,
    popThen_outside _, popThen_outside (z := .b8) _⟩

end Sys2Proof.Machine
end

section
/-! System and I/O (45_system.md R260 to R269, 44_io.md R240 to R249), by the kind of the device at the address. -/

namespace Sys2Proof.Machine

/-- Settles O56. -/
theorem systemInstructionsWriteOneBit : Obligations.SystemInstructionsWriteOneBit := by
  intro s
  exact ⟨rfl, rfl, rfl, rfl, rfl, rfl, rfl, rfl, rfl, rfl⟩

/-- Settles O57. -/
theorem svioWritesTheDevice : Obligations.SvioWritesTheDevice := by
  intro rd a s v given dropped
  change Host.Outcome.next (s.ioWrite a v) = _
  rw [State.ioWrite]
  rcases deviceAt s.io a with _ | (_ | _ | ⟨_, _ | _, _⟩) <;> rfl

/-- Settles O58. -/
theorem loadioReadsTheDevice : Obligations.LoadioReadsTheDevice := by
  intro rd a s dropped
  change Host.Outcome.next ((s.ioReadEffect a).setX rd (s.ioReadValue a)) = _
  rw [State.ioReadEffect, State.ioReadValue]
  rcases deviceAt s.io a with _ | (_ | _ | ⟨_ | _, _, _⟩) <;> rfl

/-- Settles O59. -/
theorem showioChangesNoCoreState : Obligations.ShowioChangesNoCoreState := by
  intro a s shown dropped
  change Host.Outcome.next (s.ioShow a) = _
  rw [State.ioShow]
  rcases deviceAt s.io a with _ | (_ | _ | ⟨_, _, _ | _⟩) <;> rfl

/-- Settles O60. -/
theorem deviceStatesAreSeparate : Obligations.DeviceStatesAreSeparate := by
  intro io a b d d' h
  rw [deviceAt_setDeviceAt h, deviceAt_setDeviceAt h, if_pos rfl]
  exact ⟨rfl, fun hne => if_neg hne⟩

end Sys2Proof.Machine
end

section
/-! Floating-point patterns (41_fpu.md R160, R167 to R169). The class of a pattern is read from its magnitude alone:
below that of infinity it is finite, above it a NaN. The definitions of the statements and of the unit are each said
in these terms, and `fpUnpack_cases` says what a pattern of each class unpacks to. -/

namespace Sys2Proof.Machine

/-! ### The fields of the statements are those of the unit -/

theorem fpBits_eq (f : FpFormat) : Forms.fpBits f = fpWidth f := by cases f <;> rfl

theorem fracBits_eq (f : FpFormat) : Forms.fracBits f = fpFracBits f := by cases f <;> rfl

theorem expMax_eq (f : FpFormat) : 2 ^ Forms.expBits f - 1 = fpExpMax f := by cases f <;> rfl

theorem bias_eq (f : FpFormat) : Forms.bias f = fpBias f := by cases f <;> rfl

theorem size_bits_eq (f : FpFormat) : f.size.bits = fpWidth f := by cases f <;> rfl

theorem fpWidth_succ (f : FpFormat) : 2 ^ fpWidth f = 2 * 2 ^ (fpWidth f - 1) := by cases f <;> rfl

theorem expField_eq (f : FpFormat) (x : Nat) : Forms.expField f x = fpExpField f x := by cases f <;> rfl

theorem fracField_eq (f : FpFormat) (x : Nat) : Forms.fracField f x = fpFracField f x := by cases f <;> rfl

theorem signBit_eq (f : FpFormat) (x : Nat) : Forms.signBit f x = fpSign f x := by cases f <;> rfl

theorem inf_eq (f : FpFormat) (neg : Bool) : Forms.inf f neg = fpInf f neg := by cases f <;> rfl

theorem zero_eq (f : FpFormat) (neg : Bool) : Forms.zero f neg = fpZero f neg := by cases f <;> rfl

/-! ### The class of a pattern, by its magnitude -/

theorem fpMagnitude_lt_width (f : FpFormat) (x : Nat) : fpMagnitude f x < 2 ^ (fpWidth f - 1) :=
  Nat.mod_lt _ (Nat.two_pow_pos _)

theorem fpMagnitude_lt (f : FpFormat) (x : Nat) : fpMagnitude f x < (fpExpMax f + 1) * 2 ^ fpFracBits f := by
  have h : (fpExpMax f + 1) * 2 ^ fpFracBits f = 2 ^ (fpWidth f - 1) := by cases f <;> rfl
  rw [h]
  exact fpMagnitude_lt_width f x

/-- Quotient and remainder of a number below `(top + 1) * p`, against `top * p`. -/
theorem div_mod_top {mag top p : Nat} (hlt : mag < (top + 1) * p) :
    (mag / p = top ∧ mag % p ≠ 0 ↔ top * p < mag) ∧ (mag / p = top ∧ mag % p = 0 ↔ mag = top * p) ∧
      (mag / p ≠ top ↔ mag < top * p) := by
  have hp : 0 < p := Nat.pos_of_ne_zero (by rintro rfl; simp at hlt)
  have hsplit := Nat.div_add_mod' mag p
  have hmod := Nat.mod_lt mag hp
  have hle : mag / p ≤ top := Nat.lt_succ_iff.mp ((Nat.div_lt_iff_lt_mul hp).mpr hlt)
  obtain htop | hbelow := hle.eq_or_lt
  · rw [htop] at hsplit ⊢
    omega
  · have hstep : (mag / p + 1) * p ≤ top * p := Nat.mul_le_mul_right p hbelow
    rw [Nat.succ_mul] at hstep
    omega

section Class

variable {f : FpFormat} {x : Nat}

theorem isNan_iff : Forms.IsNan f x ↔ fpInfMagnitude f < fpMagnitude f x := by
  rw [Forms.IsNan, expField_eq, fracField_eq, expMax_eq, fpExpField_eq, fpFracField_eq]
  exact (div_mod_top (fpMagnitude_lt f x)).1

theorem isInf_iff : Forms.IsInf f x ↔ fpMagnitude f x = fpInfMagnitude f := by
  rw [Forms.IsInf, expField_eq, fracField_eq, expMax_eq, fpExpField_eq, fpFracField_eq]
  exact (div_mod_top (fpMagnitude_lt f x)).2.1

theorem isFinite_iff : Forms.IsFinite f x ↔ fpMagnitude f x < fpInfMagnitude f := by
  rw [Forms.IsFinite, expField_eq, expMax_eq, fpExpField_eq]
  exact (div_mod_top (fpMagnitude_lt f x)).2.2

theorem isZero_iff : Forms.IsZero f x ↔ fpMagnitude f x = 0 := by
  rw [Forms.IsZero, fpBits_eq, fpMagnitude]

theorem fpIsNan_iff : fpIsNan f x = true ↔ Forms.IsNan f x := by
  rw [Forms.IsNan, expField_eq, fracField_eq, expMax_eq, fpIsNan, Bool.and_eq_true, beq_iff_eq, bne_iff_ne]

theorem fpIsInf_iff : fpIsInf f x = true ↔ Forms.IsInf f x := by
  rw [Forms.IsInf, expField_eq, fracField_eq, expMax_eq, fpIsInf, Bool.and_eq_true, beq_iff_eq, beq_iff_eq]

theorem fpIsZero_iff : fpIsZero f x = true ↔ Forms.IsZero f x := by
  rw [isZero_iff, fpIsZero, beq_iff_eq]

theorem fpInfMagnitude_pos (f : FpFormat) : 0 < fpInfMagnitude f := by cases f <;> decide

theorem isFinite_of_isZero (h : Forms.IsZero f x) : Forms.IsFinite f x := by
  rw [isZero_iff] at h
  rw [isFinite_iff, h]
  exact fpInfMagnitude_pos f

theorem not_isNan_of_isFinite (h : Forms.IsFinite f x) : ¬Forms.IsNan f x := fun hnan => h hnan.1

theorem not_isInf_of_isFinite (h : Forms.IsFinite f x) : ¬Forms.IsInf f x := fun hinf => h hinf.1

theorem not_isNan_of_isInf (h : Forms.IsInf f x) : ¬Forms.IsNan f x := fun hnan => hnan.2 h.2

theorem not_isFinite_iff : ¬Forms.IsFinite f x ↔ Forms.IsNan f x ∨ Forms.IsInf f x := by
  rw [isFinite_iff, isNan_iff, isInf_iff]
  omega

end Class

/-! ### What a pattern unpacks to -/

/-- The significand of a finite magnitude (R160, R164). -/
def fpSignificand (f : FpFormat) (mag : Nat) : Nat :=
  if mag / 2 ^ fpFracBits f = 0 then mag % 2 ^ fpFracBits f else 2 ^ fpFracBits f + mag % 2 ^ fpFracBits f

/-- The exponent of a finite magnitude's last place (R160, R164). -/
def fpExponent (f : FpFormat) (mag : Nat) : Int :=
  if mag / 2 ^ fpFracBits f = 0 then fpMinExp f else fpMinExp f + (((mag / 2 ^ fpFracBits f : Nat) : Int) - 1)

theorem fpSignificand_lt (f : FpFormat) (mag : Nat) : fpSignificand f mag < 2 ^ (fpFracBits f + 1) := by
  have hmod := Nat.mod_lt mag (Nat.two_pow_pos (fpFracBits f))
  rw [fpSignificand, pow_succ]
  split <;> omega

theorem fpSignificand_eq_zero_iff {f : FpFormat} {mag : Nat} : fpSignificand f mag = 0 ↔ mag = 0 := by
  have hp := Nat.two_pow_pos (fpFracBits f)
  have hsplit := Nat.div_add_mod mag (2 ^ fpFracBits f)
  rw [fpSignificand]
  split
  · next hq =>
    rw [hq, Nat.mul_zero] at hsplit
    omega
  · next hq =>
    have hne : mag ≠ 0 := by
      rintro rfl
      exact hq (Nat.zero_div _)
    omega

/-- What a finite pattern stands for. -/
def fpFinite (f : FpFormat) (x : Nat) : FpClass :=
  .finite (fpSign f x) (fpSignificand f (fpMagnitude f x)) (fpExponent f (fpMagnitude f x))

theorem fpUnpack_of_isNan {f : FpFormat} {x : Nat} (h : Forms.IsNan f x) : fpUnpack f x = .nan := by
  rw [fpUnpack, if_pos (fpIsNan_iff.mpr h)]

theorem fpUnpack_of_isInf {f : FpFormat} {x : Nat} (h : Forms.IsInf f x) : fpUnpack f x = .inf (fpSign f x) := by
  rw [fpUnpack, if_neg (mt fpIsNan_iff.mp (not_isNan_of_isInf h)), if_pos (fpIsInf_iff.mpr h)]

theorem fpUnpack_of_isFinite {f : FpFormat} {x : Nat} (h : Forms.IsFinite f x) : fpUnpack f x = fpFinite f x := by
  rw [fpUnpack, if_neg (mt fpIsNan_iff.mp (not_isNan_of_isFinite h)),
    if_neg (mt fpIsInf_iff.mp (not_isInf_of_isFinite h)), fpExpField_eq, fpFracField_eq, fpFinite, fpSignificand,
    fpExponent]
  split <;> rfl

/-- Everything a pattern can be. -/
theorem fpUnpack_cases (f : FpFormat) (x : Nat) :
    (Forms.IsNan f x ∧ fpUnpack f x = .nan) ∨ (Forms.IsInf f x ∧ fpUnpack f x = .inf (fpSign f x)) ∨
      (Forms.IsFinite f x ∧ fpUnpack f x = fpFinite f x) := by
  by_cases hfin : Forms.IsFinite f x
  · exact .inr (.inr ⟨hfin, fpUnpack_of_isFinite hfin⟩)
  · obtain hnan | hinf := not_isFinite_iff.mp hfin
    · exact .inl ⟨hnan, fpUnpack_of_isNan hnan⟩
    · exact .inr (.inl ⟨hinf, fpUnpack_of_isInf hinf⟩)

/-! ### The patterns an operation answers -/

section Results

variable (f : FpFormat) (neg : Bool)

theorem fpPattern_lt {mag : Nat} (h : mag < 2 ^ (fpWidth f - 1)) : fpPattern f neg mag < 2 ^ fpWidth f := by
  rw [fpWidth_succ, fpPattern]
  split <;> omega

theorem lt_width_of_le_inf {mag : Nat} (h : mag ≤ fpInfMagnitude f) : mag < 2 ^ (fpWidth f - 1) :=
  h.trans_lt (fpInfMagnitude_lt f)

/-- An operation's answer that is no NaN: a pattern whose magnitude is at most that of infinity, of a sign. -/
def Numeric (r : Nat) : Prop := ∃ mag ≤ fpInfMagnitude f, r = fpPattern f neg mag

theorem numeric_fpInf : Numeric f neg (fpInf f neg) := ⟨_, le_rfl, rfl⟩

theorem numeric_fpZero : Numeric f neg (fpZero f neg) := ⟨0, Nat.zero_le _, rfl⟩

theorem numeric_fpRound (m : Nat) (e : Int) : Numeric f neg (fpRound f neg m e) := by
  rw [fpRound]
  split
  · exact numeric_fpZero f neg
  · exact ⟨_, min_le_right _ _, rfl⟩

variable {f neg} {r : Nat}

theorem Numeric.lt (h : Numeric f neg r) : r < 2 ^ fpWidth f := by
  obtain ⟨mag, hmag, rfl⟩ := h
  exact fpPattern_lt f neg (lt_width_of_le_inf f hmag)

theorem Numeric.sign (h : Numeric f neg r) : fpSign f r = neg := by
  obtain ⟨mag, hmag, rfl⟩ := h
  exact fpSign_pattern f neg (lt_width_of_le_inf f hmag)

theorem Numeric.not_isNan (h : Numeric f neg r) : ¬Forms.IsNan f r := by
  obtain ⟨mag, hmag, rfl⟩ := h
  rw [isNan_iff, fpMagnitude_pattern f neg (lt_width_of_le_inf f hmag)]
  omega

end Results

theorem fpMagnitude_fpZero (f : FpFormat) (neg : Bool) : fpMagnitude f (fpZero f neg) = 0 :=
  fpMagnitude_pattern f neg (Nat.two_pow_pos _)

theorem isZero_fpZero (f : FpFormat) (neg : Bool) : Forms.IsZero f (fpZero f neg) :=
  isZero_iff.mpr (fpMagnitude_fpZero f neg)

theorem isInf_fpInf (f : FpFormat) (neg : Bool) : Forms.IsInf f (fpInf f neg) :=
  isInf_iff.mpr (fpMagnitude_pattern f neg (fpInfMagnitude_lt f))

/-- An infinity is that of its sign. -/
theorem fpInf_of_isInf {f : FpFormat} {x : Nat} (hx : x < 2 ^ fpWidth f) (h : Forms.IsInf f x) :
    fpInf f (fpSign f x) = x := by
  rw [fpInf, ← isInf_iff.mp h, fpPattern_eta f hx]

theorem fpNanOf_spec (cfg : Config) (op : FpOp) (f : FpFormat) (a b : Nat) :
    Forms.IsNan f (fpNanOf cfg op f a b) ∧ fpNanOf cfg op f a b < 2 ^ fpWidth f := by
  by_cases h : fpIsNan f (uval (nanCandidate cfg op f a b) f.size) = true
  · rw [show fpNanOf cfg op f a b = _ from if_pos h]
    exact ⟨fpIsNan_iff.mp h, size_bits_eq f ▸ uval_lt _ _⟩
  · rw [show fpNanOf cfg op f a b = canonicalNan f from if_neg h]
    cases f <;> exact ⟨fpIsNan_iff.mp (by decide), by decide⟩

end Sys2Proof.Machine
end

section
/-! The floating-point operations by the classes of their operands (41_fpu.md R161 to R171): one equation per case,
and for each operation when it answers the parameter's NaN and what else it answers. -/

namespace Sys2Proof.Machine

theorem isInf_or_isFinite {f : FpFormat} {x : Nat} (h : ¬Forms.IsNan f x) :
    Forms.IsInf f x ∨ Forms.IsFinite f x := by
  obtain ⟨hnan, -⟩ | ⟨hinf, -⟩ | ⟨hfin, -⟩ := fpUnpack_cases f x
  · exact absurd hnan h
  · exact .inl hinf
  · exact .inr hfin

section Equations

variable (cfg : Config) (op : FpOp) {f : FpFormat} (flip : Bool) {a b : Nat}

/-! ### Sum and difference -/

theorem fpAddSub_of_nan (h : Forms.IsNan f a ∨ Forms.IsNan f b) :
    fpAddSub cfg op f flip a b = fpNanOf cfg op f a b := by
  rw [fpAddSub]
  obtain h | h := h
  · rw [fpUnpack_of_isNan h]
  · rw [fpUnpack_of_isNan h]
    cases fpUnpack f a <;> rfl

theorem fpAddSub_inf_inf (ha : Forms.IsInf f a) (hb : Forms.IsInf f b) :
    fpAddSub cfg op f flip a b =
      if fpSign f a = (fpSign f b ^^ flip) then fpInf f (fpSign f a) else fpNanOf cfg op f a b := by
  rw [fpAddSub, fpUnpack_of_isInf ha, fpUnpack_of_isInf hb]

theorem fpAddSub_inf_finite (ha : Forms.IsInf f a) (hb : Forms.IsFinite f b) :
    fpAddSub cfg op f flip a b = fpInf f (fpSign f a) := by
  rw [fpAddSub, fpUnpack_of_isInf ha, fpUnpack_of_isFinite hb]
  rfl

theorem fpAddSub_finite_inf (ha : Forms.IsFinite f a) (hb : Forms.IsInf f b) :
    fpAddSub cfg op f flip a b = fpInf f (fpSign f b ^^ flip) := by
  rw [fpAddSub, fpUnpack_of_isFinite ha, fpUnpack_of_isInf hb]
  rfl

theorem fpAddSub_finite (ha : Forms.IsFinite f a) (hb : Forms.IsFinite f b) :
    fpAddSub cfg op f flip a b =
      addFinite f (fpSign f a) (fpSignificand f (fpMagnitude f a)) (fpExponent f (fpMagnitude f a))
        (fpSign f b ^^ flip) (fpSignificand f (fpMagnitude f b)) (fpExponent f (fpMagnitude f b)) := by
  rw [fpAddSub, fpUnpack_of_isFinite ha, fpUnpack_of_isFinite hb]
  rfl

/-! ### Product -/

theorem fpMul_of_nan (h : Forms.IsNan f a ∨ Forms.IsNan f b) : fpMul cfg f a b = fpNanOf cfg .mul f a b := by
  rw [fpMul]
  obtain h | h := h
  · rw [fpUnpack_of_isNan h]
  · rw [fpUnpack_of_isNan h]
    cases fpUnpack f a <;> rfl

theorem fpMul_zero_by_inf (h : (Forms.IsZero f a ∧ Forms.IsInf f b) ∨ (Forms.IsInf f a ∧ Forms.IsZero f b)) :
    fpMul cfg f a b = fpNanOf cfg .mul f a b := by
  rw [fpMul]
  obtain ⟨hzero, hinf⟩ | ⟨hinf, hzero⟩ := h
  all_goals
    rw [fpUnpack_of_isFinite (isFinite_of_isZero hzero), fpUnpack_of_isInf hinf]
    exact if_pos (fpSignificand_eq_zero_iff.mpr (isZero_iff.mp hzero))

theorem fpSignificand_ne_zero (h : ¬Forms.IsZero f a) : fpSignificand f (fpMagnitude f a) ≠ 0 :=
  fun hm => h (isZero_iff.mpr (fpSignificand_eq_zero_iff.mp hm))

theorem fpMul_inf_left (ha : Forms.IsInf f a) (hb : ¬Forms.IsNan f b) (hne : ¬Forms.IsZero f b) :
    fpMul cfg f a b = fpInf f (fpSign f a ^^ fpSign f b) := by
  rw [fpMul, fpUnpack_of_isInf ha]
  obtain hinf | hfin := isInf_or_isFinite hb
  · rw [fpUnpack_of_isInf hinf]
  · rw [fpUnpack_of_isFinite hfin]
    exact if_neg (fpSignificand_ne_zero hne)

theorem fpMul_inf_right (ha : ¬Forms.IsNan f a) (hne : ¬Forms.IsZero f a) (hb : Forms.IsInf f b) :
    fpMul cfg f a b = fpInf f (fpSign f a ^^ fpSign f b) := by
  rw [fpMul, fpUnpack_of_isInf hb]
  obtain hinf | hfin := isInf_or_isFinite ha
  · rw [fpUnpack_of_isInf hinf]
  · rw [fpUnpack_of_isFinite hfin]
    exact if_neg (fpSignificand_ne_zero hne)

theorem fpMul_finite (ha : Forms.IsFinite f a) (hb : Forms.IsFinite f b) :
    fpMul cfg f a b =
      fpRound f (fpSign f a ^^ fpSign f b)
        (fpSignificand f (fpMagnitude f a) * fpSignificand f (fpMagnitude f b))
        (fpExponent f (fpMagnitude f a) + fpExponent f (fpMagnitude f b)) := by
  rw [fpMul, fpUnpack_of_isFinite ha, fpUnpack_of_isFinite hb]
  rfl

/-! ### Quotient -/

theorem fpDiv_of_nan (h : Forms.IsNan f a ∨ Forms.IsNan f b) : fpDiv cfg f a b = fpNanOf cfg .div f a b := by
  rw [fpDiv]
  obtain h | h := h
  · rw [fpUnpack_of_isNan h]
  · rw [fpUnpack_of_isNan h]
    cases fpUnpack f a <;> rfl

theorem fpDiv_inf_inf (ha : Forms.IsInf f a) (hb : Forms.IsInf f b) :
    fpDiv cfg f a b = fpNanOf cfg .div f a b := by
  rw [fpDiv, fpUnpack_of_isInf ha, fpUnpack_of_isInf hb]

theorem fpDiv_inf_finite (ha : Forms.IsInf f a) (hb : Forms.IsFinite f b) :
    fpDiv cfg f a b = fpInf f (fpSign f a ^^ fpSign f b) := by
  rw [fpDiv, fpUnpack_of_isInf ha, fpUnpack_of_isFinite hb]
  rfl

theorem fpDiv_finite_inf (ha : Forms.IsFinite f a) (hb : Forms.IsInf f b) :
    fpDiv cfg f a b = fpZero f (fpSign f a ^^ fpSign f b) := by
  rw [fpDiv, fpUnpack_of_isFinite ha, fpUnpack_of_isInf hb]
  rfl

theorem fpDiv_zero_zero (ha : Forms.IsZero f a) (hb : Forms.IsZero f b) :
    fpDiv cfg f a b = fpNanOf cfg .div f a b := by
  rw [fpDiv, fpUnpack_of_isFinite (isFinite_of_isZero ha), fpUnpack_of_isFinite (isFinite_of_isZero hb), fpFinite,
    fpFinite]
  dsimp only
  rw [if_pos (fpSignificand_eq_zero_iff.mpr (isZero_iff.mp hb)),
    if_pos (fpSignificand_eq_zero_iff.mpr (isZero_iff.mp ha))]

/-- A nonzero value by zero is the infinity of the sign (R170). -/
theorem fpDiv_by_zero (ha : ¬Forms.IsNan f a) (hne : ¬Forms.IsZero f a) (hb : Forms.IsZero f b) :
    fpDiv cfg f a b = fpInf f (fpSign f a ^^ fpSign f b) := by
  obtain hinf | hfin := isInf_or_isFinite ha
  · exact fpDiv_inf_finite cfg hinf (isFinite_of_isZero hb)
  · rw [fpDiv, fpUnpack_of_isFinite hfin, fpUnpack_of_isFinite (isFinite_of_isZero hb), fpFinite, fpFinite]
    dsimp only
    rw [if_pos (fpSignificand_eq_zero_iff.mpr (isZero_iff.mp hb)), if_neg (fpSignificand_ne_zero hne)]

theorem fpDiv_finite (ha : Forms.IsFinite f a) (hb : Forms.IsFinite f b) (hne : ¬Forms.IsZero f b) :
    fpDiv cfg f a b =
      divFinite f (fpSign f a ^^ fpSign f b) (fpSignificand f (fpMagnitude f a)) (fpExponent f (fpMagnitude f a))
        (fpSignificand f (fpMagnitude f b)) (fpExponent f (fpMagnitude f b)) := by
  rw [fpDiv, fpUnpack_of_isFinite ha, fpUnpack_of_isFinite hb]
  exact if_neg (fpSignificand_ne_zero hne)

/-! ### Square root -/

theorem fpSqrt_of_nan (h : Forms.IsNan f a) : fpSqrt cfg f a = fpNanOf cfg .sqrt f a 0 := by
  rw [fpSqrt, fpUnpack_of_isNan h]

theorem fpSqrt_of_isZero (h : Forms.IsZero f a) : fpSqrt cfg f a = fpZero f (fpSign f a) := by
  rw [fpSqrt, fpUnpack_of_isFinite (isFinite_of_isZero h)]
  exact if_pos (fpSignificand_eq_zero_iff.mpr (isZero_iff.mp h))

/-- The root of a value below zero (R171). -/
theorem fpSqrt_below_zero (hs : fpSign f a = true) (hne : ¬Forms.IsZero f a) :
    fpSqrt cfg f a = fpNanOf cfg .sqrt f a 0 := by
  rw [fpSqrt]
  obtain ⟨-, e⟩ | ⟨-, e⟩ | ⟨-, e⟩ := fpUnpack_cases f a <;> rw [e]
  · rw [hs]
    rfl
  · rw [fpFinite]
    dsimp only
    rw [if_neg (fpSignificand_ne_zero hne), if_pos hs]

theorem fpSqrt_inf (hs : fpSign f a = false) (h : Forms.IsInf f a) : fpSqrt cfg f a = fpInf f false := by
  rw [fpSqrt, fpUnpack_of_isInf h, hs]
  rfl

theorem fpSqrt_finite (hs : fpSign f a = false) (h : Forms.IsFinite f a) (hne : ¬Forms.IsZero f a) :
    fpSqrt cfg f a = sqrtFinite f (fpSignificand f (fpMagnitude f a)) (fpExponent f (fpMagnitude f a)) := by
  rw [fpSqrt, fpUnpack_of_isFinite h, fpFinite, hs]
  exact if_neg (fpSignificand_ne_zero hne)

end Equations

/-! ### NaN or a numeric answer -/

/-- An answer is the parameter's NaN in the invalid cases, and otherwise numeric, of a sign. -/
def NanOrNumeric (f : FpFormat) (nan : Nat) (invalid : Prop) (neg : Bool) (r : Nat) : Prop :=
  (invalid ∧ r = nan) ∨ (¬invalid ∧ Numeric f neg r)

section NanOrNumeric

variable {f : FpFormat} {cfg : Config} {op : FpOp} {a b r : Nat} {invalid : Prop} {neg : Bool}

theorem NanOrNumeric.isNan_iff (h : NanOrNumeric f (fpNanOf cfg op f a b) invalid neg r) :
    Forms.IsNan f r ↔ invalid := by
  obtain ⟨hinv, rfl⟩ | ⟨hval, hnum⟩ := h
  · exact iff_of_true (fpNanOf_spec cfg op f a b).1 hinv
  · exact iff_of_false hnum.not_isNan hval

theorem NanOrNumeric.lt (h : NanOrNumeric f (fpNanOf cfg op f a b) invalid neg r) : r < 2 ^ fpWidth f := by
  obtain ⟨-, rfl⟩ | ⟨-, hnum⟩ := h
  · exact (fpNanOf_spec cfg op f a b).2
  · exact hnum.lt

theorem NanOrNumeric.sign (h : NanOrNumeric f (fpNanOf cfg op f a b) invalid neg r) (hr : ¬Forms.IsNan f r) :
    fpSign f r = neg := by
  obtain ⟨-, rfl⟩ | ⟨-, hnum⟩ := h
  · exact absurd (fpNanOf_spec cfg op f a b).1 hr
  · exact hnum.sign

theorem Numeric.self (h : Numeric f neg r) : Numeric f (fpSign f r) r := by
  rwa [h.sign]

theorem numeric_addFinite (na : Bool) (ma : Nat) (ea : Int) (nb : Bool) (mb : Nat) (eb : Int) :
    ∃ neg, Numeric f neg (addFinite f na ma ea nb mb eb) := by
  unfold addFinite
  dsimp only
  split
  · exact ⟨_, numeric_fpZero f _⟩
  · exact ⟨_, numeric_fpRound f _ _ _⟩

variable (cfg op f a b)

/-- When a sum or difference is a NaN (R171). -/
theorem fpAddSub_nanOrNumeric (flip : Bool) :
    NanOrNumeric f (fpNanOf cfg op f a b)
      (Forms.IsNan f a ∨ Forms.IsNan f b ∨
        (Forms.IsInf f a ∧ Forms.IsInf f b ∧ fpSign f a ≠ (fpSign f b ^^ flip)))
      (fpSign f (fpAddSub cfg op f flip a b)) (fpAddSub cfg op f flip a b) := by
  by_cases hnan : Forms.IsNan f a ∨ Forms.IsNan f b
  · exact .inl ⟨by tauto, fpAddSub_of_nan cfg op flip hnan⟩
  obtain ⟨hna, hnb⟩ := not_or.mp hnan
  obtain ha | ha := isInf_or_isFinite hna
  · obtain hb | hb := isInf_or_isFinite hnb
    · by_cases hs : fpSign f a = (fpSign f b ^^ flip)
      · refine .inr ⟨by tauto, Numeric.self (neg := fpSign f a) ?_⟩
        rw [fpAddSub_inf_inf cfg op flip ha hb, if_pos hs]
        exact numeric_fpInf f _
      · exact .inl ⟨by tauto, (fpAddSub_inf_inf cfg op flip ha hb).trans (if_neg hs)⟩
    · have hb' := not_isInf_of_isFinite hb
      refine .inr ⟨by tauto, Numeric.self (neg := fpSign f a) ?_⟩
      rw [fpAddSub_inf_finite cfg op flip ha hb]
      exact numeric_fpInf f _
  · have ha' := not_isInf_of_isFinite ha
    refine .inr ⟨by tauto, ?_⟩
    obtain hb | hb := isInf_or_isFinite hnb
    · rw [fpAddSub_finite_inf cfg op flip ha hb]
      exact (numeric_fpInf f _).self
    · rw [fpAddSub_finite cfg op flip ha hb]
      obtain ⟨neg, hnum⟩ := numeric_addFinite (f := f) (fpSign f a) (fpSignificand f (fpMagnitude f a))
        (fpExponent f (fpMagnitude f a)) (fpSign f b ^^ flip) (fpSignificand f (fpMagnitude f b))
        (fpExponent f (fpMagnitude f b))
      exact hnum.self

/-- When a product is a NaN, and its sign (R169, R171). -/
theorem fpMul_nanOrNumeric :
    NanOrNumeric f (fpNanOf cfg .mul f a b)
      (Forms.IsNan f a ∨ Forms.IsNan f b ∨ (Forms.IsZero f a ∧ Forms.IsInf f b) ∨
        (Forms.IsInf f a ∧ Forms.IsZero f b))
      (fpSign f a ^^ fpSign f b) (fpMul cfg f a b) := by
  by_cases hnan : Forms.IsNan f a ∨ Forms.IsNan f b
  · exact .inl ⟨by tauto, fpMul_of_nan cfg hnan⟩
  by_cases hinv : (Forms.IsZero f a ∧ Forms.IsInf f b) ∨ (Forms.IsInf f a ∧ Forms.IsZero f b)
  · exact .inl ⟨.inr (.inr hinv), fpMul_zero_by_inf cfg hinv⟩
  refine .inr ⟨by tauto, ?_⟩
  obtain ⟨hna, hnb⟩ := not_or.mp hnan
  obtain ha | ha := isInf_or_isFinite hna
  · rw [fpMul_inf_left cfg ha hnb (by tauto)]
    exact numeric_fpInf f _
  · obtain hb | hb := isInf_or_isFinite hnb
    · rw [fpMul_inf_right cfg hna (by tauto) hb]
      exact numeric_fpInf f _
    · rw [fpMul_finite cfg ha hb]
      exact numeric_fpRound f _ _ _

/-- When a quotient is a NaN, and its sign (R169 to R171). -/
theorem fpDiv_nanOrNumeric :
    NanOrNumeric f (fpNanOf cfg .div f a b)
      (Forms.IsNan f a ∨ Forms.IsNan f b ∨ (Forms.IsZero f a ∧ Forms.IsZero f b) ∨
        (Forms.IsInf f a ∧ Forms.IsInf f b))
      (fpSign f a ^^ fpSign f b) (fpDiv cfg f a b) := by
  by_cases hnan : Forms.IsNan f a ∨ Forms.IsNan f b
  · exact .inl ⟨by tauto, fpDiv_of_nan cfg hnan⟩
  by_cases hzero : Forms.IsZero f a ∧ Forms.IsZero f b
  · exact .inl ⟨by tauto, fpDiv_zero_zero cfg hzero.1 hzero.2⟩
  by_cases hinf : Forms.IsInf f a ∧ Forms.IsInf f b
  · exact .inl ⟨by tauto, fpDiv_inf_inf cfg hinf.1 hinf.2⟩
  refine .inr ⟨by tauto, ?_⟩
  obtain ⟨hna, hnb⟩ := not_or.mp hnan
  by_cases hzb : Forms.IsZero f b
  · rw [fpDiv_by_zero cfg hna (by tauto) hzb]
    exact numeric_fpInf f _
  obtain hb | hb := isInf_or_isFinite hnb
  · rw [fpDiv_finite_inf cfg ((isInf_or_isFinite hna).resolve_left (by tauto)) hb]
    exact numeric_fpZero f _
  · obtain ha | ha := isInf_or_isFinite hna
    · rw [fpDiv_inf_finite cfg ha hb]
      exact numeric_fpInf f _
    · rw [fpDiv_finite cfg ha hb hzb]
      exact numeric_fpRound f _ _ _

/-- When a root is a NaN (R171). -/
theorem fpSqrt_nanOrNumeric :
    NanOrNumeric f (fpNanOf cfg .sqrt f a 0)
      (Forms.IsNan f a ∨ (fpSign f a = true ∧ ¬Forms.IsZero f a)) (fpSign f a) (fpSqrt cfg f a) := by
  by_cases hnan : Forms.IsNan f a
  · exact .inl ⟨.inl hnan, fpSqrt_of_nan cfg hnan⟩
  by_cases hzero : Forms.IsZero f a
  · rw [fpSqrt_of_isZero cfg hzero]
    exact .inr ⟨by tauto, numeric_fpZero f _⟩
  cases hs : fpSign f a with
  | true => exact .inl ⟨.inr ⟨rfl, hzero⟩, fpSqrt_below_zero cfg hs hzero⟩
  | false =>
    refine .inr ⟨by simp [hnan], ?_⟩
    obtain ha | ha := isInf_or_isFinite hnan
    · rw [fpSqrt_inf cfg hs ha]
      exact numeric_fpInf f _
    · rw [fpSqrt_finite cfg hs ha hzero]
      exact numeric_fpRound f _ _ _

end NanOrNumeric

/-- Settles O39. -/
theorem nanExactlyForNanOrInvalid : Obligations.NanExactlyForNanOrInvalid := by
  intro cfg f a b _ _
  simp only [signBit_eq]
  refine ⟨?_, ?_, (fpMul_nanOrNumeric f cfg a b).isNan_iff, (fpDiv_nanOrNumeric f cfg a b).isNan_iff,
    (fpSqrt_nanOrNumeric f cfg a).isNan_iff, fun op => (fpNanOf_spec cfg op f a b).1⟩
  · rw [fpAdd]
    simpa only [Bool.xor_false] using (fpAddSub_nanOrNumeric f cfg .add a b false).isNan_iff
  · rw [fpSub]
    simpa only [Bool.xor_true, ne_eq, Bool.not_eq_not, Bool.eq_not, not_not] using
      (fpAddSub_nanOrNumeric f cfg .sub a b true).isNan_iff

/-- Settles O40. -/
theorem fpDivisionByZeroGivesInfinity : Obligations.FpDivisionByZeroGivesInfinity := by
  intro cfg f a b _ _ hna hne hb
  rw [inf_eq, signBit_eq, signBit_eq]
  exact fpDiv_by_zero cfg hna hne hb

end Sys2Proof.Machine
end

section
/-! The floating-point instructions (41_fpu.md R162, R167 to R181), the signs of infinities and zeros (R166, R169,
R171) and the properties of sine and cosine (R174). -/

namespace Sys2Proof.Machine

/-! ### The instructions -/

/-- The flags of the unit are those of the statements (R167 to R169). -/
theorem fpOut_flags (f : FpFormat) (r : Nat) : (fpOut f r).flags = Forms.fpFlags f r := by
  have hv : (fpIsNan f r || fpIsInf f r) = decide (Forms.expField f r = 2 ^ Forms.expBits f - 1) := by
    rw [Bool.eq_iff_iff, Bool.or_eq_true, fpIsNan_iff, fpIsInf_iff, ← not_isFinite_iff, decide_eq_true_iff,
      Forms.IsFinite, not_not]
  have hz : fpIsZero f r = decide (r % 2 ^ (Forms.fpBits f - 1) = 0) := by
    rw [Bool.eq_iff_iff, fpIsZero_iff, decide_eq_true_iff, Forms.IsZero]
  rw [fpOut, Forms.fpFlags, signBit_eq, ← hv, ← hz]

theorem fpOpnd_eq_fpOperand (s : State) (i : Reg) (f : FpFormat) : s.fpOpnd i f = Forms.fpOperand s i f := by
  rw [State.fpOpnd_eq, size_bits_eq, Forms.fpOperand, fpBits_eq]

theorem fpOperand_lt (s : State) (i : Reg) (f : FpFormat) : Forms.fpOperand s i f < 2 ^ fpWidth f := by
  rw [Forms.fpOperand, fpBits_eq]
  exact Nat.mod_lt _ (Nat.two_pow_pos _)

/-- The state the statements give a floating-point instruction, with the warnings it adds. -/
def wroteFp (s : State) (f : FpFormat) (rd : Reg) (r : Nat) (w : List Warning) : State :=
  { Forms.wrote s rd r (Forms.fpFlags f r) with warnings := s.warnings ++ w }

/-- The end of a floating-point instruction that may warn (R162, R172). -/
theorem fpWrite_warnIf {f : FpFormat} {r : Nat} (h : r < 2 ^ fpWidth f) (rd : Reg) (s : State) (c : Bool)
    (w : Warning) : fpWrite f rd r (s.warnIf c w) = .next (wroteFp s f rd r (if c then [w] else [])) := by
  rw [fpWrite_eq (size_bits_eq f ▸ h), fpOut_flags, wroteFp, ← State.warnIf_warnings]
  cases c <;> rfl

/-- The end of a floating-point instruction that does not warn (R162). -/
theorem fpWrite_wroteFp {f : FpFormat} {r : Nat} (h : r < 2 ^ fpWidth f) (rd : Reg) (s : State) :
    fpWrite f rd r s = .next (wroteFp s f rd r []) :=
  fpWrite_warnIf h rd s false .fpDivisionByZero

theorem exec_fadd (f : FpFormat) (rd rs : Reg) (s : State) : exec (Forms.fadd f rd rs) s =
    fpWrite f rd (fpAdd s.cfg f (Forms.fpOperand s rd f) (Forms.fpOperand s rs f)) s := by
  simp only [← fpOpnd_eq_fpOperand]
  cases f <;> rfl

theorem exec_fsub (f : FpFormat) (rd rs : Reg) (s : State) : exec (Forms.fsub f rd rs) s =
    fpWrite f rd (fpSub s.cfg f (Forms.fpOperand s rd f) (Forms.fpOperand s rs f)) s := by
  simp only [← fpOpnd_eq_fpOperand]
  cases f <;> rfl

theorem exec_fmul (f : FpFormat) (rd rs : Reg) (s : State) : exec (Forms.fmul f rd rs) s =
    fpWrite f rd (fpMul s.cfg f (Forms.fpOperand s rd f) (Forms.fpOperand s rs f)) s := by
  simp only [← fpOpnd_eq_fpOperand]
  cases f <;> rfl

theorem exec_fdiv (f : FpFormat) (rd rs : Reg) (s : State) : exec (Forms.fdiv f rd rs) s =
    fpWrite f rd (fpDiv s.cfg f (Forms.fpOperand s rd f) (Forms.fpOperand s rs f))
      (s.warnIf (fpIsZero f (Forms.fpOperand s rs f)) .fpDivisionByZero) := by
  simp only [← fpOpnd_eq_fpOperand]
  cases f <;> rfl

theorem exec_fsqrt (f : FpFormat) (rd : Reg) (s : State) : exec (Forms.fsqrt f rd) s =
    fpWrite f rd (fpSqrt s.cfg f (Forms.fpOperand s rd f))
      (s.warnIf (fpBelowZero f (Forms.fpOperand s rd f)) .sqrtOfNegative) := by
  simp only [← fpOpnd_eq_fpOperand]
  cases f <;> rfl

theorem exec_fsin (f : FpFormat) (rd : Reg) (s : State) : exec (Forms.fsin f rd) s =
    fpWrite f rd (fpSin s.cfg f (Forms.fpOperand s rd f)) s := by
  simp only [← fpOpnd_eq_fpOperand]
  cases f <;> rfl

theorem exec_fcos (f : FpFormat) (rd : Reg) (s : State) : exec (Forms.fcos f rd) s =
    fpWrite f rd (fpCos s.cfg f (Forms.fpOperand s rd f)) s := by
  simp only [← fpOpnd_eq_fpOperand]
  cases f <;> rfl

theorem fpBelowZero_iff {f : FpFormat} {a : Nat} :
    fpBelowZero f a = true ↔ fpSign f a = true ∧ ¬Forms.IsZero f a ∧ ¬Forms.IsNan f a := by
  simp only [fpBelowZero, Bool.and_eq_true, Bool.not_eq_true', ← fpIsZero_iff, ← fpIsNan_iff, Bool.not_eq_true,
    and_assoc]

/-! ### Sine and cosine -/

theorem fpOne_lt_inf (f : FpFormat) : fpOne f < fpInfMagnitude f := by cases f <;> decide

/-- The magnitude of a value brought into [-1, 1] is at most that of 1.0 (R174). -/
theorem fpUnitRange_spec (f : FpFormat) (x : Nat) :
    ∃ mag ≤ fpOne f, fpUnitRange f x = fpPattern f (fpSign f x) mag :=
  ⟨_, Nat.lt_succ_iff.mp (Nat.mod_lt _ (Nat.succ_pos _)), rfl⟩

theorem nan_or_inf_iff {f : FpFormat} {a : Nat} : (fpIsNan f a || fpIsInf f a) = true ↔ ¬Forms.IsFinite f a := by
  rw [Bool.or_eq_true, fpIsNan_iff, fpIsInf_iff, not_isFinite_iff]

section SinCos

variable (cfg : Config) {f : FpFormat} {a : Nat}

theorem fpSin_of_not_isFinite (h : ¬Forms.IsFinite f a) : fpSin cfg f a = fpNanOf cfg .sin f a 0 :=
  if_pos (nan_or_inf_iff.mpr h)

theorem fpCos_of_not_isFinite (h : ¬Forms.IsFinite f a) : fpCos cfg f a = fpNanOf cfg .cos f a 0 :=
  if_pos (nan_or_inf_iff.mpr h)

theorem fpSin_of_isZero (h : Forms.IsZero f a) : fpSin cfg f a = a := by
  rw [fpSin, if_neg (mt nan_or_inf_iff.mp (not_not_intro (isFinite_of_isZero h))), if_pos (fpIsZero_iff.mpr h)]

theorem fpCos_of_isZero (h : Forms.IsZero f a) : fpCos cfg f a = fpPattern f false (fpOne f) := by
  rw [fpCos, if_neg (mt nan_or_inf_iff.mp (not_not_intro (isFinite_of_isZero h))), if_pos (fpIsZero_iff.mpr h)]
  exact (Nat.zero_add _).symm

/-- The sine of a finite value is a pattern of magnitude at most that of 1.0 (R174). -/
theorem fpSin_of_isFinite (ha : a < 2 ^ fpWidth f) (h : Forms.IsFinite f a) :
    ∃ neg, ∃ mag ≤ fpOne f, fpSin cfg f a = fpPattern f neg mag := by
  by_cases hzero : Forms.IsZero f a
  · refine ⟨fpSign f a, 0, Nat.zero_le _, ?_⟩
    rw [fpSin_of_isZero cfg hzero, ← isZero_iff.mp hzero, fpPattern_eta f ha]
  · rw [fpSin, if_neg (mt nan_or_inf_iff.mp (not_not_intro h)), if_neg (mt fpIsZero_iff.mp hzero)]
    exact ⟨_, fpUnitRange_spec f _⟩

/-- The cosine of a finite value is a pattern of magnitude at most that of 1.0 (R174). -/
theorem fpCos_of_isFinite (h : Forms.IsFinite f a) :
    ∃ neg, ∃ mag ≤ fpOne f, fpCos cfg f a = fpPattern f neg mag := by
  by_cases hzero : Forms.IsZero f a
  · exact ⟨false, _, le_rfl, fpCos_of_isZero cfg hzero⟩
  · rw [fpCos, if_neg (mt nan_or_inf_iff.mp (not_not_intro h)), if_neg (mt fpIsZero_iff.mp hzero)]
    exact ⟨_, fpUnitRange_spec f _⟩

theorem fpSin_lt (ha : a < 2 ^ fpWidth f) : fpSin cfg f a < 2 ^ fpWidth f := by
  by_cases h : Forms.IsFinite f a
  · obtain ⟨neg, mag, hmag, e⟩ := fpSin_of_isFinite cfg ha h
    exact e ▸ fpPattern_lt f neg (lt_width_of_le_inf f (hmag.trans (fpOne_lt_inf f).le))
  · exact fpSin_of_not_isFinite cfg h ▸ (fpNanOf_spec cfg .sin f a 0).2

theorem fpCos_lt : fpCos cfg f a < 2 ^ fpWidth f := by
  by_cases h : Forms.IsFinite f a
  · obtain ⟨neg, mag, hmag, e⟩ := fpCos_of_isFinite cfg h
    exact e ▸ fpPattern_lt f neg (lt_width_of_le_inf f (hmag.trans (fpOne_lt_inf f).le))
  · exact fpCos_of_not_isFinite cfg h ▸ (fpNanOf_spec cfg .cos f a 0).2

end SinCos

/-- Settles O35. Every result fits its format, so the write port keeps it whole. -/
theorem fpInstructionsWriteResultAndFlags : Obligations.FpInstructionsWriteResultAndFlags := by
  intro f rd rs s a b after
  refine ⟨?_, ?_, ?_, ?_, ?_, ?_, ?_⟩
  · rw [exec_fadd]
    exact fpWrite_wroteFp (fpAddSub_nanOrNumeric f s.cfg .add a b false).lt rd s
  · rw [exec_fsub]
    exact fpWrite_wroteFp (fpAddSub_nanOrNumeric f s.cfg .sub a b true).lt rd s
  · rw [exec_fmul]
    exact fpWrite_wroteFp (fpMul_nanOrNumeric f s.cfg a b).lt rd s
  · rw [exec_fdiv, fpWrite_warnIf (fpDiv_nanOrNumeric f s.cfg a b).lt]
    have hwarn : (if fpIsZero f b then [Warning.fpDivisionByZero] else []) =
        if b % 2 ^ (Forms.fpBits f - 1) = 0 then [.fpDivisionByZero] else [] := if_congr fpIsZero_iff rfl rfl
    rw [hwarn]
    rfl
  · rw [exec_fsqrt, fpWrite_warnIf (fpSqrt_nanOrNumeric f s.cfg a).lt]
    have hwarn : (if fpBelowZero f a then [Warning.sqrtOfNegative] else []) =
        if Forms.signBit f a = true ∧ ¬(a % 2 ^ (Forms.fpBits f - 1) = 0) ∧
            ¬(Forms.expField f a = 2 ^ Forms.expBits f - 1 ∧ Forms.fracField f a ≠ 0)
          then [.sqrtOfNegative] else [] := if_congr (signBit_eq f a ▸ fpBelowZero_iff) rfl rfl
    rw [hwarn]
    rfl
  · rw [exec_fsin]
    exact fpWrite_wroteFp (fpSin_lt s.cfg (fpOperand_lt s rd f)) rd s
  · rw [exec_fcos]
    exact fpWrite_wroteFp (fpCos_lt s.cfg) rd s

/-! ### Infinities and the signs of zeros -/

/-- The sum of opposite finite values is +0 (R166). -/
theorem addFinite_opposite (f : FpFormat) (neg : Bool) (m : Nat) (e : Int) :
    addFinite f neg m e (!neg) m e = fpZero f false := by
  cases neg <;> simp [addFinite, signedMag]

/-- The sum of two zeros is -0 only where both are (R166). -/
theorem addFinite_zeros (f : FpFormat) (na nb : Bool) (ea eb : Int) :
    addFinite f na 0 ea nb 0 eb = fpZero f (na && nb) := by
  cases na <;> cases nb <;> simp [addFinite, signedMag]

theorem fpSign_fpZero (f : FpFormat) (neg : Bool) : fpSign f (fpZero f neg) = neg := (numeric_fpZero f neg).sign

theorem fpAddSub_zeros (cfg : Config) (op : FpOp) (f : FpFormat) (flip na nb : Bool) :
    fpAddSub cfg op f flip (fpZero f na) (fpZero f nb) = fpZero f (na && (nb ^^ flip)) := by
  have hfin (neg : Bool) := isFinite_of_isZero (isZero_fpZero f neg)
  have hm : fpSignificand f 0 = 0 := fpSignificand_eq_zero_iff.mpr rfl
  rw [fpAddSub_finite cfg op flip (hfin na) (hfin nb), fpMagnitude_fpZero, fpMagnitude_fpZero, hm, addFinite_zeros,
    fpSign_fpZero, fpSign_fpZero]

/-- Settles O41. Each clause is one of the equations of the operations, or the sign of a numeric answer. -/
theorem infinitiesAndZeroSigns : Obligations.InfinitiesAndZeroSigns := by
  intro cfg f a b ha hb
  rw [fpBits_eq] at ha hb
  simp only [inf_eq, zero_eq, signBit_eq]
  refine ⟨fun hia hib hs => ?_, fun hia hib hs => ?_, fun hia hfb => ⟨?_, ?_, ?_, ?_⟩, fun hia hnb hzb => ⟨?_, ?_⟩,
    fun hia hfb => ⟨?_, ?_⟩, (fpMul_nanOrNumeric f cfg a b).sign, (fpDiv_nanOrNumeric f cfg a b).sign,
    fun hfa => ?_, fun hfa hs hmag => ?_, fun na nb => ⟨?_, ?_⟩, fun neg => ?_, ?_⟩
  · rw [fpAdd, fpAddSub_inf_inf cfg .add false hia hib, Bool.xor_false, if_pos hs, fpInf_of_isInf ha hia]
  · rw [fpSub, fpAddSub_inf_inf cfg .sub true hia hib, Bool.xor_true, if_pos (Bool.eq_not.mpr hs),
      fpInf_of_isInf ha hia]
  · rw [fpAdd, fpAddSub_inf_finite cfg .add false hia hfb, fpInf_of_isInf ha hia]
  · rw [fpAdd, fpAddSub_finite_inf cfg .add false hfb hia, Bool.xor_false, fpInf_of_isInf ha hia]
  · rw [fpSub, fpAddSub_inf_finite cfg .sub true hia hfb, fpInf_of_isInf ha hia]
  · rw [fpSub, fpAddSub_finite_inf cfg .sub true hfb hia, Bool.xor_true]
  · exact fpMul_inf_left cfg hia hnb hzb
  · rw [fpMul_inf_right cfg hnb hzb hia, Bool.xor_comm]
  · exact fpDiv_inf_finite cfg hia hfb
  · rw [fpDiv_finite_inf cfg hfb hia, Bool.xor_comm]
  · rw [fpSub, fpAddSub_finite cfg .sub true hfa hfa, Bool.xor_true, addFinite_opposite]
  · have hmag' : fpMagnitude f b = fpMagnitude f a := by rw [fpMagnitude, fpMagnitude, ← fpBits_eq, hmag]
    have hfb : Forms.IsFinite f b := by rwa [isFinite_iff, hmag', ← isFinite_iff]
    rw [fpAdd, fpAddSub_finite cfg .add false hfa hfb, hmag', Bool.xor_false, Bool.eq_not.mpr hs.symm,
      addFinite_opposite]
  · rw [fpAdd, fpAddSub_zeros, Bool.xor_false]
  · rw [fpSub, fpAddSub_zeros, Bool.xor_true]
  · rw [fpSqrt_of_isZero cfg (isZero_fpZero f neg), fpSign_fpZero]
  · exact fpSqrt_inf cfg (numeric_fpInf f false).sign (isInf_fpInf f false)

end Sys2Proof.Machine
end

section
/-! The values of patterns and correct rounding (41_fpu.md R160, R163, R164, R166). A value is a signed number of units
of 2^fpMinExp; what `fpRound` answers is then the pattern nearest to the exact value, in any ordered field in which
that value lies: the rationals for sums, products and quotients, the reals for roots. -/

namespace Sys2Proof.Machine

section Signed

variable {K : Type*} [Field K]

/-- A number with a sign. -/
def signed (neg : Bool) (x : K) : K := if neg then -x else x

@[simp] theorem signed_false (x : K) : signed false x = x := rfl

@[simp] theorem signed_true (x : K) : signed true x = -x := rfl

@[simp] theorem signed_zero (neg : Bool) : signed neg (0 : K) = 0 := by cases neg <;> simp

theorem signed_not (neg : Bool) (x : K) : signed (!neg) x = -signed neg x := by cases neg <;> simp

theorem signed_mul (neg : Bool) (x y : K) : signed neg x * y = signed neg (x * y) := by cases neg <;> simp

theorem signed_mul_signed (na nb : Bool) (x y : K) : signed na x * signed nb y = signed (na ^^ nb) (x * y) := by
  cases na <;> cases nb <;> simp

theorem signed_div_signed (na nb : Bool) (x y : K) : signed na x / signed nb y = signed (na ^^ nb) (x / y) := by
  cases na <;> cases nb <;> simp [neg_div, div_neg]

theorem signed_sub_signed (neg : Bool) (x y : K) : signed neg x - signed neg y = signed neg (x - y) := by
  cases neg
  · rfl
  · simp only [signed_true]
    ring

@[simp] theorem abs_signed [LinearOrder K] (neg : Bool) (x : K) : |signed neg x| = |x| := by cases neg <;> simp

end Signed

section Values

variable {K : Type*} [Field K] [LinearOrder K] [IsStrictOrderedRing K]

/-- Signs only move two magnitudes apart. -/
theorem abs_sub_le_signed (na nb : Bool) {x y : K} (hx : 0 ≤ x) (hy : 0 ≤ y) :
    |x - y| ≤ |signed na x - signed nb y| := by
  have h := abs_abs_sub_abs_le (signed na x) (signed nb y)
  rwa [abs_signed, abs_signed, abs_of_nonneg hx, abs_of_nonneg hy] at h

/-- Two like magnitudes with signs are the same value, or differ in sign and are nonzero. -/
theorem abs_signed_sub_lt {na nb : Bool} {x y : K} (hx : 0 ≤ x) (hy : 0 < y) (hne : signed na x ≠ signed nb x) :
    |x - y| < |signed na x - signed nb y| := by
  have hx0 : x ≠ 0 := by
    rintro rfl
    exact hne (by simp)
  have hxpos : 0 < x := lt_of_le_of_ne hx hx0.symm
  have hsum : |signed na x - signed nb y| = x + y := by
    cases na <;> cases nb
    · exact absurd rfl hne
    · simpa using abs_of_pos (by positivity : 0 < x + y)
    · rw [signed_true, signed_false, ← neg_add', abs_neg, abs_of_pos (by positivity)]
    · exact absurd rfl hne
  rw [hsum, abs_lt]
  constructor <;> linarith

/-- The value of a pattern in units of 2^fpMinExp (R160, R164). -/
theorem value_eq_units (f : FpFormat) (x : Nat) :
    Forms.value f x = signed (fpSign f x) (fpUnits f (fpMagnitude f x) : ℚ) * (2 : ℚ) ^ fpMinExp f := by
  have hsign (v : ℚ) : (if fpSign f x = true then -1 else 1) * v = signed (fpSign f x) v := by
    cases fpSign f x <;> simp
  rw [Forms.value, signBit_eq, expField_eq, fracField_eq, fracBits_eq, bias_eq, fpExpField_eq, fpFracField_eq,
    hsign, signed_mul, fpUnits]
  congr 1
  split
  · rfl
  · next hk =>
    generalize fpMagnitude f x / 2 ^ fpFracBits f = k at hk ⊢
    rw [Nat.cast_mul, mul_assoc, Nat.cast_pow, Nat.cast_ofNat, ← zpow_natCast, ← zpow_add₀ two_ne_zero, fpMinExp]
    congr 2
    omega

/-- The value of a pattern in a field over the rationals. -/
theorem cast_value (f : FpFormat) (x : Nat) :
    ((Forms.value f x : ℚ) : K) = signed (fpSign f x) (fpUnits f (fpMagnitude f x) : K) * (2 : K) ^ fpMinExp f := by
  rw [value_eq_units]
  cases fpSign f x <;> simp

/-- The value of a finite pattern, from its significand and exponent (R160). -/
theorem value_of_isFinite {f : FpFormat} {x : Nat} (h : Forms.IsFinite f x) :
    Forms.value f x =
      signed (fpSign f x) ((fpSignificand f (fpMagnitude f x) : ℚ) * 2 ^ fpExponent f (fpMagnitude f x)) := by
  obtain ⟨-, he, hunits⟩ := fpUnpack_units f (fpUnpack_of_isFinite h)
  rw [value_eq_units, hunits, signed_mul, Nat.cast_mul, mul_assoc, Nat.cast_pow, Nat.cast_ofNat, ← zpow_natCast,
    ← zpow_add₀ two_ne_zero, Int.toNat_of_nonneg (by omega), sub_add_cancel]

/-! ### Sine and cosine lie in [-1, 1] -/

theorem fpUnits_fpOne (f : FpFormat) : (fpUnits f (fpOne f) : ℚ) * 2 ^ fpMinExp f = 1 := by
  have hp : 0 < 2 ^ fpFracBits f := Nat.two_pow_pos _
  have hbias : fpBias f ≠ 0 := by cases f <;> decide
  have hdiv : fpOne f / 2 ^ fpFracBits f = fpBias f := Nat.mul_div_cancel _ hp
  have hmod : fpOne f % 2 ^ fpFracBits f = 0 := Nat.mul_mod_left _ _
  rw [fpUnits, hdiv, hmod, if_neg hbias, Nat.add_zero, ← pow_add, Nat.cast_pow, Nat.cast_ofNat, ← zpow_natCast,
    ← zpow_add₀ two_ne_zero, fpMinExp]
  rw [show ((fpFracBits f + (fpBias f - 1) : Nat) : Int) + (1 - fpBias f - fpFracBits f) = 0 by omega, zpow_zero]

/-- A pattern of magnitude at most that of 1.0 fits the format, is finite and lies in [-1, 1]. -/
theorem pattern_in_unit_range {f : FpFormat} (neg : Bool) {mag : Nat} (h : mag ≤ fpOne f) :
    fpPattern f neg mag < 2 ^ Forms.fpBits f ∧ Forms.IsFinite f (fpPattern f neg mag) ∧
      |Forms.value f (fpPattern f neg mag)| ≤ 1 := by
  have hlt : mag < fpInfMagnitude f := h.trans_lt (fpOne_lt_inf f)
  have hwidth := lt_width_of_le_inf f hlt.le
  refine ⟨fpBits_eq f ▸ fpPattern_lt f neg hwidth, ?_, ?_⟩
  · rwa [isFinite_iff, fpMagnitude_pattern f neg hwidth]
  · have hu : (0 : ℚ) < 2 ^ fpMinExp f := by positivity
    have hunits : (fpUnits f mag : ℚ) ≤ fpUnits f (fpOne f) := by exact_mod_cast (fpUnits_strictMono f).monotone h
    rw [value_eq_units, fpMagnitude_pattern f neg hwidth, abs_mul, abs_signed, Nat.abs_cast, abs_of_pos hu,
      ← fpUnits_fpOne f]
    exact mul_le_mul_of_nonneg_right hunits hu.le

/-- The units of infinity, read as if it were finite, and those of the largest finite magnitude. -/
theorem fpUnits_inf_and_max (f : FpFormat) :
    fpUnits f (fpInfMagnitude f) = 2 * 2 ^ fpFracBits f * 2 ^ (fpExpMax f - 2) ∧
      fpUnits f (fpInfMagnitude f - 1) = (2 * 2 ^ fpFracBits f - 1) * 2 ^ (fpExpMax f - 2) := by
  have hp : 0 < 2 ^ fpFracBits f := Nat.two_pow_pos _
  have hinf : fpInfMagnitude f = (fpExpMax f - 2) * 2 ^ fpFracBits f + 2 * 2 ^ fpFracBits f := by cases f <;> rfl
  constructor
  · rw [hinf]
    exact fpUnits_build f (.inr (by omega)) le_rfl
  · rw [hinf, Nat.add_sub_assoc (by omega)]
    exact fpUnits_build f (.inr (by omega)) (Nat.sub_le _ _)

/-- The least magnitude that rounds to infinity lies half-way between the largest finite one and infinity (R166). -/
theorem overflowAt_eq_units (f : FpFormat) :
    2 * (Forms.overflowAt f : K) =
      ((fpUnits f (fpInfMagnitude f - 1) : K) + fpUnits f (fpInfMagnitude f)) * (2 : K) ^ fpMinExp f := by
  obtain ⟨hinf, hmax⟩ := fpUnits_inf_and_max f
  have hone : 1 ≤ 2 * 2 ^ fpFracBits f := by have := Nat.two_pow_pos (fpFracBits f); omega
  have hexp : (fpExpMax f - 2 : Nat) + fpMinExp f = (fpBias f : Int) - fpFracBits f := by cases f <;> rfl
  have hscale : (2 : K) ^ (fpExpMax f - 2) * (2 : K) ^ fpMinExp f = 2 ^ fpBias f / 2 ^ fpFracBits f := by
    rw [← zpow_natCast, ← zpow_add₀ two_ne_zero, hexp, zpow_sub₀ two_ne_zero, zpow_natCast, zpow_natCast]
  rw [hinf, hmax, Forms.overflowAt, fracBits_eq, bias_eq]
  push_cast [Nat.cast_sub hone]
  rw [← add_mul, mul_assoc _ _ ((2 : K) ^ fpMinExp f), hscale, pow_succ]
  field_simp
  ring

/-- Correct rounding as the statements put it, for an exact value in any ordered field. -/
def CorrectlyRoundedIn (f : FpFormat) (q : K) (r : Nat) : Prop :=
  if |q| < (Forms.overflowAt f : K) then
    Forms.IsFinite f r ∧ ∀ y, Forms.IsFinite f y →
      |(Forms.value f r : K) - q| ≤ |(Forms.value f y : K) - q| ∧
      (|(Forms.value f r : K) - q| = |(Forms.value f y : K) - q| → Forms.value f y ≠ Forms.value f r → r % 2 = 0)
  else r = fpInf f (decide (q < 0))

theorem fpPattern_mod_two (f : FpFormat) (neg : Bool) (mag : Nat) : fpPattern f neg mag % 2 = mag % 2 := by
  have heven : 2 ^ (fpWidth f - 1) % 2 = 0 := by cases f <;> rfl
  rw [fpPattern]
  split <;> omega

/-- The pattern of the nearest magnitude is nearest among all patterns: a sign only moves a value further away, and so
does the sign that is not the exact value's. -/
theorem NearestMagnitude.correctlyRounded {f : FpFormat} {X : K} {g : Nat} (h : NearestMagnitude f X g) (hX : 0 < X)
    (neg : Bool) :
    CorrectlyRoundedIn f (signed neg (X * (2 : K) ^ fpMinExp f))
      (fpPattern f neg (min g (fpInfMagnitude f))) := by
  have hu : (0 : K) < (2 : K) ^ fpMinExp f := by positivity
  have hover := h.overflow
  have hlimit : |signed neg (X * (2 : K) ^ fpMinExp f)| < (Forms.overflowAt f : K) ↔ g < fpInfMagnitude f := by
    rw [← not_le, ← not_le, hover, abs_signed, abs_of_pos (by positivity),
      ← mul_le_mul_iff_of_pos_left (two_pos : (0 : K) < 2), overflowAt_eq_units, ← mul_assoc,
      mul_le_mul_iff_of_pos_right hu]
  unfold CorrectlyRoundedIn
  split
  · next hlt =>
    have hg := hlimit.mp hlt
    have hwidth := lt_width_of_le_inf f hg.le
    rw [min_eq_left hg.le]
    refine ⟨by rwa [isFinite_iff, fpMagnitude_pattern f neg hwidth], fun y _ => ?_⟩
    obtain ⟨hle, heven⟩ := h (fpMagnitude f y)
    have hr : |(Forms.value f (fpPattern f neg g) : K) - signed neg (X * (2 : K) ^ fpMinExp f)| =
        |(fpUnits f g : K) - X| * (2 : K) ^ fpMinExp f := by
      rw [cast_value, fpSign_pattern f neg hwidth, fpMagnitude_pattern f neg hwidth, signed_mul, signed_sub_signed,
        abs_signed, ← sub_mul, abs_mul, abs_of_pos hu]
    have hy : |(Forms.value f y : K) - signed neg (X * (2 : K) ^ fpMinExp f)| =
        |signed (fpSign f y) (fpUnits f (fpMagnitude f y) : K) - signed neg X| * (2 : K) ^ fpMinExp f := by
      rw [cast_value, ← signed_mul, ← sub_mul, abs_mul, abs_of_pos hu]
    have hsigns := abs_sub_le_signed (fpSign f y) neg (Nat.cast_nonneg (α := K) (fpUnits f (fpMagnitude f y))) hX.le
    rw [hr, hy, fpPattern_mod_two]
    refine ⟨mul_le_mul_of_nonneg_right (hle.trans hsigns) hu.le, fun heq hne => ?_⟩
    have heq' := mul_right_cancel₀ hu.ne' heq
    refine heven (le_antisymm hle (heq' ▸ hsigns)) fun hunits => ?_
    refine (abs_signed_sub_lt (na := fpSign f y) (nb := neg) (Nat.cast_nonneg (fpUnits f (fpMagnitude f y))) hX
      fun hval => hne ?_).ne ?_
    · apply Rat.cast_injective (α := K)
      rw [cast_value, cast_value, hval, fpSign_pattern f neg hwidth, fpMagnitude_pattern f neg hwidth, hunits]
    · rw [← heq', hunits]
  · next hge =>
    have hg := not_lt.mp (mt hlimit.mpr hge)
    have hneg : decide (signed neg (X * (2 : K) ^ fpMinExp f) < 0) = neg := by
      have hpos : 0 < X * (2 : K) ^ fpMinExp f := by positivity
      cases neg
      · exact decide_eq_false (not_lt.mpr hpos.le)
      · exact decide_eq_true (neg_lt_zero.mpr hpos)
    rw [min_eq_right hg, hneg, fpInf]

/-- `fpRound` rounds correctly (R163, R164, R166); `x` and `m` are as for `fpRound_spec`. -/
theorem fpRound_correctlyRoundedIn (f : FpFormat) (neg : Bool) {m : Nat} (e : Int) {x : K} (hm : m ≠ 0)
    (hx : x = m ∨ (m % 2 = 1 ∧ fpFracBits f + 2 ≤ Nat.log2 m ∧ (m : K) - 1 < x ∧ x < m + 1)) :
    CorrectlyRoundedIn f (signed neg (x * (2 : K) ^ e)) (fpRound f neg m e) := by
  have hpos : 0 < x := by
    obtain rfl | ⟨-, -, hlow, -⟩ := hx
    · exact_mod_cast Nat.pos_of_ne_zero hm
    · have : (1 : K) ≤ m := by exact_mod_cast Nat.one_le_iff_ne_zero.mpr hm
      linarith
  obtain ⟨g, hround, hnear⟩ := fpRound_nearest f neg e hm hx
  have h := hnear.correctlyRounded (by positivity) neg
  rwa [mul_assoc, ← zpow_add₀ two_ne_zero, sub_add_cancel, ← hround] at h

end Values

theorem value_fpOne (f : FpFormat) : Forms.value f (fpPattern f false (fpOne f)) = 1 := by
  have hwidth := lt_width_of_le_inf f (fpOne_lt_inf f).le
  rw [value_eq_units, fpSign_pattern f false hwidth, fpMagnitude_pattern f false hwidth, signed_false, fpUnits_fpOne]

/-- Settles O42. -/
theorem sinAndCosKeepTheirProperties : Obligations.SinAndCosKeepTheirProperties := by
  intro cfg f a ha
  rw [fpBits_eq] at ha
  refine ⟨fun hfin => ?_, fun hzero => ⟨fpSin_of_isZero cfg hzero, ?_⟩, fun hfin => ?_⟩
  · rw [fpSin_of_not_isFinite cfg hfin, fpCos_of_not_isFinite cfg hfin]
    exact ⟨(fpNanOf_spec cfg .sin f a 0).1, (fpNanOf_spec cfg .cos f a 0).1⟩
  · rw [fpCos_of_isZero cfg hzero, value_fpOne]
  · obtain ⟨nsin, msin, hsin, esin⟩ := fpSin_of_isFinite cfg ha hfin
    obtain ⟨ncos, mcos, hcos, ecos⟩ := fpCos_of_isFinite cfg hfin
    obtain ⟨hlt, hfinite, habs⟩ := pattern_in_unit_range nsin hsin
    rw [esin, ecos]
    exact ⟨hlt, hfinite, habs, pattern_in_unit_range ncos hcos⟩

end Sys2Proof.Machine
end

section
/-! The five operations round correctly (41_fpu.md R163, R164, R166). Each hands `fpRound` its exact result, or an
integer with a sticky bit that stands for it. -/

namespace Sys2Proof.Machine

/-- Correct rounding in the rationals is that of the statements. -/
theorem correctlyRounded_of_rat {f : FpFormat} {q : ℚ} {r : Nat} (h : CorrectlyRoundedIn f q r) :
    Forms.CorrectlyRounded f q r := by
  unfold CorrectlyRoundedIn at h
  simp only [Rat.cast_id] at h
  unfold Forms.CorrectlyRounded
  split
  · next hlt =>
    rw [if_pos hlt] at h
    exact ⟨h.1, fun y _ hy => h.2 y hy⟩
  · next hge =>
    rw [if_neg hge] at h
    rw [inf_eq]
    exact h

/-- Every finite value lies below the overflow threshold (R166). -/
theorem abs_value_lt_overflowAt {f : FpFormat} {x : Nat} (h : Forms.IsFinite f x) :
    |Forms.value f x| < Forms.overflowAt f := by
  have hu : (0 : ℚ) < 2 ^ fpMinExp f := by positivity
  have hover := overflowAt_eq_units (K := ℚ) f
  have hpos := fpInfMagnitude_pos f
  have hle : (fpUnits f (fpMagnitude f x) : ℚ) ≤ fpUnits f (fpInfMagnitude f - 1) := by
    have hmag := isFinite_iff.mp h
    exact_mod_cast (fpUnits_strictMono f).monotone (by omega)
  have hlt : (fpUnits f (fpInfMagnitude f - 1) : ℚ) < fpUnits f (fpInfMagnitude f) := by
    exact_mod_cast fpUnits_strictMono f (by omega)
  rw [Rat.cast_id] at hover
  rw [value_eq_units, abs_mul, abs_signed, Nat.abs_cast, abs_of_pos hu]
  nlinarith

theorem overflowAt_pos (f : FpFormat) : 0 < Forms.overflowAt f :=
  (abs_nonneg _).trans_lt (abs_value_lt_overflowAt (isFinite_of_isZero (isZero_fpZero f false)))

theorem value_of_isZero {f : FpFormat} {x : Nat} (h : Forms.IsZero f x) : Forms.value f x = 0 := by
  rw [value_of_isFinite (isFinite_of_isZero h), fpSignificand_eq_zero_iff.mpr (isZero_iff.mp h)]
  simp

/-- A zero is the correct rounding of zero, of either sign. -/
theorem correctlyRounded_zero (f : FpFormat) (neg : Bool) : Forms.CorrectlyRounded f 0 (fpZero f neg) := by
  unfold Forms.CorrectlyRounded
  rw [abs_zero, if_pos (overflowAt_pos f), value_of_isZero (isZero_fpZero f neg), sub_zero, abs_zero]
  refine ⟨isFinite_of_isZero (isZero_fpZero f neg), fun y _ _ => ⟨abs_nonneg _, fun heq hne => ?_⟩⟩
  rw [sub_zero, eq_comm, abs_eq_zero] at heq
  exact absurd heq hne

/-- `fpRound` on an exact value (R163). -/
theorem fpRound_correctlyRounded (f : FpFormat) (neg : Bool) (m : Nat) (e : Int) :
    Forms.CorrectlyRounded f (signed neg ((m : ℚ) * 2 ^ e)) (fpRound f neg m e) := by
  by_cases hm : m = 0
  · rw [hm, Nat.cast_zero, zero_mul, signed_zero, fpRound, if_pos rfl]
    exact correctlyRounded_zero f neg
  · exact correctlyRounded_of_rat (fpRound_correctlyRoundedIn f neg e hm (.inl rfl))

/-- The exact sum of two signed values, brought to the smaller exponent (R163). -/
theorem signedMag_sum (na nb : Bool) (ma mb : Nat) (ea eb : Int) :
    ((signedMag na (ma * 2 ^ (ea - min ea eb).toNat) + signedMag nb (mb * 2 ^ (eb - min ea eb).toNat) : Int) : ℚ) *
      2 ^ min ea eb = signed na ((ma : ℚ) * 2 ^ ea) + signed nb ((mb : ℚ) * 2 ^ eb) := by
  have hterm (neg : Bool) (m : Nat) {e : Int} (he : min ea eb ≤ e) :
      ((signedMag neg (m * 2 ^ (e - min ea eb).toNat) : Int) : ℚ) * 2 ^ min ea eb = signed neg ((m : ℚ) * 2 ^ e) := by
    have hpow : (2 : ℚ) ^ (e - min ea eb).toNat * 2 ^ min ea eb = 2 ^ e := by
      rw [← zpow_natCast, ← zpow_add₀ two_ne_zero, Int.toNat_of_nonneg (by omega), sub_add_cancel]
    cases neg <;> simp [signedMag, mul_assoc, hpow]
  rw [Int.cast_add, add_mul, hterm na ma (min_le_left _ _), hterm nb mb (min_le_right _ _)]

theorem addFinite_correctlyRounded (f : FpFormat) (na nb : Bool) (ma mb : Nat) (ea eb : Int) :
    Forms.CorrectlyRounded f (signed na ((ma : ℚ) * 2 ^ ea) + signed nb ((mb : ℚ) * 2 ^ eb))
      (addFinite f na ma ea nb mb eb) := by
  rw [← signedMag_sum]
  unfold addFinite
  dsimp only
  generalize signedMag na (ma * 2 ^ (ea - min ea eb).toNat) + signedMag nb (mb * 2 ^ (eb - min ea eb).toNat) = sum
  split
  · next hzero =>
    rw [hzero, Int.cast_zero, zero_mul]
    exact correctlyRounded_zero f _
  · have hsum : (sum : ℚ) * 2 ^ min ea eb = signed (decide (sum < 0)) ((sum.natAbs : ℚ) * 2 ^ min ea eb) := by
      rw [← signed_mul]
      congr 1
      rcases lt_or_ge sum 0 with hneg | hpos
      · rw [decide_eq_true hneg, signed_true, Nat.cast_natAbs, abs_of_neg hneg]
        push_cast
        rw [neg_neg]
      · rw [decide_eq_false (not_lt.mpr hpos), signed_false, Nat.cast_natAbs, abs_of_nonneg hpos]
    rw [hsum]
    exact fpRound_correctlyRounded f _ _ _

/-- Settles O36. -/
theorem sumsAndProductsAreCorrectlyRounded : Obligations.SumsAndProductsAreCorrectlyRounded := by
  intro cfg f a b _ _ ha hb
  rw [value_of_isFinite ha, value_of_isFinite hb]
  refine ⟨?_, ?_, ?_⟩
  · rw [fpAdd, fpAddSub_finite cfg .add false ha hb, Bool.xor_false]
    exact addFinite_correctlyRounded f _ _ _ _ _ _
  · rw [fpSub, fpAddSub_finite cfg .sub true ha hb, Bool.xor_true, sub_eq_add_neg, ← signed_not]
    exact addFinite_correctlyRounded f _ _ _ _ _ _
  · have hexact (ma mb : Nat) (ea eb : Int) :
        (ma : ℚ) * 2 ^ ea * ((mb : ℚ) * 2 ^ eb) = ((ma * mb : Nat) : ℚ) * 2 ^ (ea + eb) := by
      rw [zpow_add₀ two_ne_zero, Nat.cast_mul, mul_mul_mul_comm]
    rw [fpMul_finite cfg ha hb, signed_mul_signed, hexact]
    exact fpRound_correctlyRounded f _ _ _

/-- The quotient has at least three bits more than the format holds (R163). -/
theorem divFinite_correctlyRounded (f : FpFormat) (neg : Bool) {ma mb : Nat} (ea eb : Int) (hb0 : mb ≠ 0)
    (hb : mb < 2 ^ (fpFracBits f + 1)) :
    Forms.CorrectlyRounded f (signed neg ((ma : ℚ) * 2 ^ ea / ((mb : ℚ) * 2 ^ eb)))
      (divFinite f neg ma ea mb eb) := by
  unfold divFinite
  dsimp only
  by_cases ha0 : ma = 0
  · rw [if_pos ha0, ha0, Nat.cast_zero, zero_mul, zero_div, signed_zero, fpRound, if_pos rfl]
    exact correctlyRounded_zero f neg
  · rw [if_neg ha0]
    generalize hk : 2 * (fpFracBits f + 2) = k
    have hroom : 2 ^ (fpFracBits f + 2) ≤ 2 * (ma * 2 ^ k / mb) := by
      have hle : 2 ^ (fpFracBits f + 3) ≤ ma * 2 ^ k / mb := by
        rw [Nat.le_div_iff_mul_le (Nat.pos_of_ne_zero hb0)]
        calc 2 ^ (fpFracBits f + 3) * mb ≤ 2 ^ (fpFracBits f + 3) * 2 ^ (fpFracBits f + 1) :=
              Nat.mul_le_mul_left _ hb.le
          _ = 1 * 2 ^ k := by rw [← pow_add, ← hk, Nat.one_mul]; congr 1; omega
          _ ≤ ma * 2 ^ k := Nat.mul_le_mul_right _ (Nat.pos_of_ne_zero ha0)
      have hpow : 2 ^ (fpFracBits f + 3) = 2 * 2 ^ (fpFracBits f + 2) := by rw [← pow_succ']
      omega
    have hm0 : withSticky (ma * 2 ^ k / mb) (ma * 2 ^ k % mb != 0) ≠ 0 := by
      have := Nat.two_pow_pos (fpFracBits f + 2)
      unfold withSticky
      omega
    have hexact : (2 * (((ma * 2 ^ k : Nat) : ℚ) / mb)) * 2 ^ (ea - eb - k - 1) =
        (ma : ℚ) * 2 ^ ea / ((mb : ℚ) * 2 ^ eb) := by
      rw [zpow_sub₀ two_ne_zero, zpow_sub₀ two_ne_zero, zpow_sub₀ two_ne_zero, zpow_natCast, zpow_one]
      push_cast
      field_simp
    rw [← hexact]
    exact correctlyRounded_of_rat
      (fpRound_correctlyRoundedIn f neg _ hm0 (withSticky_div (K := ℚ) hb0 (fpFracBits f) hroom))

/-- Settles O37. -/
theorem quotientsAreCorrectlyRounded : Obligations.QuotientsAreCorrectlyRounded := by
  intro cfg f a b _ _ ha hb hne
  rw [value_of_isFinite ha, value_of_isFinite hb, fpDiv_finite cfg ha hb hne, signed_div_signed]
  exact divFinite_correctlyRounded f _ _ _ (fpSignificand_ne_zero hne) (fpSignificand_lt f _)

/-! ### Roots -/

/-- An integer square root with a sticky bit stands for twice the exact root. -/
theorem withSticky_sqrt {n p : Nat} (h : 2 ^ (p + 1) ≤ isqrt n) :
    (2 * √(n : ℝ) = (withSticky (isqrt n) (isqrt n * isqrt n != n) : Nat)) ∨
      (withSticky (isqrt n) (isqrt n * isqrt n != n) % 2 = 1 ∧
        p + 2 ≤ Nat.log2 (withSticky (isqrt n) (isqrt n * isqrt n != n)) ∧
        ((withSticky (isqrt n) (isqrt n * isqrt n != n) : Nat) : ℝ) - 1 < 2 * √(n : ℝ) ∧
        2 * √(n : ℝ) < (withSticky (isqrt n) (isqrt n * isqrt n != n) : Nat) + 1) := by
  obtain ⟨hle, hlt⟩ := isqrt_spec n
  generalize isqrt n = r at *
  by_cases hexact : r * r = n
  · left
    have hroot : √(n : ℝ) = r := by
      rw [← hexact, Nat.cast_mul, Real.sqrt_mul_self (Nat.cast_nonneg r)]
    rw [hroot]
    simp [withSticky, hexact]
  · right
    have hs : withSticky r (r * r != n) = 2 * r + 1 := by simp [withSticky, hexact]
    have hlow : (r : ℝ) < √(n : ℝ) := by
      apply Real.lt_sqrt_of_sq_lt
      rw [sq]
      exact_mod_cast lt_of_le_of_ne hle hexact
    have hhigh : √(n : ℝ) < r + 1 := by
      rw [Real.sqrt_lt' (by positivity), sq]
      exact_mod_cast hlt
    have hlog : p + 2 ≤ Nat.log2 (2 * r + 1) := by
      rw [Nat.le_log2 (by omega)]
      have hpow : 2 ^ (p + 2) = 2 * 2 ^ (p + 1) := by rw [← pow_succ']
      omega
    rw [hs]
    refine ⟨by omega, hlog, ?_, ?_⟩ <;> push_cast <;> linarith

/-- The root of a widened integer, scaled back, is the exact root (R163). -/
theorem sqrt_widened (m j : Nat) {e : Int} (heven : (e - j) % 2 = 0) :
    2 * √((m * 2 ^ j : Nat) : ℝ) * 2 ^ ((e - j) / 2 - 1) = √((m : ℝ) * 2 ^ e) := by
  have he : e = j + 2 * ((e - j) / 2) := by omega
  generalize (e - j) / 2 = half at he ⊢
  have hsquare : (m : ℝ) * 2 ^ e = ((m * 2 ^ j : Nat) : ℝ) * ((2 : ℝ) ^ half) ^ 2 := by
    rw [he, zpow_add₀ two_ne_zero, zpow_natCast, ← zpow_natCast ((2 : ℝ) ^ half), ← zpow_mul, mul_comm half]
    push_cast
    ring
  rw [hsquare, Real.sqrt_mul (Nat.cast_nonneg _), Real.sqrt_sq (by positivity), zpow_sub_one₀ two_ne_zero]
  ring

/-- The root has at least three bits more than the format holds (R163). -/
theorem sqrtFinite_correctlyRounded (f : FpFormat) {m : Nat} (e : Int) (hm : m ≠ 0) :
    CorrectlyRoundedIn f √((m : ℝ) * 2 ^ e) (sqrtFinite f m e) := by
  unfold sqrtFinite
  dsimp only
  generalize hj : 2 * (fpFracBits f + 3) + (e % 2).toNat = j
  have hroom : 2 ^ (fpFracBits f + 1) ≤ isqrt (m * 2 ^ j) := by
    by_contra hsmall
    have hlt := (isqrt_spec (m * 2 ^ j)).2
    have hsquare : (isqrt (m * 2 ^ j) + 1) * (isqrt (m * 2 ^ j) + 1) ≤
        2 ^ (fpFracBits f + 1) * 2 ^ (fpFracBits f + 1) := Nat.mul_le_mul (by omega) (by omega)
    have hwide : 2 ^ (fpFracBits f + 1) * 2 ^ (fpFracBits f + 1) ≤ m * 2 ^ j := by
      rw [← pow_add]
      exact (Nat.pow_le_pow_right two_pos (by omega)).trans (Nat.le_mul_of_pos_left _ (Nat.pos_of_ne_zero hm))
    omega
  have hm0 : withSticky (isqrt (m * 2 ^ j)) (isqrt (m * 2 ^ j) * isqrt (m * 2 ^ j) != m * 2 ^ j) ≠ 0 := by
    have := Nat.two_pow_pos (fpFracBits f + 1)
    unfold withSticky
    omega
  have h := fpRound_correctlyRoundedIn f false ((e - j) / 2 - 1) hm0 (withSticky_sqrt hroom)
  rwa [signed_false, sqrt_widened m j (by omega)] at h

/-- The root of a finite value lies below the overflow threshold, which is above 1. -/
theorem sqrt_value_lt_overflowAt {f : FpFormat} {a : Nat} (h : Forms.IsFinite f a) :
    |√(Forms.value f a : ℝ)| < (Forms.overflowAt f : ℝ) := by
  have hone : (1 : ℝ) < Forms.overflowAt f := by
    have hfin : Forms.IsFinite f (fpPattern f false (fpOne f)) := (pattern_in_unit_range false le_rfl).2.1
    have hlt := abs_value_lt_overflowAt hfin
    rw [value_fpOne, abs_one] at hlt
    exact_mod_cast hlt
  have hvalue : (Forms.value f a : ℝ) < Forms.overflowAt f := by
    exact_mod_cast (le_abs_self _).trans_lt (abs_value_lt_overflowAt h)
  rw [abs_of_nonneg (Real.sqrt_nonneg _), Real.sqrt_lt' (by linarith)]
  nlinarith

/-- Settles O38. -/
theorem rootsAreCorrectlyRounded : Obligations.RootsAreCorrectlyRounded := by
  intro cfg f a _ ha hs
  rw [signBit_eq] at hs
  by_cases hzero : Forms.IsZero f a
  · have hresult := isZero_fpZero f (fpSign f a)
    rw [fpSqrt_of_isZero cfg hzero, value_of_isZero hzero, value_of_isZero hresult]
    refine ⟨isFinite_of_isZero hresult, fun y _ _ => ?_⟩
    rw [Rat.cast_zero, Real.sqrt_zero, sub_zero, abs_zero]
    exact abs_nonneg _
  · have h := sqrtFinite_correctlyRounded f (fpExponent f (fpMagnitude f a)) (fpSignificand_ne_zero hzero)
    have hexact : (Forms.value f a : ℝ) =
        (fpSignificand f (fpMagnitude f a) : ℝ) * 2 ^ fpExponent f (fpMagnitude f a) := by
      rw [value_of_isFinite ha, hs, signed_false]
      push_cast
      rfl
    rw [← hexact, ← fpSqrt_finite cfg hs ha hzero, CorrectlyRoundedIn, if_pos (sqrt_value_lt_overflowAt ha)] at h
    obtain ⟨hfin, hnearest⟩ := h
    exact ⟨hfin, fun y _ hy => (hnearest y hy).1⟩

end Sys2Proof.Machine
end
